-- ==== Sys2Proof/Word.lean ====
section
/-! DEFINITION. The word types of the meox/chip8 CORE (spec/00_scope.md R8, R9).
Every value of this hardware is unsigned; bit 0 is the least significant bit. -/

namespace Sys2Proof

/-- `u8`: a memory byte, a general register, a timer, an 8-bit immediate (R9, R20, R32, R60). -/
abbrev Byte := BitVec 8

/-- `u16`: an instruction word, `I`, `pc`, a stack entry (R9, R23, R27, R28, R90). -/
abbrev Word := BitVec 16

/-- `u12`: the address field `nnn` of an instruction word (R10, R92). -/
abbrev Addr := BitVec 12

/-- The number of a general register, 0 to 15 (R20). -/
abbrev Reg := Fin 16

/-- The number of a key of the latch, 0 to 15 (R33, R245). -/
abbrev Key := Fin 16

/-- A display row `r`, 0 to 31 (R30). -/
abbrev Row := Fin 32

/-- A display column `c`, 0 to 63 (R30). -/
abbrev Col := Fin 64

/-- The number of `VF`, the flag register: `VF = V[15]` (R17, R20, R21). -/
abbrev vf : Reg := 15

end Sys2Proof
end

