-- ==== Sys2Proof/Syntax.lean ====
section
/-! DEFINITION. The instructions of the base 35-opcode machine (spec/30_encoding.md R96): one constructor for each
row of spec/opcode_table.json, its operands the fields of that row (R10, R92). The word `Invalid` (R97) is no row: it
is the decoder's rejection (Decode.lean) and has its own meaning in Machine/Control.lean. -/

namespace Sys2Proof

/-- One decoded instruction. The comment of a constructor is its pattern and mnemonic in R96. -/
inductive Instr where
  /-- `0NNN` except 00E0 and 00EE: `SYS nnn`, the machine-code call (R98, R124). -/
  | sys (nnn : Addr)
  /-- `00E0`: `CLS` (R180). -/
  | cls
  /-- `00EE`: `RET` (R125). -/
  | ret
  /-- `1NNN`: `JP nnn` (R126). -/
  | jp (nnn : Addr)
  /-- `2NNN`: `CALL nnn` (R127). -/
  | call (nnn : Addr)
  /-- `3XNN`: `SE Vx,nn` (R150). -/
  | seImm (x : Reg) (nn : Byte)
  /-- `4XNN`: `SNE Vx,nn` (R151). -/
  | sneImm (x : Reg) (nn : Byte)
  /-- `5XY0`: `SE Vx,Vy` (R152). -/
  | seReg (x y : Reg)
  /-- `6XNN`: `LD Vx,nn` (R160). -/
  | ldImm (x : Reg) (nn : Byte)
  /-- `7XNN`: `ADD Vx,nn` (R161). -/
  | addImm (x : Reg) (nn : Byte)
  /-- `8XY0`: `LD Vx,Vy` (R162). -/
  | ldReg (x y : Reg)
  /-- `8XY1`: `OR Vx,Vy` (R163). -/
  | orReg (x y : Reg)
  /-- `8XY2`: `AND Vx,Vy` (R164). -/
  | andReg (x y : Reg)
  /-- `8XY3`: `XOR Vx,Vy` (R165). -/
  | xorReg (x y : Reg)
  /-- `8XY4`: `ADD Vx,Vy` (R166). -/
  | addReg (x y : Reg)
  /-- `8XY5`: `SUB Vx,Vy` (R167). -/
  | subReg (x y : Reg)
  /-- `8XY6`: `SHR Vx`; the field `y` is decoded and ignored (R99, R168). -/
  | shr (x y : Reg)
  /-- `8XY7`: `SUBN Vx,Vy` (R169). -/
  | subnReg (x y : Reg)
  /-- `8XYE`: `SHL Vx`; the field `y` is decoded and ignored (R99, R170). -/
  | shl (x y : Reg)
  /-- `9XY0`: `SNE Vx,Vy` (R153). -/
  | sneReg (x y : Reg)
  /-- `ANNN`: `LD I,nnn` (R200). -/
  | ldI (nnn : Addr)
  /-- `BNNN`: `JP V0,nnn` (R128). -/
  | jpV0 (nnn : Addr)
  /-- `CXNN`: `RND Vx,nn` (R172). -/
  | rnd (x : Reg) (nn : Byte)
  /-- `DXYN`: `DRW Vx,Vy,n` (R181). -/
  | drw (x y : Reg) (n : BitVec 4)
  /-- `EX9E`: `SKP Vx` (R154). -/
  | skp (x : Reg)
  /-- `EXA1`: `SKNP Vx` (R155). -/
  | sknp (x : Reg)
  /-- `FX07`: `LD Vx,DT` (R191). -/
  | ldVxDt (x : Reg)
  /-- `FX0A`: `LD Vx,K` (R190). -/
  | ldVxK (x : Reg)
  /-- `FX15`: `LD DT,Vx` (R192). -/
  | ldDtVx (x : Reg)
  /-- `FX18`: `LD ST,Vx` (R193). -/
  | ldStVx (x : Reg)
  /-- `FX1E`: `ADD I,Vx` (R201). -/
  | addI (x : Reg)
  /-- `FX29`: `LD F,Vx` (R202). -/
  | ldF (x : Reg)
  /-- `FX33`: `LD B,Vx` (R203). -/
  | ldB (x : Reg)
  /-- `FX55`: `LD [I],Vx`, the register dump (R204). -/
  | dumpRegs (x : Reg)
  /-- `FX65`: `LD Vx,[I]`, the register load (R205). -/
  | loadRegs (x : Reg)
  deriving DecidableEq, Repr

end Sys2Proof
end

