-- ==== Sys2Proof/WellFormed.lean ====
section
/-! DEFINITION. Which terms of `Instr` are instructions. The operand types hold every field to its width (R10, R92),
so one check is left: `SYS nnn` is not a second name of `CLS` or `RET` (R93, R98: the words of family 0 OTHER THAN
0x00E0 and 0x00EE are `SYS`). -/

namespace Sys2Proof

/-- A `SYS` address names a `SYS` word: neither 0x0E0 (the word is `CLS`) nor 0x0EE (the word is `RET`) (R98). -/
def sysAddressOk (nnn : Addr) : Bool :=
  nnn != 0x0E0#12 && nnn != 0x0EE#12

/-- The instruction is one that some word decodes to. -/
def Instr.wf : Instr → Bool
  | .sys nnn => sysAddressOk nnn
  | .cls => true
  | .ret => true
  | .jp _ => true
  | .call _ => true
  | .seImm _ _ => true
  | .sneImm _ _ => true
  | .seReg _ _ => true
  | .ldImm _ _ => true
  | .addImm _ _ => true
  | .ldReg _ _ => true
  | .orReg _ _ => true
  | .andReg _ _ => true
  | .xorReg _ _ => true
  | .addReg _ _ => true
  | .subReg _ _ => true
  | .shr _ _ => true
  | .subnReg _ _ => true
  | .shl _ _ => true
  | .sneReg _ _ => true
  | .ldI _ => true
  | .jpV0 _ => true
  | .rnd _ _ => true
  | .drw _ _ _ => true
  | .skp _ => true
  | .sknp _ => true
  | .ldVxDt _ => true
  | .ldVxK _ => true
  | .ldDtVx _ => true
  | .ldStVx _ => true
  | .addI _ => true
  | .ldF _ => true
  | .ldB _ => true
  | .dumpRegs _ => true
  | .loadRegs _ => true

end Sys2Proof
end

