-- ==== Sys2Proof/Decode.lean ====
section
/-! DEFINITION. The decode function of the meox/chip8 CORE (spec/30_encoding.md), total on every word and on every
list of bytes and rejecting by name; after it the encoder; the opcode table of R96 as a list of rows, and the decoder
that reads it; and the host's `decodeTableWord`. -/

namespace Sys2Proof

/-! ### The fields of an instruction word (R10, R91, R92) -/

/-- `op = w[15:12]`, the family of the word (R10, R17). -/
def fieldOp (w : Word) : BitVec 4 := w.extractLsb' 12 4

/-- `x = w[11:8]` (R10). -/
def fieldX (w : Word) : BitVec 4 := w.extractLsb' 8 4

/-- `y = w[7:4]` (R10). -/
def fieldY (w : Word) : BitVec 4 := w.extractLsb' 4 4

/-- `n = w[3:0]` (R10). -/
def fieldN (w : Word) : BitVec 4 := w.extractLsb' 0 4

/-- `nn = w[7:0]` (R10). -/
def fieldNN (w : Word) : Byte := w.extractLsb' 0 8

/-- `nnn = w[11:0]` (R10). -/
def fieldNNN (w : Word) : Addr := w.extractLsb' 0 12

/-- The register a 4-bit field names (R20, R92: every value 0 to 15 is a register). -/
def regOfBits (b : BitVec 4) : Reg := b.toFin

/-- The 4-bit field that names a register (R20, R92). -/
def bitsOfReg (r : Reg) : BitVec 4 := BitVec.ofFin (w := 4) r

/-- The register number in field `x` (R10, R20). -/
def regX (w : Word) : Reg := regOfBits (fieldX w)

/-- The register number in field `y` (R10, R20). -/
def regY (w : Word) : Reg := regOfBits (fieldY w)

/-- An instruction word of two memory bytes: the byte at the lower address is the more significant (R62, R90). -/
def wordOfBytes (high low : Byte) : Word := high ++ low

/-- The more significant byte of a word, which memory holds at the lower address (R62). -/
def highByte (w : Word) : Byte := w.extractLsb' 8 8

/-- The less significant byte of a word, which memory holds at the higher address (R62). -/
def lowByte (w : Word) : Byte := w.extractLsb' 0 8

/-! ### Decode (R90, R93, R94) -/

/-- Why bytes are no instruction. The first five together are the spec's one variant `Invalid` (R97), told apart by
the family they lie in; the last is not a word at all. -/
inductive DecodeReject where
  /-- Family 5 with `n ≠ 0`: 3840 words (R97). -/
  | invalidFamily5
  /-- Family 8 with `n` in 8 to D or F: 1792 words (R97). -/
  | invalidFamily8
  /-- Family 9 with `n ≠ 0`: 3840 words (R97). -/
  | invalidFamily9
  /-- Family E with `nn` neither 9E nor A1: 4064 words (R97). -/
  | invalidFamilyE
  /-- Family F with `nn` none of 07 0A 15 18 1E 29 33 55 65: 3952 words (R97). -/
  | invalidFamilyF
  /-- Fewer than the two bytes of an instruction word (R90). -/
  | shortWord
  deriving DecidableEq, Repr

/-- Family 0: the whole word is compared; what is neither CLS nor RET is SYS (R93, R94 (c), R98). -/
def decodeFamily0 (w : Word) : Instr :=
  if w = 0x00E0#16 then .cls
  else if w = 0x00EE#16 then .ret
  else .sys (fieldNNN w)

/-- Family 5: the low nibble is compared (R93, R94 (a)). -/
def decodeFamily5 (w : Word) : Except DecodeReject Instr :=
  if fieldN w = 0x0#4 then .ok (.seReg (regX w) (regY w)) else .error .invalidFamily5

/-- Family 8: the low nibble selects one of nine instructions (R93). -/
def decodeFamily8 (w : Word) : Except DecodeReject Instr :=
  match fieldN w with
  | 0x0#4 => .ok (.ldReg (regX w) (regY w))
  | 0x1#4 => .ok (.orReg (regX w) (regY w))
  | 0x2#4 => .ok (.andReg (regX w) (regY w))
  | 0x3#4 => .ok (.xorReg (regX w) (regY w))
  | 0x4#4 => .ok (.addReg (regX w) (regY w))
  | 0x5#4 => .ok (.subReg (regX w) (regY w))
  | 0x6#4 => .ok (.shr (regX w) (regY w))
  | 0x7#4 => .ok (.subnReg (regX w) (regY w))
  | 0xE#4 => .ok (.shl (regX w) (regY w))
  | _ => .error .invalidFamily8

/-- Family 9: the low nibble is compared (R93, R94 (a)). -/
def decodeFamily9 (w : Word) : Except DecodeReject Instr :=
  if fieldN w = 0x0#4 then .ok (.sneReg (regX w) (regY w)) else .error .invalidFamily9

/-- Family E: the low byte is compared (R93, R94 (c)). -/
def decodeFamilyE (w : Word) : Except DecodeReject Instr :=
  if fieldNN w = 0x9E#8 then .ok (.skp (regX w))
  else if fieldNN w = 0xA1#8 then .ok (.sknp (regX w))
  else .error .invalidFamilyE

/-- Family F: the low byte selects one of nine instructions (R93, R94 (b)). -/
def decodeFamilyF (w : Word) : Except DecodeReject Instr :=
  match fieldNN w with
  | 0x07#8 => .ok (.ldVxDt (regX w))
  | 0x0A#8 => .ok (.ldVxK (regX w))
  | 0x15#8 => .ok (.ldDtVx (regX w))
  | 0x18#8 => .ok (.ldStVx (regX w))
  | 0x1E#8 => .ok (.addI (regX w))
  | 0x29#8 => .ok (.ldF (regX w))
  | 0x33#8 => .ok (.ldB (regX w))
  | 0x55#8 => .ok (.dumpRegs (regX w))
  | 0x65#8 => .ok (.loadRegs (regX w))
  | _ => .error .invalidFamilyF

/-- `decode(w)`: for each of the 65536 words one of the 35 variants, or a named rejection that stands for `Invalid`.
It reads nothing but `w` (R90, R93). -/
def decode (w : Word) : Except DecodeReject Instr :=
  match fieldOp w with
  | 0x0#4 => .ok (decodeFamily0 w)
  | 0x1#4 => .ok (.jp (fieldNNN w))
  | 0x2#4 => .ok (.call (fieldNNN w))
  | 0x3#4 => .ok (.seImm (regX w) (fieldNN w))
  | 0x4#4 => .ok (.sneImm (regX w) (fieldNN w))
  | 0x5#4 => decodeFamily5 w
  | 0x6#4 => .ok (.ldImm (regX w) (fieldNN w))
  | 0x7#4 => .ok (.addImm (regX w) (fieldNN w))
  | 0x8#4 => decodeFamily8 w
  | 0x9#4 => decodeFamily9 w
  | 0xA#4 => .ok (.ldI (fieldNNN w))
  | 0xB#4 => .ok (.jpV0 (fieldNNN w))
  | 0xC#4 => .ok (.rnd (regX w) (fieldNN w))
  | 0xD#4 => .ok (.drw (regX w) (regY w) (fieldN w))
  | 0xE#4 => decodeFamilyE w
  | _ => decodeFamilyF w

/-- Decode the instruction at the front of a list of bytes and give the bytes after it: every instruction is two
bytes, the more significant first (R62, R90, R100). -/
def decodeBytes : List Byte → Except DecodeReject (Instr × List Byte)
  | high :: low :: rest =>
    match decode (wordOfBytes high low) with
    | .ok i => .ok (i, rest)
    | .error e => .error e
  | _ => .error .shortWord

/-! ### Encode (R91, R96) -/

/-- Format `NNN`: `op ∥ nnn` (R91). -/
def formatNNN (op : BitVec 4) (nnn : Addr) : Word := op ++ nnn

/-- Format `XNN`, and `XFF` with a fixed low byte: `op ∥ x ∥ nn` (R91). -/
def formatXNN (op : BitVec 4) (x : Reg) (nn : Byte) : Word := op ++ bitsOfReg x ++ nn

/-- Format `XYN`, and `XYF` with a fixed low nibble: `op ∥ x ∥ y ∥ n` (R91). -/
def formatXYN (op : BitVec 4) (x y : Reg) (n : BitVec 4) : Word := op ++ bitsOfReg x ++ bitsOfReg y ++ n

/-- The word of an instruction, from the patterns of R96. -/
def encode : Instr → Word
  | .sys nnn => formatNNN 0x0#4 nnn
  | .cls => 0x00E0#16
  | .ret => 0x00EE#16
  | .jp nnn => formatNNN 0x1#4 nnn
  | .call nnn => formatNNN 0x2#4 nnn
  | .seImm x nn => formatXNN 0x3#4 x nn
  | .sneImm x nn => formatXNN 0x4#4 x nn
  | .seReg x y => formatXYN 0x5#4 x y 0x0#4
  | .ldImm x nn => formatXNN 0x6#4 x nn
  | .addImm x nn => formatXNN 0x7#4 x nn
  | .ldReg x y => formatXYN 0x8#4 x y 0x0#4
  | .orReg x y => formatXYN 0x8#4 x y 0x1#4
  | .andReg x y => formatXYN 0x8#4 x y 0x2#4
  | .xorReg x y => formatXYN 0x8#4 x y 0x3#4
  | .addReg x y => formatXYN 0x8#4 x y 0x4#4
  | .subReg x y => formatXYN 0x8#4 x y 0x5#4
  | .shr x y => formatXYN 0x8#4 x y 0x6#4
  | .subnReg x y => formatXYN 0x8#4 x y 0x7#4
  | .shl x y => formatXYN 0x8#4 x y 0xE#4
  | .sneReg x y => formatXYN 0x9#4 x y 0x0#4
  | .ldI nnn => formatNNN 0xA#4 nnn
  | .jpV0 nnn => formatNNN 0xB#4 nnn
  | .rnd x nn => formatXNN 0xC#4 x nn
  | .drw x y n => formatXYN 0xD#4 x y n
  | .skp x => formatXNN 0xE#4 x 0x9E#8
  | .sknp x => formatXNN 0xE#4 x 0xA1#8
  | .ldVxDt x => formatXNN 0xF#4 x 0x07#8
  | .ldVxK x => formatXNN 0xF#4 x 0x0A#8
  | .ldDtVx x => formatXNN 0xF#4 x 0x15#8
  | .ldStVx x => formatXNN 0xF#4 x 0x18#8
  | .addI x => formatXNN 0xF#4 x 0x1E#8
  | .ldF x => formatXNN 0xF#4 x 0x29#8
  | .ldB x => formatXNN 0xF#4 x 0x33#8
  | .dumpRegs x => formatXNN 0xF#4 x 0x55#8
  | .loadRegs x => formatXNN 0xF#4 x 0x65#8

/-- The two memory bytes of an instruction, the lower address first (R62). -/
def encodeBytes (i : Instr) : List Byte := [highByte (encode i), lowByte (encode i)]

/-! ### The opcode table (R96)

The table as the spec prints it: a mask, a value, and how the row's fields are read. It is a second description of
`decode`, for a reader to hold beside R96 and for the statement that the two agree. -/

/-- One row of R96: the word `w` is this row's when `w AND mask = value`. -/
structure OpcodeRow where
  mask : Word
  value : Word
  build : Word → Instr

/-- The word is the row's (column `mask / match` of R96). -/
def OpcodeRow.fits (r : OpcodeRow) (w : Word) : Bool := w &&& r.mask == r.value

/-- Rows 2, 3, 1 and 4 to 10 of R96; rows 2 and 3 stand before row 1, as R96 requires. -/
def opcodeRowsLow : List OpcodeRow :=
  [ ⟨0xFFFF#16, 0x00E0#16, fun _ => .cls⟩,
    ⟨0xFFFF#16, 0x00EE#16, fun _ => .ret⟩,
    ⟨0xF000#16, 0x0000#16, fun w => .sys (fieldNNN w)⟩,
    ⟨0xF000#16, 0x1000#16, fun w => .jp (fieldNNN w)⟩,
    ⟨0xF000#16, 0x2000#16, fun w => .call (fieldNNN w)⟩,
    ⟨0xF000#16, 0x3000#16, fun w => .seImm (regX w) (fieldNN w)⟩,
    ⟨0xF000#16, 0x4000#16, fun w => .sneImm (regX w) (fieldNN w)⟩,
    ⟨0xF00F#16, 0x5000#16, fun w => .seReg (regX w) (regY w)⟩,
    ⟨0xF000#16, 0x6000#16, fun w => .ldImm (regX w) (fieldNN w)⟩,
    ⟨0xF000#16, 0x7000#16, fun w => .addImm (regX w) (fieldNN w)⟩ ]

/-- Rows 11 to 24 of R96. -/
def opcodeRowsMiddle : List OpcodeRow :=
  [ ⟨0xF00F#16, 0x8000#16, fun w => .ldReg (regX w) (regY w)⟩,
    ⟨0xF00F#16, 0x8001#16, fun w => .orReg (regX w) (regY w)⟩,
    ⟨0xF00F#16, 0x8002#16, fun w => .andReg (regX w) (regY w)⟩,
    ⟨0xF00F#16, 0x8003#16, fun w => .xorReg (regX w) (regY w)⟩,
    ⟨0xF00F#16, 0x8004#16, fun w => .addReg (regX w) (regY w)⟩,
    ⟨0xF00F#16, 0x8005#16, fun w => .subReg (regX w) (regY w)⟩,
    ⟨0xF00F#16, 0x8006#16, fun w => .shr (regX w) (regY w)⟩,
    ⟨0xF00F#16, 0x8007#16, fun w => .subnReg (regX w) (regY w)⟩,
    ⟨0xF00F#16, 0x800E#16, fun w => .shl (regX w) (regY w)⟩,
    ⟨0xF00F#16, 0x9000#16, fun w => .sneReg (regX w) (regY w)⟩,
    ⟨0xF000#16, 0xA000#16, fun w => .ldI (fieldNNN w)⟩,
    ⟨0xF000#16, 0xB000#16, fun w => .jpV0 (fieldNNN w)⟩,
    ⟨0xF000#16, 0xC000#16, fun w => .rnd (regX w) (fieldNN w)⟩,
    ⟨0xF000#16, 0xD000#16, fun w => .drw (regX w) (regY w) (fieldN w)⟩ ]

/-- Rows 25 to 35 of R96. -/
def opcodeRowsHigh : List OpcodeRow :=
  [ ⟨0xF0FF#16, 0xE09E#16, fun w => .skp (regX w)⟩,
    ⟨0xF0FF#16, 0xE0A1#16, fun w => .sknp (regX w)⟩,
    ⟨0xF0FF#16, 0xF007#16, fun w => .ldVxDt (regX w)⟩,
    ⟨0xF0FF#16, 0xF00A#16, fun w => .ldVxK (regX w)⟩,
    ⟨0xF0FF#16, 0xF015#16, fun w => .ldDtVx (regX w)⟩,
    ⟨0xF0FF#16, 0xF018#16, fun w => .ldStVx (regX w)⟩,
    ⟨0xF0FF#16, 0xF01E#16, fun w => .addI (regX w)⟩,
    ⟨0xF0FF#16, 0xF029#16, fun w => .ldF (regX w)⟩,
    ⟨0xF0FF#16, 0xF033#16, fun w => .ldB (regX w)⟩,
    ⟨0xF0FF#16, 0xF055#16, fun w => .dumpRegs (regX w)⟩,
    ⟨0xF0FF#16, 0xF065#16, fun w => .loadRegs (regX w)⟩ ]

/-- The complete opcode map (R96). -/
def opcodeTable : List OpcodeRow := opcodeRowsLow ++ opcodeRowsMiddle ++ opcodeRowsHigh

/-- The decoder built from the table: the first row that fits; a word that fits no row is Invalid (R96). -/
def decodeByTable (w : Word) : Option Instr :=
  (opcodeTable.find? fun r => r.fits w).map fun r => r.build w

/-! ### The host's question -/

/-- What the decoder reads from the word `w` of a row of spec/opcode_table.json: one 16-bit word, bit 0 its least
significant bit, laid out as the two bytes memory holds (R62) and given to `decodeBytes`. -/
def decodeTableWord (nbits w : Nat) : Option Instr :=
  let word := BitVec.ofNat 16 (w % 2 ^ nbits)
  match decodeBytes [highByte word, lowByte word] with
  | .ok (i, _) => some i
  | .error _ => none

end Sys2Proof
end

