-- ==== Sys2Proof/Config.lean ====
section
/-! DEFINITION. The parameters of this hardware (spec/00_scope.md R8): the fixed ones as constants, the
configurable ones as the record `Params` (R37: parameters of the machine, not state), the open ones as free values
without a body. The default values of `Params` stand in Machine/Parameters.lean.

`TICK_RATE` (60 Hz) belongs to the driver and no rule depends on it (R241, R276): it has no constant here. -/

namespace Sys2Proof

/-- `MEM_SIZE`: bytes of memory, addresses 0 to 4095 (R8, R60). -/
@[simp] abbrev Config.memSize : Nat := 4096

/-- `FONT_BASE`: where RESET puts the font (R8, R61). -/
@[simp] abbrev Config.fontBase : Nat := 0x000

/-- `GLYPH_COUNT`: glyphs of the font, one for each hex digit (R8). -/
@[simp] abbrev Config.glyphCount : Nat := 16

/-- `GLYPH_BYTES`: bytes of one glyph (R8). -/
@[simp] abbrev Config.glyphBytes : Nat := 5

/-- `FONT_BYTES`: the length of the font (R8). -/
@[simp] abbrev Config.fontBytes : Nat := 80

/-- `PROG_BASE`: where LOAD puts a program, and `pc` after RESET (R8, R40, R265). -/
@[simp] abbrev Config.progBase : Nat := 0x200

/-- `PROG_MAX`: the longest program LOAD accepts, 4096 - 0x200 bytes (R8, R265, R266). -/
@[simp] abbrev Config.progMax : Nat := 3584

/-- The parameters an implementation of this hardware may set (R8, R37).
They are carried in `State` as data that no transaction changes, so that a statement about every state is a statement
about every configuration (assumption log 2). -/
structure Params where
  /-- `STACK_DEPTH`: how many return addresses the call stack holds (R8, R28). -/
  stackDepth : Nat
  /-- `FONT[0..79]`: the bytes RESET puts at `FONT_BASE` (R8, R263). -/
  font : Vector Byte 80
  deriving DecidableEq, Repr

/-- FREE VALUE. `draw8()`, the random source of RND (R14, R172, R247): the `k`-th draw of the machine, about which
the spec says nothing but its width. No body: nothing can be proved about it. The step supplies it from the counter
`State.draws` (assumption log 3). -/
opaque Config.draw : Nat → Byte

/-- FREE VALUE. `KEY_SELECT` (R8, R190, decision D17): which member of a non-empty set of pressed keys LD Vx,K
reports, as a rank in the list of them (`Machine.pickKey` reduces it to that list, so the key reported is always a
pressed one). The argument is the key latch. No body (assumption log 4). -/
opaque Config.keyRank : Vector Bool 16 → Nat

end Sys2Proof
end

