-- ==== Sys2Proof/Machine/Parameters.lean ====
section
/-! DEFINITION. The default values of the configurable parameters `STACK_DEPTH` and `FONT` (spec/00_scope.md R8,
spec/70_reset_and_hazards.md R263). The spec gives the font bytes as its own default, from general knowledge
(decision D21); they are what `State.reset` and the tests use (assumption log 2). -/

namespace Sys2Proof

/-- Glyphs 0 to 7 of the default font, five bytes each, top row first (R263). -/
def defaultGlyphsLow : Vector Byte 40 :=
  #v[ 0xF0, 0x90, 0x90, 0x90, 0xF0,
      0x20, 0x60, 0x20, 0x20, 0x70,
      0xF0, 0x10, 0xF0, 0x80, 0xF0,
      0xF0, 0x10, 0xF0, 0x10, 0xF0,
      0x90, 0x90, 0xF0, 0x10, 0x10,
      0xF0, 0x80, 0xF0, 0x10, 0xF0,
      0xF0, 0x80, 0xF0, 0x90, 0xF0,
      0xF0, 0x10, 0x20, 0x40, 0x40 ]

/-- Glyphs 8 to F of the default font (R263). -/
def defaultGlyphsHigh : Vector Byte 40 :=
  #v[ 0xF0, 0x90, 0xF0, 0x90, 0xF0,
      0xF0, 0x90, 0xF0, 0x10, 0xF0,
      0xF0, 0x90, 0xF0, 0x90, 0x90,
      0xE0, 0x90, 0xE0, 0x90, 0xE0,
      0xF0, 0x80, 0x80, 0x80, 0xF0,
      0xE0, 0x90, 0x90, 0x90, 0xE0,
      0xF0, 0x80, 0xF0, 0x80, 0xF0,
      0xF0, 0x80, 0xF0, 0x80, 0x80 ]

/-- The default `FONT[0..79]`: the customary hexadecimal font, in digit order (R263, G5, G6). -/
def defaultFont : Vector Byte 80 := defaultGlyphsLow ++ defaultGlyphsHigh

/-- The default `STACK_DEPTH`: "historical hardware: 16" (R8, R28). -/
def defaultStackDepth : Nat := 16

/-- The parameters at their default values (R8). -/
def Params.default : Params := { stackDepth := defaultStackDepth, font := defaultFont }

end Sys2Proof
end

