-- ==== Sys2Proof/Machine/State.lean ====
section
/-! DEFINITION. The state of the meox/chip8 CORE as plain data (spec/10_state.md), the faults (R226), and the state
after RESET (R40). The call stack, the display, the timers and the key latch are not in memory (R60). -/

namespace Sys2Proof.Machine

/-- The four architected terminal conditions (R13, R220). -/
inductive HaltReason where
  /-- LOAD was given more than 3584 bytes (R222, R266). -/
  | loadError
  /-- STEP executed an Invalid word or SYS (R124, R129). -/
  | decodeHalt
  /-- RET with an empty call stack (R125). -/
  | stackUnderflow
  /-- CALL with a full call stack (R127). -/
  | stackOverflow
  deriving DecidableEq, Repr

/-- `run`, the run state of the executor (R31, R34). -/
inductive RunState where
  | running
  | halted (reason : HaltReason)
  deriving DecidableEq, Repr

/-- The 4096-byte memory (R60): the bytes that differ from what RESET leaves, by strictly rising address. What an
unlisted address reads as is `Memory.resetByte` (Machine/Ops.lean); the form is `Memory.wf` there. -/
abbrev Memory := List Host.Cell

/-- `disp[r][c]`: 32 rows of 64 one-bit pixels, row-major (R30). -/
abbrev Display := Vector (Vector Bool 64) 32

/-- The whole state of the machine. Every field is the spec's but the last two. -/
structure State where
  /-- `V[0]` to `V[15]`, the general registers; `V[15]` is `VF` (R20, R21). -/
  v : Vector Byte 16
  /-- `I`, the index register (R27). -/
  i : Word
  /-- `pc`, the program counter (R23). -/
  pc : Word
  /-- `stack[0 .. sp-1]`, the call stack, oldest entry first; `sp` is its length (R28). -/
  stack : List Word
  /-- `mem[0x000 .. 0xFFF]` (R29, R60). -/
  mem : Memory
  /-- `disp`, the display buffer (R30). -/
  disp : Display
  /-- `dirty`, the display dirty flag (R35). -/
  dirty : Bool
  /-- `DT`, the delay timer (R32). -/
  dt : Byte
  /-- `ST`, the sound timer (R32). -/
  st : Byte
  /-- `key[0..15]`, the key latch: true is pressed (R33). -/
  keys : Vector Bool 16
  /-- `run`, the run state (R34). -/
  run : RunState
  /-- The MODEL'S OWN field: the parameters of this machine (R8, R37), which no transaction changes. -/
  params : Params
  /-- The MODEL'S OWN field: how many draws RND has taken from the random source (R14, R172). -/
  draws : Nat
  deriving DecidableEq, Repr

/-- The conditions the spec gives no result, its own outcome `Fault(kind)` (R13 (c), R226). The spec defines no state
after a fault, so none is given: the machine stops. All three are SAFE: a claim about what follows cannot be proved. -/
inductive Fault where
  /-- An address above 4095 would be accessed: raised by the fetch of STEP and by DRW, LD B,Vx, LD [I],Vx and
  LD Vx,[I], before the instruction changes any state (R66, R226). Safe. -/
  | memoryBounds
  /-- `V[x] > 15` in SKP or SKNP: the latch has no such key (R154, R155, R226). Safe. -/
  | keyIndex
  /-- `V[x] > 15` in LD F,Vx: the font has no such glyph (R202, R226). Safe. -/
  | glyphIndex
  deriving DecidableEq, Repr

/-- The reasons of the model's own for giving an instruction no meaning. -/
inductive Refusal where
  /-- Raised only by an arm of `exec` whose instruction has no meaning yet; no arm is left in that form. Safe. -/
  | notModelled (mnemonic : String)
  deriving DecidableEq, Repr

/-- The state after RESET of a machine with the given parameters (R40, R260), the random source standing at draw
`draws`: every register, timer, pixel and flag zero, the stack empty, no key pressed, `pc` at 0x200, running; memory
lists nothing, so it reads as the font followed by zeros. -/
def State.resetWith (params : Params) (draws : Nat) : State where
  v := Vector.replicate 16 0x00
  i := 0x0000
  pc := 0x0200
  stack := []
  mem := []
  disp := Vector.replicate 32 (Vector.replicate 64 false)
  dirty := false
  dt := 0x00
  st := 0x00
  keys := Vector.replicate 16 false
  run := .running
  params := params
  draws := draws

/-- The machine right after power-up, which is a RESET (R261), with the default parameters (R8). The first draw of
the random source is number 0: a DESIGN CHOICE of the model on which no statement rests (assumption log 3). -/
def State.reset : State := State.resetWith Params.default 0

end Sys2Proof.Machine
end

