-- ==== Sys2Proof/Machine/Ops.lean ====
section
/-! DEFINITION. The named operations over the state that the meanings are written from: registers, memory, the call
stack, the display, the default advance of `pc`, the fetch, halting and resetting. -/

namespace Sys2Proof.Machine

/-! ### Registers (R20, R21, R23) -/

/-- `V[r]` (R11). No register is hardwired (R20). -/
def State.reg (s : State) (r : Reg) : Byte := s.v[r.val]

/-- `V[r] <- b` (R11). -/
def State.setReg (s : State) (r : Reg) (b : Byte) : State := { s with v := s.v.set r.val b }

/-- `pc <- pc + 2`, the default effect of an instruction on `pc`, modulo 2^16 (R24, R122). -/
def State.advance (s : State) : State := { s with pc := s.pc + 2 }

/-- `pc <- pc + 4` when the condition holds, else `pc <- pc + 2`: a skip passes one more instruction (R24, R156). -/
def State.skipIf (s : State) (taken : Bool) : State := { s with pc := if taken then s.pc + 4 else s.pc + 2 }

/-! ### Memory (R12, R60 to R66) -/

/-- What RESET leaves at an address, and so what an unlisted address reads as: the font from `FONT_BASE`, then 0x00
(R40, R61, R260). -/
def Memory.resetByte (font : Vector Byte 80) (a : Nat) : Byte :=
  if h : a < 80 then font[a] else 0x00

/-- The byte a memory holds at an address: the listed one, else the byte RESET left there (R65). -/
def Memory.read (font : Vector Byte 80) (m : Memory) (a : Nat) : Byte :=
  match m with
  | [] => Memory.resetByte font a
  | (b, v) :: rest => if a = b then v else Memory.read font rest a

/-- Put a cell before the first listed address above it. -/
def Memory.insert (a : Nat) (v : Byte) : Memory → Memory
  | [] => [(a, v)]
  | (b, w) :: rest => if a < b then (a, v) :: (b, w) :: rest else (b, w) :: Memory.insert a v rest

/-- Store a byte, keeping the canonical form: a byte equal to what the address reads as unlisted is not listed
(R12, R65). -/
def Memory.write (font : Vector Byte 80) (m : Memory) (a : Nat) (v : Byte) : Memory :=
  let others := m.filter fun c => c.1 != a
  if v = Memory.resetByte font a then others else Memory.insert a v others

/-- The canonical form of memory: addresses strictly rising and below `MEM_SIZE`, no entry equal to what its address
reads as unlisted. -/
abbrev Memory.wf (font : Vector Byte 80) (m : Memory) : Prop :=
  m.Pairwise (fun c d => c.1 < d.1) ∧ ∀ c ∈ m, c.1 < Config.memSize ∧ c.2 ≠ Memory.resetByte font c.1

/-- `MemRead(a, 1)` of an existing address (R12). -/
def State.readByte (s : State) (a : Nat) : Byte := Memory.read s.params.font s.mem a

/-- `MemWrite(a, 1, v)` to an existing address (R12). -/
def State.writeByte (s : State) (a : Nat) (v : Byte) : State :=
  { s with mem := Memory.write s.params.font s.mem a v }

/-- `len` bytes from `base` on all exist: no address above 4095 is touched; an access of zero bytes touches none
(R66, R206). Addresses are unbounded integers, never reduced modulo 2^16 or 4096. -/
def accessible (base len : Nat) : Bool := len == 0 || decide (base + len - 1 < Config.memSize)

/-- The bytes at `base`, `base + 1`, … in ascending order (R63, R65). -/
def State.readBytes (s : State) (base : Nat) : Nat → List Byte
  | 0 => []
  | len + 1 => s.readByte base :: s.readBytes (base + 1) len

/-- Store bytes at `base`, `base + 1`, … in ascending order (R63, R65). -/
def State.writeBytes (s : State) (base : Nat) : List Byte → State
  | [] => s
  | b :: rest => (s.writeByte base b).writeBytes (base + 1) rest

/-- An instruction that accesses `len` bytes at `base`: `Fault(MemoryBounds)` before it changes any state when one of
them does not exist (R66, R206), else what it does. -/
def ifAccessible (base len : Nat) (effect : State) : Host.Outcome State Fault Refusal :=
  if accessible base len then .next effect else .fault .memoryBounds

/-! ### The call stack (R28) -/

/-- `sp`, the number of entries on the call stack (R11, R28). -/
def State.sp (s : State) : Nat := s.stack.length

/-- `stack[sp] <- a; sp <- sp + 1` (R28). -/
def State.push (s : State) (a : Word) : State := { s with stack := s.stack ++ [a] }

/-! ### The display (R30) -/

/-- `disp[r][c]` of a display buffer (R11, R30). -/
def Display.pixel (d : Display) (r : Row) (c : Col) : Bool := (d[r.val])[c.val]

/-- `disp[r][c]` (R11, R30). -/
def State.pixel (s : State) (r : Row) (c : Col) : Bool := Display.pixel s.disp r c

/-- `disp[r][c] <- disp[r][c] XOR 1` (R181). -/
def Display.flip (d : Display) (r : Row) (c : Col) : Display :=
  d.set r.val ((d[r.val]).set c.val (!(d[r.val])[c.val]))

/-- The display with every pixel off (R180). -/
def Display.blank : Display := Vector.replicate 32 (Vector.replicate 64 false)

/-- The display as the row-major sequence of 2048 pixels: pixel `(r, c)` is element `64 r + c` (R30). -/
def Display.linear (d : Display) : List Bool := (d.toList.map fun row => row.toList).flatten

/-! ### The key latch (R33) -/

/-- `key[k]` (R11, R245). -/
def State.key (s : State) (k : Key) : Bool := s.keys[k.val]

/-! ### Halting, and the way out of a halt (R221, R223, R260)

This machine has no exception that transfers control: its synchronous terminal conditions are the four halts. Halt
entry is ONE operation, and RESET, the only way out (R223, R261), stands beside it. -/

/-- `raise Halt(reason)`: `run <- Halted(reason)` and nothing else: no register, no memory byte, no pixel, no timer,
no stack entry, and `pc` keeps the address of the halting instruction (R13 (b), R221). -/
def State.halt (s : State) (reason : HaltReason) : State := { s with run := .halted reason }

/-- `RESET`: every field as R40 gives it, whatever the state was; the machine keeps its parameters, and the random
source goes on where it stood (R260, R261, R14). -/
def State.restart (s : State) : State := State.resetWith s.params s.draws

/-- The numeric code of the run state (R220, decision D15). -/
def RunState.code : RunState → Nat
  | .running => 0
  | .halted .loadError => 1
  | .halted .decodeHalt => 2
  | .halted .stackUnderflow => 3
  | .halted .stackOverflow => 4

/-! ### Fetch (R120 phases 1 and 2) -/

/-- `dirty <- 0`, phase 1 of STEP (R35, R120). -/
def State.clearDirty (s : State) : State := { s with dirty := false }

/-- A fetch at `pc` is possible: `pc + 1` is at most 4095 (R25, R66, R120). -/
def State.canFetch (s : State) : Bool := accessible s.pc.toNat 2

/-- `MemRead(pc, 2)`: the word at `pc`, the byte at the lower address the more significant (R12, R62, R120). -/
def State.fetchWord (s : State) : Word := wordOfBytes (s.readByte s.pc.toNat) (s.readByte (s.pc.toNat + 1))

end Sys2Proof.Machine
end

