-- ==== Sys2Proof/Machine/Flags.lean ====
section
/-! DEFINITION. Every computation of the flag register `VF` (spec/10_state.md R26, spec/42_load_alu.md R171, R173),
from the exact integers, and the one write of it. The collision flag of DRW comes from the blit (Operands.lean). -/

namespace Sys2Proof.Machine

/-- The value the flag register takes: exactly 0 or 1 (R26). -/
def flagByte (b : Bool) : Byte := if b then 0x01 else 0x00

/-- `VF <- 1 if b else 0`: the last register write of a flag-setting instruction (R21, R171). -/
def State.setFlag (s : State) (b : Bool) : State := s.setReg vf (flagByte b)

/-- The carry of ADD Vx,Vy: the unmasked sum exceeds 255 (R166, R173). -/
def carryOf (a b : Byte) : Bool := decide (a.toNat + b.toNat > 255)

/-- The not-borrow flag of `a - b`: the minuend is greater than or equal to the subtrahend (R167, R169, R173). -/
def notBorrowOf (a b : Byte) : Bool := decide (a.toNat ≥ b.toNat)

/-- The bit SHR shifts out: bit 0 before the shift (R168). -/
def lowBitOf (a : Byte) : Bool := a.getLsbD 0

/-- The bit SHL shifts out: bit 7 before the shift (R170). -/
def highBitOf (a : Byte) : Bool := a.getLsbD 7

end Sys2Proof.Machine
end

