-- ==== Sys2Proof/Machine/Operands.lean ====
section
/-! DEFINITION. Operand forms: immediates widened to 16 bits, the address `I + k`, register ranges, decimal digits,
glyph addresses, the pressed keys, and the sprite of DRW with its wrapped coordinates (spec/30_encoding.md R92,
spec/43_display.md R181 to R183, spec/44_keys_timers.md R190, spec/45_index_memory.md R202 to R206). -/

namespace Sys2Proof.Machine

/-- `zext_16(nnn)`: the 12-bit address, never scaled or sign-extended (R92). -/
def addrWord (nnn : Addr) : Word := nnn.setWidth 16

/-- `zext_16(V[r])` (R128, R201). -/
def byteWord (b : Byte) : Word := b.setWidth 16

/-- The one addressing mode: the effective address of byte `k` of an access is `I + k` (R206). -/
def State.indexAddr (s : State) (k : Nat) : Nat := s.i.toNat + k

/-- How many registers `V[0..x]` holds: `x + 1` (R204, R205). -/
def regCount (x : Reg) : Nat := x.val + 1

/-- `V[0] .. V[x]`, in order (R204). -/
def State.regsUpTo (s : State) (x : Reg) : List Byte := s.v.toList.take (regCount x)

/-- `V[i] <- mem[I + i]` for `i` in 0 to `x`, the registers above `x` untouched (R205). -/
def State.loadRegsUpTo (s : State) (x : Reg) : State :=
  { s with v := Vector.ofFn fun r : Reg => if r ≤ x then s.readByte (s.indexAddr r.val) else s.reg r }

/-- The three decimal digits of a byte: hundreds, tens, ones, one digit a byte (R203). -/
def decimalDigits (b : Byte) : List Byte :=
  [ BitVec.ofNat 8 (b.toNat / 100), BitVec.ofNat 8 (b.toNat / 10 % 10), BitVec.ofNat 8 (b.toNat % 10) ]

/-- The address of the glyph of digit `d`: `FONT_BASE + GLYPH_BYTES * d` (R202). -/
def glyphAddr (d : Byte) : Word := BitVec.ofNat 16 (Config.fontBase + Config.glyphBytes * d.toNat)

/-- The key numbered by a register, if there is one: the latch has keys 0 to 15 (R154, R155). -/
def keyOf (b : Byte) : Option Key := if h : b.toNat < 16 then some ⟨b.toNat, h⟩ else none

/-- The set `P` of pressed keys, in ascending order (R190). -/
def pressedKeys (keys : Vector Bool 16) : List Key := (List.finRange 16).filter fun k => keys[k.val]

/-- `KEY_SELECT(P)` for the implementation whose choice has the given rank: a member of `P`, or none when no key is
pressed. One pressed key leaves no choice; rank 0 is the default, the smallest member (R8, R190). -/
def pickKey (rank : Nat) : List Key → Option Key
  | [] => none
  | [k] => some k
  | k :: l :: rest => (k :: l :: rest)[rank % (rest.length + 2)]?

/-! ### The sprite of DRW -/

/-- `(y0 + row) mod 32` (R181, R182). -/
def wrapRow (y0 : Byte) (row : Nat) : Row := ⟨(y0.toNat + row) % 32, Nat.mod_lt _ (by decide)⟩

/-- `(x0 + col) mod 64` (R181, R182). -/
def wrapCol (x0 : Byte) (col : Nat) : Col := ⟨(x0.toNat + col) % 64, Nat.mod_lt _ (by decide)⟩

/-- Bit `col` of a sprite byte, the most significant first: `b[7 - col]` (R181, R182). -/
def spriteBit (b : Byte) (col : Nat) : Bool := b.getLsbD (7 - col)

/-- The running results of a blit (R181): the display, whether a set pixel was turned off (`VF`), and whether a pixel
changed. -/
structure Blit where
  disp : Display
  collision : Bool
  changed : Bool
  deriving DecidableEq, Repr

/-- One sprite bit that is 1: its pixel is flipped, and a set pixel turned off is a collision (R181, R183). -/
def Blit.xorPixel (b : Blit) (r : Row) (c : Col) : Blit :=
  { disp := Display.flip b.disp r c, collision := b.collision || Display.pixel b.disp r c, changed := true }

/-- The inner loop of DRW over the columns listed; a sprite bit 0 leaves its pixel as it is (R181). -/
def blitCols (x0 y0 : Byte) (row : Nat) (byte : Byte) : List Nat → Blit → Blit
  | [], acc => acc
  | col :: cols, acc =>
    blitCols x0 y0 row byte cols
      (if spriteBit byte col then acc.xorPixel (wrapRow y0 row) (wrapCol x0 col) else acc)

/-- The outer loop of DRW: the sprite bytes from row `row` on, each expanded into 8 pixels (R181, R182). -/
def blitRows (x0 y0 : Byte) : Nat → List Byte → Blit → Blit
  | _, [], acc => acc
  | row, byte :: rest, acc => blitRows x0 y0 (row + 1) rest (blitCols x0 y0 row byte (List.range 8) acc)

/-- The blit of a sprite at column `x0`, row `y0`, the collision and change flags starting clear (R181). -/
def blit (x0 y0 : Byte) (sprite : List Byte) (d : Display) : Blit :=
  blitRows x0 y0 0 sprite { disp := d, collision := false, changed := false }

end Sys2Proof.Machine
end

