-- ==== Sys2Proof/Machine/Control.lean ====
section
/-! DEFINITION. The control-transfer instructions and the Invalid word (spec/40_step_and_control.md R124 to R129). -/

namespace Sys2Proof.Machine

/-- `SYS nnn`: `raise Halt(DecodeHalt)`; `nnn` is unused (R98, R124). -/
def execSys (_nnn : Addr) (s : State) : Host.Outcome State Fault Refusal :=
  .next (s.halt .decodeHalt)

/-- The Invalid word: `raise Halt(DecodeHalt)` (R97, R129). -/
def execInvalid (s : State) : Host.Outcome State Fault Refusal :=
  .next (s.halt .decodeHalt)

/-- `RET`: pop the call stack into `pc`; `Halt(StackUnderflow)` on an empty one (R125). -/
def execRet (s : State) : Host.Outcome State Fault Refusal :=
  match s.stack.getLast? with
  | none => .next (s.halt .stackUnderflow)
  | some a => .next { s with stack := s.stack.dropLast, pc := a }

/-- `JP nnn`: `pc <- zext_16(nnn)` (R126). -/
def execJp (nnn : Addr) (s : State) : Host.Outcome State Fault Refusal :=
  .next { s with pc := addrWord nnn }

/-- `CALL nnn`: push the address after the CALL and jump; `Halt(StackOverflow)` on a full stack (R127). -/
def execCall (nnn : Addr) (s : State) : Host.Outcome State Fault Refusal :=
  if s.sp = s.params.stackDepth then .next (s.halt .stackOverflow)
  else .next { s.push (s.pc + 2) with pc := addrWord nnn }

/-- `JP V0,nnn`: `pc <- (zext_16(nnn) + zext_16(V[0])) mod 2^16`, `V[0]` unconditionally (R128, decision D9). -/
def execJpV0 (nnn : Addr) (s : State) : Host.Outcome State Fault Refusal :=
  .next { s with pc := addrWord nnn + byteWord (s.reg 0) }

end Sys2Proof.Machine
end

