-- ==== Sys2Proof/Machine/Display.lean ====
section
/-! DEFINITION. The display instructions (spec/43_display.md R180 to R184). -/

namespace Sys2Proof.Machine

/-- `CLS`: every pixel off, `dirty <- 1` even when every pixel was off already (R180). -/
def execCls (s : State) : Host.Outcome State Fault Refusal :=
  .next { s with disp := Display.blank, dirty := true }.advance

/-- What a blit leaves: the display, `VF` the collision flag, `dirty` set if a pixel changed and else as it was, and
the default advance (R181, R184). -/
def State.finishBlit (s : State) (b : Blit) : State :=
  { s.setFlag b.collision with disp := b.disp, dirty := s.dirty || b.changed }.advance

/-- `DRW Vx,Vy,n`: the XOR blit of the `n` sprite bytes at `I`. The coordinates are read before `VF` is written;
`Fault(MemoryBounds)` when the last sprite byte does not exist (R181, decisions D5 and D12). -/
def execDrw (x y : Reg) (n : BitVec 4) (s : State) : Host.Outcome State Fault Refusal :=
  ifAccessible (s.indexAddr 0) n.toNat
    (s.finishBlit (blit (s.reg x) (s.reg y) (s.readBytes (s.indexAddr 0) n.toNat) s.disp))

end Sys2Proof.Machine
end

