-- ==== Sys2Proof/Machine/IndexMemory.lean ====
section
/-! DEFINITION. The index-register and memory instructions (spec/45_index_memory.md R200 to R206). None that uses `I`
as an address changes it. -/

namespace Sys2Proof.Machine

/-- `LD I,nnn`: `I <- zext_16(nnn)` (R200). -/
def execLdI (nnn : Addr) (s : State) : Host.Outcome State Fault Refusal :=
  .next { s with i := addrWord nnn }.advance

/-- `ADD I,Vx`: `I <- (I + zext_16(V[x])) mod 2^16`, no flag (R201, decision D20). -/
def execAddI (x : Reg) (s : State) : Host.Outcome State Fault Refusal :=
  .next { s with i := s.i + byteWord (s.reg x) }.advance

/-- `LD F,Vx`: `I` to the glyph of the digit in the register; `Fault(GlyphIndex)` above 15, neither masked nor
multiplied (R202, decision D19). -/
def execLdF (x : Reg) (s : State) : Host.Outcome State Fault Refusal :=
  if (s.reg x).toNat > 15 then .fault .glyphIndex
  else .next { s with i := glyphAddr (s.reg x) }.advance

/-- `LD B,Vx`: the three decimal digits of the register to `mem[I .. I+2]`, hundreds first (R203). -/
def execLdB (x : Reg) (s : State) : Host.Outcome State Fault Refusal :=
  ifAccessible (s.indexAddr 0) 3 (s.writeBytes (s.indexAddr 0) (decimalDigits (s.reg x))).advance

/-- `LD [I],Vx`: `V[0]` to `V[x]` to `mem[I .. I+x]` (R204). -/
def execDumpRegs (x : Reg) (s : State) : Host.Outcome State Fault Refusal :=
  ifAccessible (s.indexAddr 0) (regCount x) (s.writeBytes (s.indexAddr 0) (s.regsUpTo x)).advance

/-- `LD Vx,[I]`: `V[0]` to `V[x]` from `mem[I .. I+x]` (R205). -/
def execLoadRegs (x : Reg) (s : State) : Host.Outcome State Fault Refusal :=
  ifAccessible (s.indexAddr 0) (regCount x) (s.loadRegsUpTo x).advance

end Sys2Proof.Machine
end

