-- ==== Sys2Proof/Machine/LoadAlu.lean ====
section
/-! DEFINITION. Register load, arithmetic, logic, shift and random instructions (spec/42_load_alu.md R160 to R173).
Every one reads its sources, then writes `V[x]`, then, if it sets the flag, writes `VF` last (R171), and advances. -/

namespace Sys2Proof.Machine

/-- `V[x] <- result; pc <- pc + 2`: the instructions without a flag effect (R171). -/
def State.putResult (s : State) (x : Reg) (result : Byte) : State := (s.setReg x result).advance

/-- `V[x] <- result; VF <- flag; pc <- pc + 2`: the flag write comes last, so it wins when `x = 15` (R171). -/
def State.putResultAndFlag (s : State) (x : Reg) (result : Byte) (flag : Bool) : State :=
  ((s.setReg x result).setFlag flag).advance

/-- `LD Vx,nn`: `V[x] <- nn` (R160). -/
def execLdImm (x : Reg) (nn : Byte) (s : State) : Host.Outcome State Fault Refusal :=
  .next (s.putResult x nn)

/-- `ADD Vx,nn`: `V[x] <- (V[x] + nn) mod 256`, no carry recorded (R161). -/
def execAddImm (x : Reg) (nn : Byte) (s : State) : Host.Outcome State Fault Refusal :=
  .next (s.putResult x (s.reg x + nn))

/-- `LD Vx,Vy`: `V[x] <- V[y]` (R162). -/
def execLdReg (x y : Reg) (s : State) : Host.Outcome State Fault Refusal :=
  .next (s.putResult x (s.reg y))

/-- `OR Vx,Vy`: `V[x] <- V[x] OR V[y]`, no flag effect (R163). -/
def execOrReg (x y : Reg) (s : State) : Host.Outcome State Fault Refusal :=
  .next (s.putResult x (s.reg x ||| s.reg y))

/-- `AND Vx,Vy`: `V[x] <- V[x] AND V[y]`, no flag effect (R164). -/
def execAndReg (x y : Reg) (s : State) : Host.Outcome State Fault Refusal :=
  .next (s.putResult x (s.reg x &&& s.reg y))

/-- `XOR Vx,Vy`: `V[x] <- V[x] XOR V[y]`, no flag effect (R165). -/
def execXorReg (x y : Reg) (s : State) : Host.Outcome State Fault Refusal :=
  .next (s.putResult x (s.reg x ^^^ s.reg y))

/-- `ADD Vx,Vy`: the sum modulo 256, `VF` the carry (R166). -/
def execAddReg (x y : Reg) (s : State) : Host.Outcome State Fault Refusal :=
  .next (s.putResultAndFlag x (s.reg x + s.reg y) (carryOf (s.reg x) (s.reg y)))

/-- `SUB Vx,Vy`: `V[x] - V[y]` modulo 256, `VF` the not-borrow flag (R167). -/
def execSubReg (x y : Reg) (s : State) : Host.Outcome State Fault Refusal :=
  .next (s.putResultAndFlag x (s.reg x - s.reg y) (notBorrowOf (s.reg x) (s.reg y)))

/-- `SHR Vx`: `V[x]` shifted right by one in place, `VF` the bit shifted out; `y` ignored (R168, decision D10). -/
def execShr (x _y : Reg) (s : State) : Host.Outcome State Fault Refusal :=
  .next (s.putResultAndFlag x (s.reg x >>> 1) (lowBitOf (s.reg x)))

/-- `SUBN Vx,Vy`: `V[y] - V[x]` modulo 256, `VF` the not-borrow flag of that difference (R169). -/
def execSubnReg (x y : Reg) (s : State) : Host.Outcome State Fault Refusal :=
  .next (s.putResultAndFlag x (s.reg y - s.reg x) (notBorrowOf (s.reg y) (s.reg x)))

/-- `SHL Vx`: `V[x]` shifted left by one in place, `VF` the bit shifted out; `y` ignored (R170, decision D10). -/
def execShl (x _y : Reg) (s : State) : Host.Outcome State Fault Refusal :=
  .next (s.putResultAndFlag x (s.reg x <<< 1) (highBitOf (s.reg x)))

/-- RND with the draw as its input: `V[x] <- draw AND nn`; the machine has then taken one more draw (R14, R172). -/
def State.rndWith (s : State) (draw : Byte) (x : Reg) (nn : Byte) : State :=
  { s.putResult x (draw &&& nn) with draws := s.draws + 1 }

/-- `RND Vx,nn`: `V[x] <- draw8() AND nn`, the draw a free value (R172, decision D22). -/
def execRnd (x : Reg) (nn : Byte) (s : State) : Host.Outcome State Fault Refusal :=
  .next (s.rndWith (Config.draw s.draws) x nn)

end Sys2Proof.Machine
end

