-- ==== Sys2Proof/Machine/KeysTimers.lean ====
section
/-! DEFINITION. The key-wait and timer instructions (spec/44_keys_timers.md R190 to R193). -/

namespace Sys2Proof.Machine

/-- LD Vx,K with the rank of the implementation's choice as its input: with no key pressed nothing is written and
`pc` stays, so that the next STEP evaluates the same instruction again; else the chosen key's number goes to `V[x]`
and `pc` advances (R190). -/
def State.waitKeyWith (s : State) (rank : Nat) (x : Reg) : State :=
  match pickKey rank (pressedKeys s.keys) with
  | none => s
  | some k => s.putResult x (BitVec.ofNat 8 k.val)

/-- `LD Vx,K`: wait for a key; which of several pressed keys is reported is a free value (R190, decision D17). -/
def execLdVxK (x : Reg) (s : State) : Host.Outcome State Fault Refusal :=
  .next (s.waitKeyWith (Config.keyRank s.keys) x)

/-- `LD Vx,DT`: `V[x] <- DT` (R191). -/
def execLdVxDt (x : Reg) (s : State) : Host.Outcome State Fault Refusal :=
  .next (s.putResult x s.dt)

/-- `LD DT,Vx`: `DT <- V[x]` (R192). -/
def execLdDtVx (x : Reg) (s : State) : Host.Outcome State Fault Refusal :=
  .next { s with dt := s.reg x }.advance

/-- `LD ST,Vx`: `ST <- V[x]`; no beep (R193). -/
def execLdStVx (x : Reg) (s : State) : Host.Outcome State Fault Refusal :=
  .next { s with st := s.reg x }.advance

end Sys2Proof.Machine
end

