-- ==== Sys2Proof/Machine/Skips.lean ====
section
/-! DEFINITION. The six skip instructions (spec/41_skips.md R150 to R156). None of them writes a flag. -/

namespace Sys2Proof.Machine

/-- `SE Vx,nn`: skip if the register equals the immediate (R150). -/
def execSeImm (x : Reg) (nn : Byte) (s : State) : Host.Outcome State Fault Refusal :=
  .next (s.skipIf (s.reg x == nn))

/-- `SNE Vx,nn`: skip if the register differs from the immediate (R151). -/
def execSneImm (x : Reg) (nn : Byte) (s : State) : Host.Outcome State Fault Refusal :=
  .next (s.skipIf (s.reg x != nn))

/-- `SE Vx,Vy`: skip if the two registers are equal (R152). -/
def execSeReg (x y : Reg) (s : State) : Host.Outcome State Fault Refusal :=
  .next (s.skipIf (s.reg x == s.reg y))

/-- `SNE Vx,Vy`: skip if the two registers differ (R153). -/
def execSneReg (x y : Reg) (s : State) : Host.Outcome State Fault Refusal :=
  .next (s.skipIf (s.reg x != s.reg y))

/-- `SKP Vx`: skip if the key numbered by the register is pressed; `Fault(KeyIndex)` when there is no such key, with
no masking to 4 bits (R154, decision D18). -/
def execSkp (x : Reg) (s : State) : Host.Outcome State Fault Refusal :=
  match keyOf (s.reg x) with
  | some k => .next (s.skipIf (s.key k))
  | none => .fault .keyIndex

/-- `SKNP Vx`: skip if the key numbered by the register is not pressed; `Fault(KeyIndex)` as SKP (R155). -/
def execSknp (x : Reg) (s : State) : Host.Outcome State Fault Refusal :=
  match keyOf (s.reg x) with
  | some k => .next (s.skipIf (!s.key k))
  | none => .fault .keyIndex

end Sys2Proof.Machine
end

