-- ==== Sys2Proof/Machine/Step.lean ====
section
/-! DEFINITION. The STEP transaction (spec/40_step_and_control.md R120, R121), and the host's way of putting an
instruction where STEP fetches. -/

namespace Sys2Proof.Machine

/-- `STEP`: a halted machine changes no state at all (phase 0, R121); else `dirty <- 0` (phase 1), the fetch, which
faults when a byte of the word does not exist (phase 2), the decode (phase 3) and the execute phase (phase 4). What
STEP returns to the driver, `Running` or `Halted(reason)` (phase 5), is `run` of the next state. -/
def step (s : State) : Host.Outcome State Fault Refusal :=
  match s.run with
  | .halted _ => .next s
  | .running =>
    let s₁ := s.clearDirty
    if s₁.canFetch then
      match decode s₁.fetchWord with
      | .ok i => exec i s₁
      | .error _ => execInvalid s₁
    else .fault .memoryBounds

/-- The state with the instruction word `w` stored, as its two bytes, where the next STEP fetches. What that fetch
needs is set too: the machine runs, and a `pc` no word can be fetched from is put at `PROG_BASE`. From `State.reset`
nothing but the two bytes changes; there it stands for the driver's LOAD (R265, assumption log 5). -/
def State.withFetchWord (s : State) (nbits w : Nat) : State :=
  let word := BitVec.ofNat 16 (w % 2 ^ nbits)
  let ready := { s with run := .running, pc := if s.canFetch then s.pc else BitVec.ofNat 16 Config.progBase }
  ready.writeBytes ready.pc.toNat [highByte word, lowByte word]

end Sys2Proof.Machine
end

