-- ==== Sys2Proof/Machine/Transactions.lean ====
section
/-! DEFINITION. The six transactions by which the driver reaches the core (spec/10_state.md R50 to R53,
spec/60_exceptions.md R225, R226, R240 to R246, spec/70_reset_and_hazards.md R260 to R268): RESET, LOAD, STEP, TICK,
SET_KEY and FB_READ, each atomic, issued by the driver in any order and any number (R51). -/

namespace Sys2Proof.Machine

/-! ### What each transaction does to a running or halted machine -/

/-- `LOAD(bytes)`, and whether it succeeded: the bytes verbatim from `PROG_BASE` on and nothing else; more than
`PROG_MAX` bytes write no memory byte and latch `Halted(LoadError)` (R222, R265, R266). -/
def State.load (s : State) (bytes : List Byte) : State × Bool :=
  if bytes.length ≤ Config.progMax then (s.writeBytes Config.progBase bytes, true)
  else (s.halt .loadError, false)

/-- A timer after a tick: one less, floored at 0 (R240, R241). -/
def tickTimer (t : Byte) : Byte := if t.toNat > 0 then t - 1 else t

/-- `TICK`, and its result `beep`: both timers count down, and the beep is the transition of `ST` from 1 to 0
(R240, R242). -/
def State.tick (s : State) : State × Bool :=
  ({ s with dt := tickTimer s.dt, st := tickTimer s.st }, s.st == 1)

/-- `SET_KEY(k, pressed)`: `key[k] <- pressed` (R245). -/
def State.setKey (s : State) (k : Key) (pressed : Bool) : State := { s with keys := s.keys.set k.val pressed }

/-- `FB_READ`: the display and `dirty`; it changes nothing (R52). -/
def State.readFrame (s : State) : Display × Bool := (s.disp, s.dirty)

/-! ### The machine as the driver sees it -/

/-- A transaction and its arguments (R50). A key number above 15 is outside the interface (R245): `Key` has none. -/
inductive Transaction where
  | reset
  | load (bytes : List Byte)
  | step
  | tick
  | setKey (k : Key) (pressed : Bool)
  | readFrame
  deriving DecidableEq, Repr

/-- What a transaction returns to the driver (R50). -/
inductive Reply where
  /-- RESET and SET_KEY return nothing. -/
  | done
  /-- LOAD: ok. -/
  | loaded
  /-- LOAD: `LoadError` (R266). -/
  | loadError
  /-- STEP: `Running`, or `Halted(reason)` (R120). -/
  | ran (run : RunState)
  /-- STEP: the spec's own outcome `Fault(kind)` (R226). -/
  | faulted (fault : Fault)
  /-- STEP: the model gives the instruction no meaning. -/
  | refused (refusal : Refusal)
  /-- TICK: whether to emit one beep (R242). -/
  | beep (on : Bool)
  /-- FB_READ: the pixel grid and the dirty flag (R52). -/
  | frame (disp : Display) (dirty : Bool)
  /-- The machine has faulted and this is not RESET: the spec gives the transaction no meaning (R226). -/
  | noMeaning
  deriving DecidableEq, Repr

/-- A machine between two transactions. -/
inductive Condition where
  /-- It has a state, running or halted. -/
  | ready (s : State)
  /-- It has faulted: the spec defines no state, and only RESET has a meaning (R226). What a RESET keeps is kept. -/
  | faulted (fault : Fault) (params : Params) (draws : Nat)
  /-- The model gave an instruction no meaning. -/
  | refused (refusal : Refusal) (params : Params) (draws : Nat)
  deriving DecidableEq, Repr

/-- The machine after RESET, accepted in every condition: running, halted, faulted (R261). -/
def Condition.restart : Condition → State
  | .ready s => s.restart
  | .faulted _ params draws => State.resetWith params draws
  | .refused _ params draws => State.resetWith params draws

/-- STEP of a machine that has a state, with what it returns (R50, R120). -/
def State.stepTransaction (s : State) : Condition × Reply :=
  match step s with
  | .next t => (.ready t, .ran t.run)
  | .fault f => (.faulted f s.params s.draws, .faulted f)
  | .refused r => (.refused r s.params s.draws, .refused r)

/-- A transaction other than RESET on a machine that has a state. RESET stands here as `Condition.transact` has it, so
that the match is whole. -/
def State.transact (s : State) : Transaction → Condition × Reply
  | .reset => (.ready s.restart, .done)
  | .load bytes => (.ready (s.load bytes).1, if (s.load bytes).2 then .loaded else .loadError)
  | .step => s.stepTransaction
  | .tick => (.ready s.tick.1, .beep s.tick.2)
  | .setKey k pressed => (.ready (s.setKey k pressed), .done)
  | .readFrame => (.ready s, .frame s.readFrame.1 s.readFrame.2)

/-- One transaction: the next condition and the reply. A faulted machine takes RESET only, and is else left as it
stands: a fault is never cleared by a later step (R226, R261). -/
def Condition.transact (c : Condition) (t : Transaction) : Condition × Reply :=
  match t, c with
  | .reset, c => (.ready c.restart, .done)
  | t, .ready s => s.transact t
  | _, c => (c, .noMeaning)

/-- The machine after a sequence of transactions, in the driver's order: any interleaving is a run (R51, R68). -/
def Condition.after (c : Condition) : List Transaction → Condition
  | [] => c
  | t :: ts => (c.transact t).1.after ts

/-- What the driver is told along the way. -/
def Condition.replies (c : Condition) : List Transaction → List Reply
  | [] => []
  | t :: ts => (c.transact t).2 :: (c.transact t).1.replies ts

/-- The machine the driver meets first: power-up is a RESET, and there is no state before it (R261). -/
def Condition.powerUp : Condition := .ready State.reset

end Sys2Proof.Machine
end

