-- ==== Sys2Proof/Safety.lean ====
section
/-! DEFINITION. The terms claims about the machine are stated in: the parts of the state and what it is to leave them
unchanged, the tables of the spec that say which instruction reads, writes and faults on what, the invariant of the
machine, the boot order, and what a safe run is. Nothing here is used by the machine. -/

namespace Sys2Proof.Machine

/-! ### Parts of the state, and frames -/

/-- Every piece of state, named as a statement about what is unchanged names it. Together the parts are the whole
state (`Obligations.PartsCoverState`). -/
inductive Part where
  /-- `V[r]`. -/
  | reg (r : Reg)
  /-- `I`. -/
  | index
  | pc
  /-- The call stack, its entries and its depth `sp`. -/
  | stack
  /-- The byte of memory at address `a`. -/
  | byte (a : Nat)
  /-- `disp[r][c]`. -/
  | pixel (r : Row) (c : Col)
  | dirty
  /-- `DT`. -/
  | delay
  /-- `ST`. -/
  | sound
  /-- `key[k]`. -/
  | key (k : Key)
  | run
  /-- The parameters the machine was built with. -/
  | params
  /-- The number of draws taken from the random source. -/
  | draws
  deriving DecidableEq, Repr

/-- The part is the same in both states. -/
def Part.same : Part → State → State → Prop
  | .reg r, s, t => t.reg r = s.reg r
  | .index, s, t => t.i = s.i
  | .pc, s, t => t.pc = s.pc
  | .stack, s, t => t.stack = s.stack
  | .byte a, s, t => t.readByte a = s.readByte a
  | .pixel r c, s, t => t.pixel r c = s.pixel r c
  | .dirty, s, t => t.dirty = s.dirty
  | .delay, s, t => t.dt = s.dt
  | .sound, s, t => t.st = s.st
  | .key k, s, t => t.key k = s.key k
  | .run, s, t => t.run = s.run
  | .params, s, t => t.params = s.params
  | .draws, s, t => t.draws = s.draws

/-- From `s` to `t`, every part of the state is unchanged but those `written`. -/
def SameExcept (written : Part → Prop) (s t : State) : Prop := ∀ p, ¬ written p → p.same s t

/-- What an outcome is after its next state is changed; a stop stays that stop. -/
def mapNext (f : State → State) : Host.Outcome State Fault Refusal → Host.Outcome State Fault Refusal
  | .next t => .next (f t)
  | .fault e => .fault e
  | .refused e => .refused e

/-! ### The sprite of DRW -/

/-- The sprite of `n` bytes at `I`, put with its corner at column `x0`, row `y0`, has a 1 bit on pixel `(r, c)`:
byte `row` is sprite row `row`, its most significant bit the leftmost, and both coordinates wrap (R182). -/
def State.spriteCovers (s : State) (x0 y0 : Byte) (n : Nat) (r : Row) (c : Col) : Prop :=
  ∃ row < n, ∃ col < 8, (s.readByte (s.i.toNat + row)).getLsbD (7 - col) = true ∧
    r.val = (y0.toNat + row) % 32 ∧ c.val = (x0.toNat + col) % 64

end Sys2Proof.Machine

namespace Sys2Proof

open Machine

/-! ### Tables of the spec, for statements over all instructions -/

/-- The value of `pc` each instruction leaves when it gives a next state (the table of R24). -/
def Instr.pcAfter (i : Instr) (s : State) : Word :=
  match i with
  | .jp nnn => nnn.setWidth 16
  | .jpV0 nnn => nnn.setWidth 16 + (s.reg 0).setWidth 16
  | .call nnn => if s.stack.length = s.params.stackDepth then s.pc else nnn.setWidth 16
  | .ret => s.stack.getLast?.getD s.pc
  | .seImm x nn => if s.reg x = nn then s.pc + 4 else s.pc + 2
  | .sneImm x nn => if s.reg x ≠ nn then s.pc + 4 else s.pc + 2
  | .seReg x y => if s.reg x = s.reg y then s.pc + 4 else s.pc + 2
  | .sneReg x y => if s.reg x ≠ s.reg y then s.pc + 4 else s.pc + 2
  | .skp x => if ∃ k : Key, k.val = (s.reg x).toNat ∧ s.key k = true then s.pc + 4 else s.pc + 2
  | .sknp x => if ∃ k : Key, k.val = (s.reg x).toNat ∧ s.key k = false then s.pc + 4 else s.pc + 2
  | .ldVxK _ => if ∃ k : Key, s.key k = true then s.pc + 2 else s.pc
  | .sys _ => s.pc
  | .cls | .ldImm _ _ | .addImm _ _ | .ldReg _ _ | .orReg _ _ | .andReg _ _ | .xorReg _ _ | .addReg _ _
  | .subReg _ _ | .shr _ _ | .subnReg _ _ | .shl _ _ | .ldI _ | .rnd _ _ | .drw _ _ _ | .ldVxDt _ | .ldDtVx _
  | .ldStVx _ | .addI _ | .ldF _ | .ldB _ | .dumpRegs _ | .loadRegs _ => s.pc + 2

/-- Which instructions may write which general register (R22). -/
def Instr.writesReg (i : Instr) (r : Reg) : Prop :=
  match i with
  | .ldImm x _ | .addImm x _ | .ldReg x _ | .orReg x _ | .andReg x _ | .xorReg x _ | .rnd x _ | .ldVxDt x
  | .ldVxK x => r = x
  | .addReg x _ | .subReg x _ | .shr x _ | .subnReg x _ | .shl x _ => r = x ∨ r = vf
  | .drw _ _ _ => r = vf
  | .loadRegs x => r ≤ x
  | .sys _ | .cls | .ret | .jp _ | .call _ | .seImm _ _ | .sneImm _ _ | .seReg _ _ | .sneReg _ _ | .ldI _ | .jpV0 _
  | .skp _ | .sknp _ | .ldDtVx _ | .ldStVx _ | .addI _ | .ldF _ | .ldB _ | .dumpRegs _ => False

/-- Which instructions read which general register (R22). -/
def Instr.readsReg (i : Instr) (r : Reg) : Prop :=
  match i with
  | .seImm x _ | .sneImm x _ | .addImm x _ | .shr x _ | .shl x _ | .skp x | .sknp x | .ldDtVx x | .ldStVx x
  | .addI x | .ldF x | .ldB x => r = x
  | .seReg x y | .sneReg x y | .orReg x y | .andReg x y | .xorReg x y | .addReg x y | .subReg x y | .subnReg x y
  | .drw x y _ => r = x ∨ r = y
  | .ldReg _ y => r = y
  | .jpV0 _ => r = 0
  | .dumpRegs x => r ≤ x
  | .sys _ | .cls | .ret | .jp _ | .call _ | .ldImm _ _ | .ldI _ | .rnd _ _ | .ldVxDt _ | .ldVxK _
  | .loadRegs _ => False

/-- Which part of the state each instruction executed in state `s` may write, beside the general registers and `pc`:
`I` (R27); the stack (R28); of memory the three bytes at `I` by LD B,Vx and the `x + 1` bytes at `I` by LD [I],Vx
(R29, R203, R204, R206); every pixel by CLS and the pixels under the sprite by DRW (R30, R181); `DT`, `ST` and the flag
`dirty` (R31, R35); `run` (R31, R220); the model's draw counter. No instruction writes the key latch (R33) or the
parameters (R37). -/
def Instr.writesOther (i : Instr) (s : State) (p : Part) : Prop :=
  match i with
  | .sys _ => p = .run
  | .ret => p = .stack ∨ p = .run
  | .call _ => p = .stack ∨ p = .run
  | .cls => p = .dirty ∨ ∃ r c, p = .pixel r c
  | .drw x y n => p = .dirty ∨ ∃ r c, s.spriteCovers (s.reg x) (s.reg y) n.toNat r c ∧ p = .pixel r c
  | .ldI _ => p = .index
  | .addI _ => p = .index
  | .ldF _ => p = .index
  | .ldB _ => ∃ k < 3, p = .byte (s.indexAddr k)
  | .dumpRegs x => ∃ k ≤ x.val, p = .byte (s.indexAddr k)
  | .ldDtVx _ => p = .delay
  | .ldStVx _ => p = .sound
  | .rnd _ _ => p = .draws
  | .jp _ | .seImm _ _ | .sneImm _ _ | .seReg _ _ | .ldImm _ _ | .addImm _ _ | .ldReg _ _ | .orReg _ _ | .andReg _ _
  | .xorReg _ _ | .addReg _ _ | .subReg _ _ | .shr _ _ | .subnReg _ _ | .shl _ _ | .sneReg _ _ | .jpV0 _ | .skp _
  | .sknp _ | .ldVxDt _ | .ldVxK _ | .loadRegs _ => False

/-- When the execute phase of an instruction raises which fault (the table of R226). -/
def Instr.faultsWith (i : Instr) (s : State) (f : Fault) : Prop :=
  match i with
  | .drw _ _ n => f = .memoryBounds ∧ n.toNat ≥ 1 ∧ s.i.toNat + n.toNat - 1 > 4095
  | .ldB _ => f = .memoryBounds ∧ s.i.toNat + 2 > 4095
  | .dumpRegs x => f = .memoryBounds ∧ s.i.toNat + x.val > 4095
  | .loadRegs x => f = .memoryBounds ∧ s.i.toNat + x.val > 4095
  | .skp x => f = .keyIndex ∧ (s.reg x).toNat > 15
  | .sknp x => f = .keyIndex ∧ (s.reg x).toNat > 15
  | .ldF x => f = .glyphIndex ∧ (s.reg x).toNat > 15
  | .sys _ | .cls | .ret | .jp _ | .call _ | .seImm _ _ | .sneImm _ _ | .seReg _ _ | .ldImm _ _ | .addImm _ _
  | .ldReg _ _ | .orReg _ _ | .andReg _ _ | .xorReg _ _ | .addReg _ _ | .subReg _ _ | .shr _ _ | .subnReg _ _
  | .shl _ _ | .sneReg _ _ | .ldI _ | .jpV0 _ | .rnd _ _ | .ldVxDt _ | .ldVxK _ | .ldDtVx _ | .ldStVx _
  | .addI _ => False

/-- When the execute phase of an instruction halts, and with which reason (the table of R220). -/
def Instr.haltsWith (i : Instr) (s : State) (r : HaltReason) : Prop :=
  match i with
  | .sys _ => r = .decodeHalt
  | .ret => r = .stackUnderflow ∧ s.stack.length = 0
  | .call _ => r = .stackOverflow ∧ s.stack.length = s.params.stackDepth
  | .cls | .jp _ | .seImm _ _ | .sneImm _ _ | .seReg _ _ | .ldImm _ _ | .addImm _ _ | .ldReg _ _ | .orReg _ _
  | .andReg _ _ | .xorReg _ _ | .addReg _ _ | .subReg _ _ | .shr _ _ | .subnReg _ _ | .shl _ _ | .sneReg _ _
  | .ldI _ | .jpV0 _ | .rnd _ _ | .drw _ _ _ | .skp _ | .sknp _ | .ldVxDt _ | .ldVxK _ | .ldDtVx _ | .ldStVx _
  | .addI _ | .ldF _ | .ldB _ | .dumpRegs _ | .loadRegs _ => False

/-! ### Two executions compared

A statement that compares two executions must say what they are given alike. The spec leaves two inputs of an
instruction open: the random byte of RND (R14) and the choice among the pressed keys of LD Vx,K (R190). -/

/-- The execute phase with its two open inputs as arguments: `draw`, the byte the random source gives, and `rank`, the
choice of KEY_SELECT. `exec` is this at the model's free values (assumption log 3 and 4), which
`Obligations.RegistersReadAndWrittenAsListed` says. -/
def Instr.execWith (i : Instr) (draw : Byte) (rank : Nat) (s : State) : Host.Outcome State Fault Refusal :=
  match i with
  | .rnd x nn => .next (s.rndWith draw x nn)
  | .ldVxK x => .next (s.waitKeyWith rank x)
  | .sys _ | .cls | .ret | .jp _ | .call _ | .seImm _ _ | .sneImm _ _ | .seReg _ _ | .ldImm _ _ | .addImm _ _
  | .ldReg _ _ | .orReg _ _ | .andReg _ _ | .xorReg _ _ | .addReg _ _ | .subReg _ _ | .shr _ _ | .subnReg _ _
  | .shl _ _ | .sneReg _ _ | .ldI _ | .jpV0 _ | .drw _ _ _ | .skp _ | .sknp _ | .ldVxDt _ | .ldDtVx _ | .ldStVx _
  | .addI _ | .ldF _ | .ldB _ | .dumpRegs _ | .loadRegs _ => exec i s

/-- What the instruction does has nothing to do with what register `r` holds: given the same draw and the same choice
of key, with any other value `b` in `r` it ends the same way, every part of the state but `r` comes out the same, and
`r` itself is either written with the same value or left alone in both. -/
def Instr.ignoresReg (i : Instr) (r : Reg) : Prop :=
  ∀ (draw : Byte) (rank : Nat) (s : State) (b : Byte),
    (∀ t, i.execWith draw rank s = .next t →
      ∃ u, i.execWith draw rank (s.setReg r b) = .next u ∧ SameExcept (fun p => p = .reg r) t u ∧
        (u.reg r = t.reg r ∨ (t.reg r = s.reg r ∧ u.reg r = b))) ∧
    (∀ f, i.execWith draw rank s = .fault f → i.execWith draw rank (s.setReg r b) = .fault f)

end Sys2Proof

namespace Sys2Proof.Machine

/-! ### The invariant -/

/-- The call stack is within its depth, and each entry is the address after a CALL that could be fetched: 0x0002 to
0x1000 (R28, R127). -/
abbrev State.stackOk (s : State) : Prop :=
  s.stack.length ≤ s.params.stackDepth ∧ ∀ a ∈ s.stack, 0x0002 ≤ a.toNat ∧ a.toNat ≤ 0x1000

/-- What every machine that has been reset keeps to: memory in its canonical form, the stack within its depth, and
`pc` in the range the instructions can give it (R24: at most 0xFFF + 0xFF). -/
abbrev State.Inv (s : State) : Prop :=
  Memory.wf s.params.font s.mem ∧ s.stackOk ∧ s.pc.toNat ≤ 0x10FE

/-- The invariant of a machine between two transactions: of its state, if it has one. -/
def Condition.Inv : Condition → Prop
  | .ready s => s.Inv
  | .faulted _ _ _ => True
  | .refused _ _ _ => True

/-! ### Boot order and safe runs -/

/-- A transaction a driver may issue once the program runs (R268). -/
def Transaction.afterBoot : Transaction → Bool
  | .reset => false
  | .load _ => false
  | .step => true
  | .tick => true
  | .setKey _ _ => true
  | .readFrame => true

/-- The order the driver must keep to: RESET, one LOAD that succeeds, then STEP, TICK, SET_KEY and FB_READ in any
order (R268). -/
def bootOrder : List Transaction → Bool
  | .reset :: .load bytes :: rest => decide (bytes.length ≤ Config.progMax) && rest.all Transaction.afterBoot
  | _ => false

/-- The machine has a state: it has neither faulted nor been refused. -/
def Condition.hasState : Condition → Bool
  | .ready _ => true
  | .faulted _ _ _ => false
  | .refused _ _ _ => false

/-- A safe run: at no point of the sequence has the machine faulted (R226: a fault is a bad outcome, never a final
state). A halt is no fault: it is how a program ends (R270). -/
def SafeRun (c : Condition) (ts : List Transaction) : Prop := ∀ k, (c.after (ts.take k)).hasState = true

/-- A run has ended: a STEP has halted the machine or faulted (R270). -/
def Condition.ended : Condition → Bool
  | .ready s => s.run != .running
  | .faulted _ _ _ => true
  | .refused _ _ _ => true

end Sys2Proof.Machine
end

