-- ==== Sys2Proof/Certificates/Slice0/Obligations.lean ====
section
/-! DEFINITION. The statements for the provers, in the order of OBLIGATIONS.json. Each docstring names the rules of
spec/ it formalises. A frame is written `SameExcept (fun p => …) s t`: from `s` to `t` every part of the state is
unchanged but those named; memory is one part for each address, the display one for each pixel. -/

open Sys2Proof Sys2Proof.Machine

/-! ### Encoding -/

/-- Decoding the word of a well-formed instruction gives the instruction back, for all 35 instructions and every
value of their fields (R90, R93, R96). The spec marks as its own in this: D8 (log 10) and G1, G9 (log 11). -/
def Obligations.DecodeInvertsEncode : Prop :=
  ∀ i : Instr, i.wf = true → decode (encode i) = .ok i

/-- A word that decodes to an instruction is the word of that instruction, and the instruction is well-formed: no
bit of a word is dropped, the ignored field of SHR and SHL among them (R90, R93, R99). The spec marks as its own in
this: D8 (log 10) and G1, G9 (log 11). -/
def Obligations.EncodeInvertsDecode : Prop :=
  ∀ (w : Word) (i : Instr), decode w = .ok i → i.wf = true ∧ encode i = w

/-- The words that decode to no instruction are exactly the five sets of R97, in the arithmetic of the word (family
`w / 4096`, low nibble `w % 16`, low byte `w % 256`), 17488 of the 65536; executing Invalid halts with `DecodeHalt`
(R97). The spec marks as its own in this: D8 (log 10) and G1 (log 11). -/
def Obligations.InvalidWordsAreExactlyTheFiveSets : Prop :=
  (∀ w : Word, (∃ e, decode w = .error e) ↔
    (w.toNat / 4096 = 0x5 ∧ w.toNat % 16 ≠ 0) ∨
    (w.toNat / 4096 = 0x9 ∧ w.toNat % 16 ≠ 0) ∨
    (w.toNat / 4096 = 0x8 ∧ w.toNat % 16 ∈ [0x8, 0x9, 0xA, 0xB, 0xC, 0xD, 0xF]) ∨
    (w.toNat / 4096 = 0xE ∧ w.toNat % 256 ∉ [0x9E, 0xA1]) ∨
    (w.toNat / 4096 = 0xF ∧ w.toNat % 256 ∉ [0x07, 0x0A, 0x15, 0x18, 0x1E, 0x29, 0x33, 0x55, 0x65])) ∧
  ((List.range 65536).countP fun k => (decode (BitVec.ofNat 16 k)).toBool == false) = 17488 ∧
  ∀ s : State, ∃ t, execInvalid s = .next t ∧ t.run = .halted .decodeHalt

/-- The decode function of R93 and the decoder built from the table of R96 are the same function; rows 2 and 3 (CLS
and RET) apart, no word fits two rows; a word that fits no row is Invalid (R96). The spec marks as its own in this:
D8 (log 10) and G1 (log 11). -/
def Obligations.DecoderAgreesWithOpcodeTable : Prop :=
  (∀ w : Word, decodeByTable w = (decode w).toOption) ∧
  ∀ w : Word, ((opcodeTable.drop 2).filter fun r => r.fits w).length ≤ 1

/-- Words written out from R93 and R95, at least one of each of the families 0 to F, decode to the instructions they
stand for. The spec marks as its own in this: D7, D8 (log 10) and G1, G9 (log 11). -/
def Obligations.SampleWordsDecode : Prop :=
  decode 0x00E0#16 = .ok .cls ∧ decode 0x00EE#16 = .ok .ret ∧ decode 0x01E0#16 = .ok (.sys 0x1E0) ∧
  decode 0x1ABC#16 = .ok (.jp 0xABC) ∧ decode 0x2DEF#16 = .ok (.call 0xDEF) ∧
  decode 0x332A#16 = .ok (.seImm 3 0x2A) ∧ decode 0x4C7F#16 = .ok (.sneImm 12 0x7F) ∧
  decode 0x5120#16 = .ok (.seReg 1 2) ∧ (∃ e, decode 0x5121#16 = .error e) ∧ decode 0x6A05#16 = .ok (.ldImm 10 5) ∧
  decode 0x7005#16 = .ok (.addImm 0 5) ∧ decode 0x8014#16 = .ok (.addReg 0 1) ∧
  decode 0x9AB0#16 = .ok (.sneReg 10 11) ∧ decode 0xA2F0#16 = .ok (.ldI 0x2F0) ∧
  decode 0xBFFF#16 = .ok (.jpV0 0xFFF) ∧ decode 0xCFF0#16 = .ok (.rnd 15 0xF0) ∧
  decode 0xD014#16 = .ok (.drw 0 1 4) ∧ decode 0xE49E#16 = .ok (.skp 4) ∧ decode 0xE4A1#16 = .ok (.sknp 4) ∧
  decode 0xFF65#16 = .ok (.loadRegs 15)

/-! ### The step -/

/-- The phases of STEP in order: a halted machine changes nothing; a word that does not wholly exist faults at the
fetch; else, with `dirty` cleared, STEP is the execute phase of the instruction the two bytes at `pc` decode to, the
lower address the more significant byte; an Invalid word halts with `DecodeHalt`; what STEP returns is `run` (R120).
The spec marks as its own in this: D2, D5, D14 (log 10). -/
def Obligations.StepFetchesDecodesExecutes : Prop :=
  ∀ s : State,
    (∀ r, s.run = .halted r → step s = .next s) ∧
    (s.run = .running → s.pc.toNat + 1 > 4095 → step s = .fault .memoryBounds) ∧
    (∀ i, s.run = .running → s.pc.toNat + 1 ≤ 4095 →
      decode (wordOfBytes (s.readByte s.pc.toNat) (s.readByte (s.pc.toNat + 1))) = .ok i →
      step s = exec i { s with dirty := false }) ∧
    (∀ e, s.run = .running → s.pc.toNat + 1 ≤ 4095 →
      decode (wordOfBytes (s.readByte s.pc.toNat) (s.readByte (s.pc.toNat + 1))) = .error e →
      step s = .next { s with dirty := false, run := .halted .decodeHalt }) ∧
    (∀ t, step s = .next t → s.stepTransaction = (.ready t, .ran t.run))

/-- The faults are those of the table of R226 and no others, in the execute phase and in a whole STEP, where the
fetch comes first (R226). After a fault the spec gives no transaction but RESET a meaning; that every other one leaves
a faulted machine as it stands and answers that it has no meaning is the model's choice (DESIGN CHOICE, log 8). The
spec marks as its own in this: D5, D18, D19 (log 10). -/
def Obligations.FaultsAreExactlyTheTabulated : Prop :=
  (∀ (i : Instr) (s : State) (f : Fault), exec i s = .fault f ↔ i.faultsWith s f) ∧
  (∀ (s : State) (f : Fault), step s = .fault f ↔
    s.run = .running ∧
      ((s.pc.toNat + 1 > 4095 ∧ f = .memoryBounds) ∨
       (s.pc.toNat + 1 ≤ 4095 ∧ ∃ i, decode s.fetchWord = .ok i ∧ i.faultsWith s f))) ∧
  (∀ (f : Fault) (p : Params) (d : Nat) (t : Transaction), t ≠ .reset →
    (Condition.faulted f p d).transact t = (.faulted f p d, .noMeaning))

/-- Every instruction has a meaning in every state: no execute phase and no STEP is refused (R13: a STEP ends in
exactly one of three ways). The spec marks as its own in this: D5, D18, D19 (log 10). -/
def Obligations.NoStepIsRefused : Prop :=
  (∀ (i : Instr) (s : State) (r : Refusal), exec i s ≠ .refused r) ∧
  ∀ (s : State) (r : Refusal), step s ≠ .refused r

/-- The halts are those of the table of R220 and no others: which instruction halts a running machine and with which
reason, the Invalid word, LOAD of too many bytes; and the codes (R220). The spec marks as its own in this: D7, D14,
D15, D16 (log 10) and G9 (log 11). -/
def Obligations.HaltsAreExactlyTheTabulated : Prop :=
  (∀ (i : Instr) (s t : State) (r : HaltReason), s.run = .running → exec i s = .next t →
    (t.run = .halted r ↔ i.haltsWith s r)) ∧
  (∀ s : State, ∃ t, execInvalid s = .next t ∧ t.run = .halted .decodeHalt) ∧
  (∀ (s : State) (bytes : List Byte), s.run = .running →
    ∀ r, ((s.load bytes).1.run = .halted r ↔ r = .loadError ∧ bytes.length > 3584)) ∧
  RunState.running.code = 0 ∧ (RunState.halted .loadError).code = 1 ∧ (RunState.halted .decodeHalt).code = 2 ∧
  (RunState.halted .stackUnderflow).code = 3 ∧ (RunState.halted .stackOverflow).code = 4

/-- Halt entry is precise: an instruction that halts changes `run` and nothing else, `pc` included; a STEP that
halts has besides cleared `dirty`, and returns the reason (R221). The spec marks as its own in this: D14 (log 10). -/
def Obligations.HaltChangesOnlyRun : Prop :=
  (∀ (i : Instr) (s t : State) (r : HaltReason), s.run = .running → exec i s = .next t → t.run = .halted r →
    SameExcept (fun p => p = .run) s t) ∧
  (∀ (s t : State) (r : HaltReason), s.run = .running → step s = .next t → t.run = .halted r →
    t.dirty = false ∧ SameExcept (fun p => p = .run ∨ p = .dirty) s t ∧
    s.stepTransaction = (.ready t, .ran (.halted r)))

/-! ### Rules about all instructions -/

/-- The value of `pc` after each instruction is that of the table of R24; the Invalid word leaves it. The spec marks
as its own in this: D2, D7, D9, D14 (log 10). -/
def Obligations.PcFollowsTheTable : Prop :=
  (∀ (i : Instr) (s t : State), exec i s = .next t → t.pc = i.pcAfter s) ∧
  ∀ s t : State, execInvalid s = .next t → t.pc = s.pc

/-- No instruction reads or writes a general register beyond those R22 lists for it. A register an instruction does
not write is unchanged, LD Vx,K writing only when a key is pressed. A register it does not read has no influence:
with any other value `b` in it the instruction ends the same way, and every part of the state but that register
comes out the same, the register itself being either written with the same value or left alone in both. The two
executions so compared are given the same draw and the same choice among the pressed keys, whatever these are, as
explicit inputs: `exec` is `Instr.execWith` at the free values of log 3 and log 4 (R22). That the registers listed are
read and written is `ListedRegistersAreReadAndWritten`. The spec marks as its own in this: D9, D10, D11, D12, D17, D22
(log 10). -/
def Obligations.RegistersReadAndWrittenAsListed : Prop :=
  (∀ (i : Instr) (s : State), exec i s = i.execWith (Config.draw s.draws) (Config.keyRank s.keys) s) ∧
  (∀ (i : Instr) (s t : State) (r : Reg), exec i s = .next t → ¬ i.writesReg r → t.reg r = s.reg r) ∧
  (∀ (x r : Reg) (s t : State), exec (.ldVxK x) s = .next t → (∀ k, s.key k = false) → t.reg r = s.reg r) ∧
  (∀ (i : Instr) (r : Reg), ¬ i.readsReg r → i.ignoresReg r)

/-- Each instruction writes only the registers `Instr.writesReg` lists for it, `pc`, and the state `Instr.writesOther`
lists for it: `I` is written by three instructions; the stack by CALL and RET; of memory, LD B,Vx writes the three
bytes at `I` and LD [I],Vx the `x + 1` bytes at `I`, and no other instruction any byte; the display is written by CLS,
and by DRW under its sprite; `DT` and `ST` by one each, `run` by those that halt, the key latch and the parameters by
none (R22, R27 to R31, R33, R37, R181, R203, R204, R206). The spec marks as its own in this: D3, D14, D20, D28 (log 10). -/
def Obligations.InstructionsWriteOnlyTheirState : Prop :=
  ∀ (i : Instr) (s t : State), exec i s = .next t →
    SameExcept (fun p => p = .pc ∨ (∃ r, i.writesReg r ∧ p = .reg r) ∨ i.writesOther s p) s t

/-- Execution is deterministic but for the random source: only RND depends on how many draws have been taken. The
two executions compared have the same keys, and so the same choice among them, KEY_SELECT being a function of the keys
(log 4) (R123, R14). The spec marks as its own in this: D17, D22 (log 10). -/
def Obligations.OnlyRndTakesADraw : Prop :=
  ∀ (i : Instr) (s : State) (d : Nat), (∀ x nn, i ≠ .rnd x nn) →
    exec i { s with draws := d } = mapNext (fun t => { t with draws := d }) (exec i s)

/-- No instruction but LD Vx,DT sees a TICK, and none but SKP, SKNP and LD Vx,K sees a SET_KEY. A TICK before an
instruction that neither reads nor writes a timer is the same as the TICK after it; before LD DT,Vx and LD ST,Vx,
which write one, it makes no difference but to the two timers. A SET_KEY before an instruction that reads no key is
the same as the SET_KEY after it. The two executions compared are given the same draw and the same choice among the
pressed keys, whatever these are, as explicit inputs (`Instr.execWith`; log 3 and log 4) (R228). The spec marks as its
own in this: D1, D17, D22 (log 10) and G4 (log 11). -/
def Obligations.DriverInputsAreSeenOnlyByPolling : Prop :=
  ∀ (draw : Byte) (rank : Nat) (i : Instr) (s : State),
    ((∀ x, i ≠ .ldVxDt x) → (∀ x, i ≠ .ldDtVx x) → (∀ x, i ≠ .ldStVx x) →
      i.execWith draw rank s.tick.1 = mapNext (fun t => t.tick.1) (i.execWith draw rank s)) ∧
    ((∀ x, i ≠ .ldVxDt x) →
      (∀ t, i.execWith draw rank s = .next t → ∃ u, i.execWith draw rank s.tick.1 = .next u ∧
        SameExcept (fun p => p = .delay ∨ p = .sound) t u) ∧
      (∀ f, i.execWith draw rank s = .fault f → i.execWith draw rank s.tick.1 = .fault f)) ∧
    ∀ (k : Key) (pressed : Bool), (∀ x, i ≠ .skp x) → (∀ x, i ≠ .sknp x) → (∀ x, i ≠ .ldVxK x) →
      i.execWith draw rank (s.setKey k pressed) =
        mapNext (fun t => t.setKey k pressed) (i.execWith draw rank s)

/-- After a STEP of a running machine, `dirty` is set exactly when that STEP executed a CLS, or a DRW that changed
at least one pixel (R35). The spec marks as its own in this: D13 (log 10). -/
def Obligations.DirtyTellsWhatTheStepDrew : Prop :=
  ∀ s t : State, s.run = .running → step s = .next t →
    (t.dirty = true ↔
      decode s.fetchWord = .ok .cls ∨
      ((∃ x y n, decode s.fetchWord = .ok (.drw x y n)) ∧ ∃ r c, t.pixel r c ≠ s.pixel r c))

/-! ### Invariants -/

/-- The state after RESET meets the invariant, with any parameters. The spec marks as its own in this: D2, D3 (log
10). -/
def Obligations.ResetMeetsInvariant : Prop :=
  State.reset.Inv ∧ ∀ (params : Params) (draws : Nat), (State.resetWith params draws).Inv

/-- Every STEP keeps the invariant: memory stays canonical, the stack within its depth with return addresses of
fetchable CALLs, and `pc` at most 0x10FE, so that no addition to it wraps (R24, R28, R66, R127). The spec marks as
its own in this: D2, D3 (log 10). -/
def Obligations.StepKeepsInvariant : Prop :=
  ∀ s t : State, s.Inv → step s = .next t → t.Inv

/-- Every sequence of transactions, in any interleaving, keeps the invariant, and no machine that has a state is
ever refused (R51). The spec marks as its own in this: D2, D3, D24 (log 10). -/
def Obligations.TransactionsKeepInvariant : Prop :=
  (∀ (c : Condition) (ts : List Transaction), c.Inv → (c.after ts).Inv) ∧
  ∀ (s : State) (ts : List Transaction) (r : Refusal) (p : Params) (d : Nat),
    (Condition.ready s).after ts ≠ .refused r p d

/-- The parts of the state named in frames are the whole state: two states with canonical memories that agree on every
part are equal. -/
def Obligations.PartsCoverState : Prop :=
  ∀ s t : State, Memory.wf s.params.font s.mem → Memory.wf t.params.font t.mem → (∀ p : Part, p.same s t) → t = s

/-! ### Transactions -/

/-- RESET, in every state and after a fault, gives the values of R40: the machine's font at 0 to 79 and zeros above
it, every register, timer, pixel and flag zero, the stack empty, no key pressed, `pc` at 0x200, running; and does
not depend on the state before it (R40, R260). The spec marks as its own in this: D21, D23 (log 10). -/
def Obligations.ResetGivesTheTabulatedValues : Prop :=
  ∀ s : State, ∃ t : State,
    (Condition.ready s).transact .reset = (.ready t, .done) ∧
    (∀ f, (Condition.faulted f s.params s.draws).transact .reset = (.ready t, .done)) ∧
    (∀ (j : Nat) (h : j < 80), t.readByte j = s.params.font[j]) ∧
    (∀ a, 80 ≤ a → a ≤ 4095 → t.readByte a = 0x00) ∧
    (∀ r, t.reg r = 0x00) ∧ t.i = 0x0000 ∧ t.pc = 0x0200 ∧ t.stack = [] ∧ (∀ r c, t.pixel r c = false) ∧
    t.dirty = false ∧ t.dt = 0x00 ∧ t.st = 0x00 ∧ (∀ k, t.key k = false) ∧ t.run = .running ∧
    ∀ s' : State, s'.params = s.params → s'.draws = s.draws →
      (Condition.ready s').transact .reset = (.ready t, .done)

/-- LOAD of at most 3584 bytes puts byte `j` at 0x200 + j and changes nothing else, in every state (R265). The spec
marks as its own in this: D27, that LOAD writes memory alone (log 10). -/
def Obligations.LoadCopiesVerbatim : Prop :=
  ∀ (s : State) (bytes : List Byte), bytes.length ≤ 3584 → ∃ t : State,
    (Condition.ready s).transact (.load bytes) = (.ready t, .loaded) ∧
    (∀ (j : Nat) (h : j < bytes.length), t.readByte (0x200 + j) = bytes[j]) ∧
    SameExcept (fun p => ∃ j < bytes.length, p = .byte (0x200 + j)) s t

/-- LOAD of more than 3584 bytes writes no memory byte, returns `LoadError` and latches `Halted(LoadError)`, which
every STEP then returns (R222, R266). It says so of every state: that on a machine already halted the new reason takes
the place of the first is the model's reading of R266 against R34 (DEDUCED, log 9). The spec marks as its own in this:
D16 (log 10). -/
def Obligations.LoadTooLongLatchesLoadError : Prop :=
  ∀ (s : State) (bytes : List Byte), bytes.length > 3584 → ∃ t : State,
    (Condition.ready s).transact (.load bytes) = (.ready t, .loadError) ∧
    t.run = .halted .loadError ∧ SameExcept (fun p => p = .run) s t ∧
    (Condition.ready t).transact .step = (.ready t, .ran (.halted .loadError))

/-- TICK counts both timers down by one, floored at 0, changes nothing else, and beeps exactly when `ST` was 1, and so
is 0 after it; it does so in every run state (R240, R242). The spec marks as its own in this: D1, the beep as what TICK
returns, and D29, TICK alike in every run state (log 10). -/
def Obligations.TickCountsDownAndBeepsAtOne : Prop :=
  ∀ s : State, ∃ (t : State) (beep : Bool),
    (Condition.ready s).transact .tick = (.ready t, .beep beep) ∧
    t.dt.toNat = s.dt.toNat - 1 ∧ t.st.toNat = s.st.toNat - 1 ∧
    (beep = true ↔ s.st = 1) ∧ (beep = true → t.st = 0) ∧
    SameExcept (fun p => p = .delay ∨ p = .sound) s t

/-- `k` TICKs take both timers down by `k`, floored at 0, and change nothing else; the beep comes once if `ST`
reaches 0 among them and not at all otherwise (R241, R242). The spec marks as its own in this: D1 (log 10). -/
def Obligations.TicksFloorTimersAndBeepOnce : Prop :=
  ∀ (s : State) (k : Nat), ∃ t : State,
    (Condition.ready s).after (List.replicate k .tick) = .ready t ∧
    t.dt.toNat = s.dt.toNat - k ∧ t.st.toNat = s.st.toNat - k ∧
    SameExcept (fun p => p = .delay ∨ p = .sound) s t ∧
    ((Condition.ready s).replies (List.replicate k .tick)).count (.beep true) =
      if 1 ≤ s.st.toNat ∧ s.st.toNat ≤ k then 1 else 0

/-- SET_KEY writes one key of the latch and nothing else (R245). -/
def Obligations.SetKeyWritesOneKey : Prop :=
  ∀ (s : State) (k : Key) (pressed : Bool), ∃ t : State,
    (Condition.ready s).transact (.setKey k pressed) = (.ready t, .done) ∧
    t.key k = pressed ∧ SameExcept (fun p => p = .key k) s t

/-- FB_READ returns the display and `dirty` and changes nothing (R52); in row-major form pixel `(r, c)` is element
`64 r + c` of 2048 (R30). The spec marks as its own in this: D28, the linear index (log 10). -/
def Obligations.FrameReadIsPureAndRowMajor : Prop :=
  (∀ s : State, (Condition.ready s).transact .readFrame = (.ready s, .frame s.disp s.dirty)) ∧
  ∀ (s : State) (r : Row) (c : Col),
    (Display.linear s.disp).length = 2048 ∧ (Display.linear s.disp)[64 * r.val + c.val]? = some (s.pixel r c)

/-- What a halted machine still does: STEP nothing, TICK, SET_KEY and FB_READ as ever, LOAD copies without clearing
the halt, RESET clears it (R225). The spec marks as its own in this: D14, D29 (log 10). -/
def Obligations.HaltedMachineStillServesTheDriver : Prop :=
  ∀ (s : State) (r : HaltReason), s.run = .halted r →
    (Condition.ready s).transact .step = (.ready s, .ran (.halted r)) ∧
    (∃ (t : State) (beep : Bool), (Condition.ready s).transact .tick = (.ready t, .beep beep) ∧
      t.dt.toNat = s.dt.toNat - 1 ∧ t.st.toNat = s.st.toNat - 1 ∧ (beep = true ↔ s.st = 1) ∧
      SameExcept (fun p => p = .delay ∨ p = .sound) s t) ∧
    (∀ (k : Key) (pressed : Bool), ∃ t : State, (Condition.ready s).transact (.setKey k pressed) = (.ready t, .done) ∧
      t.key k = pressed ∧ SameExcept (fun p => p = .key k) s t) ∧
    (Condition.ready s).transact .readFrame = (.ready s, .frame s.disp s.dirty) ∧
    (∀ bytes : List Byte, bytes.length ≤ 3584 → ∃ t : State,
      (Condition.ready s).transact (.load bytes) = (.ready t, .loaded) ∧ t.run = .halted r ∧
      ∀ (j : Nat) (h : j < bytes.length), t.readByte (0x200 + j) = bytes[j]) ∧
    (∃ t : State, (Condition.ready s).transact .reset = (.ready t, .done) ∧ t.run = .running)

/-- A halt lasts until RESET: whatever else the driver issues, the machine stays halted; and while it issues only
STEP, TICK, SET_KEY and FB_READ, the reason and all state but the timers and the key latch stay (R34, R223, R225).
The spec marks as its own in this: D14 (log 10). -/
def Obligations.HaltLastsUntilReset : Prop :=
  ∀ (s : State) (r : HaltReason) (ts : List Transaction), s.run = .halted r →
    (.reset ∉ ts → ∃ t r', (Condition.ready s).after ts = .ready t ∧ t.run = .halted r') ∧
    (ts.all Transaction.afterBoot = true → ∃ t, (Condition.ready s).after ts = .ready t ∧
      SameExcept (fun p => p = .delay ∨ p = .sound ∨ ∃ k, p = .key k) s t)

/-- A driver that keeps to the boot order never meets `LoadError`, whatever condition the machine was in before
(R266, R268). The spec marks as its own in this: D16, D27 (log 10). -/
def Obligations.BootOrderNeverMeetsLoadError : Prop :=
  ∀ (c : Condition) (ts : List Transaction) (t : State), bootOrder ts = true → c.after ts = .ready t →
    t.run ≠ .halted .loadError

/-- How runs end: no transaction but a STEP can fault; of the transactions that follow the boot, only a STEP ends a run
that is going on; and an ended run stays ended until RESET, which for a run that a fault ended is the model's choice
(DESIGN CHOICE, log 8) (R226, R270). The spec marks as its own in this: D5, D14 (log 10). -/
def Obligations.OnlyStepEndsARun : Prop :=
  (∀ (s : State) (ts : List Transaction), .step ∉ ts → SafeRun (.ready s) ts) ∧
  (∀ (s : State) (t : Transaction), s.run = .running → t.afterBoot = true →
    ((Condition.ready s).transact t).1.ended = true → t = .step) ∧
  (∀ (c : Condition) (ts : List Transaction), c.ended = true → .reset ∉ ts → (c.after ts).ended = true)

/-! ### Control transfer -/

/-- `SYS nnn` and the Invalid word halt with `DecodeHalt` and change `run` alone; every word of family 0 but 00E0
and 00EE is SYS (R124, R129). The spec marks as its own in this: D7, D14 (log 10) and G9 (log 11). -/
def Obligations.SysAndInvalidHalt : Prop :=
  (∀ w : Word, w.toNat / 4096 = 0 → w ≠ 0x00E0#16 → w ≠ 0x00EE#16 → decode w = .ok (.sys (w.setWidth 12))) ∧
  (∀ (nnn : Addr) (s : State), ∃ t, exec (.sys nnn) s = .next t ∧ t.run = .halted .decodeHalt ∧
    SameExcept (fun p => p = .run) s t) ∧
  (∀ s : State, ∃ t, execInvalid s = .next t ∧ t.run = .halted .decodeHalt ∧
    SameExcept (fun p => p = .run) s t)

/-- `RET` pops the newest entry into `pc` with nothing added; on an empty stack it halts with `StackUnderflow` and
changes `run` alone (R125). The spec marks as its own in this: D3, D14 (log 10). -/
def Obligations.RetPopsOrUnderflows : Prop :=
  decode 0x00EE#16 = .ok .ret ∧
  (∀ (s : State) (older : List Word) (a : Word), s.stack = older ++ [a] → ∃ t, exec .ret s = .next t ∧
    t.pc = a ∧ t.stack = older ∧ SameExcept (fun p => p = .pc ∨ p = .stack) s t) ∧
  (∀ s : State, s.stack = [] → ∃ t, exec .ret s = .next t ∧ t.run = .halted .stackUnderflow ∧
    SameExcept (fun p => p = .run) s t)

/-- `JP nnn` sets `pc` to `nnn`, with no stack interaction, and touches nothing else (R126). -/
def Obligations.JumpSetsPc : Prop :=
  ∀ (nnn : Addr) (s : State), decode (formatNNN 0x1#4 nnn) = .ok (.jp nnn) ∧
    ∃ t, exec (.jp nnn) s = .next t ∧ t.pc.toNat = nnn.toNat ∧ SameExcept (fun p => p = .pc) s t

/-- `JP V0,nnn` sets `pc` to `nnn + V0`, `V0` whatever the top nibble of `nnn` is, not reduced to 12 bits, and
touches nothing else (R128). The spec marks as its own in this: D9 (log 10) and G1 (log 11). -/
def Obligations.JumpOffsetAddsV0 : Prop :=
  ∀ (nnn : Addr) (s : State), decode (formatNNN 0xB#4 nnn) = .ok (.jpV0 nnn) ∧
    ∃ t, exec (.jpV0 nnn) s = .next t ∧ t.pc.toNat = nnn.toNat + (s.reg 0).toNat ∧
      SameExcept (fun p => p = .pc) s t

/-- `CALL nnn` pushes `pc + 2` and jumps; on a full stack it halts with `StackOverflow`, pushes nothing and changes
`run` alone (R127). The spec marks as its own in this: D3, D14 (log 10) and G1 (log 11). -/
def Obligations.CallPushesOrOverflows : Prop :=
  (∀ nnn : Addr, decode (formatNNN 0x2#4 nnn) = .ok (.call nnn)) ∧
  (∀ (nnn : Addr) (s : State), s.stack.length ≠ s.params.stackDepth → ∃ t, exec (.call nnn) s = .next t ∧
    t.pc.toNat = nnn.toNat ∧ t.stack = s.stack ++ [s.pc + 2] ∧ t.sp = s.sp + 1 ∧
    SameExcept (fun p => p = .pc ∨ p = .stack) s t) ∧
  (∀ (nnn : Addr) (s : State), s.stack.length = s.params.stackDepth → ∃ t, exec (.call nnn) s = .next t ∧
    t.run = .halted .stackOverflow ∧ SameExcept (fun p => p = .run) s t)

/-- A RET from any state in which the stack is as a CALL left it goes to the instruction after the CALL and leaves
the stack as it was before it (R125, R127; the source's property 7). The spec marks as its own in this: D3 (log 10). -/
def Obligations.RetReturnsAfterCall : Prop :=
  ∀ (nnn : Addr) (s : State), s.stack.length ≠ s.params.stackDepth → ∃ t, exec (.call nnn) s = .next t ∧
    ∀ u : State, u.stack = t.stack → ∃ v, exec .ret u = .next v ∧ v.pc = s.pc + 2 ∧ v.stack = s.stack

/-! ### Skips -/

/-- `SE Vx,nn` and `SNE Vx,nn` skip one instruction when the register equals, or differs from, the immediate, and
change `pc` alone (R150, R151). The spec marks as its own in this: G1 (log 11). -/
def Obligations.SkipsOnImmediate : Prop :=
  ∀ (x : Reg) (nn : Byte) (s : State),
    decode (formatXNN 0x3#4 x nn) = .ok (.seImm x nn) ∧ decode (formatXNN 0x4#4 x nn) = .ok (.sneImm x nn) ∧
    (∃ t, exec (.seImm x nn) s = .next t ∧ (s.reg x = nn → t.pc = s.pc + 4) ∧ (s.reg x ≠ nn → t.pc = s.pc + 2) ∧
      SameExcept (fun p => p = .pc) s t) ∧
    (∃ t, exec (.sneImm x nn) s = .next t ∧ (s.reg x ≠ nn → t.pc = s.pc + 4) ∧ (s.reg x = nn → t.pc = s.pc + 2) ∧
      SameExcept (fun p => p = .pc) s t)

/-- `SE Vx,Vy` and `SNE Vx,Vy` skip one instruction when the registers are equal, or differ, and change `pc` alone
(R152, R153). The spec marks as its own in this: G1 (log 11). -/
def Obligations.SkipsOnRegisters : Prop :=
  ∀ (x y : Reg) (s : State),
    decode (formatXYN 0x5#4 x y 0x0#4) = .ok (.seReg x y) ∧ decode (formatXYN 0x9#4 x y 0x0#4) = .ok (.sneReg x y) ∧
    (∃ t, exec (.seReg x y) s = .next t ∧ (s.reg x = s.reg y → t.pc = s.pc + 4) ∧
      (s.reg x ≠ s.reg y → t.pc = s.pc + 2) ∧ SameExcept (fun p => p = .pc) s t) ∧
    (∃ t, exec (.sneReg x y) s = .next t ∧ (s.reg x ≠ s.reg y → t.pc = s.pc + 4) ∧
      (s.reg x = s.reg y → t.pc = s.pc + 2) ∧ SameExcept (fun p => p = .pc) s t)

/-- `SKP Vx` and `SKNP Vx` skip one instruction when the key numbered by the register is pressed, or not pressed,
and change `pc` alone; a register above 15 raises `Fault(KeyIndex)`, with no masking (R154, R155). The spec marks as
its own in this: D18 (log 10) and G1 (log 11). -/
def Obligations.SkipsOnKeys : Prop :=
  (∀ x : Reg, decode (formatXNN 0xE#4 x 0x9E#8) = .ok (.skp x) ∧ decode (formatXNN 0xE#4 x 0xA1#8) = .ok (.sknp x)) ∧
  (∀ (x : Reg) (s : State) (k : Key), (s.reg x).toNat = k.val →
    (∃ t, exec (.skp x) s = .next t ∧ (s.key k = true → t.pc = s.pc + 4) ∧ (s.key k = false → t.pc = s.pc + 2) ∧
      SameExcept (fun p => p = .pc) s t) ∧
    (∃ t, exec (.sknp x) s = .next t ∧ (s.key k = false → t.pc = s.pc + 4) ∧ (s.key k = true → t.pc = s.pc + 2) ∧
      SameExcept (fun p => p = .pc) s t)) ∧
  (∀ (x : Reg) (s : State), (s.reg x).toNat > 15 →
    exec (.skp x) s = .fault .keyIndex ∧ exec (.sknp x) s = .fault .keyIndex)

/-! ### Loads, arithmetic, logic, shifts, random -/

/-- `LD Vx,nn` puts the immediate in the register, `VF` an ordinary destination, and changes nothing else (R160). -/
def Obligations.LoadImmediate : Prop :=
  ∀ (x : Reg) (nn : Byte) (s : State), decode (formatXNN 0x6#4 x nn) = .ok (.ldImm x nn) ∧
    ∃ t, exec (.ldImm x nn) s = .next t ∧ t.reg x = nn ∧ t.pc = s.pc + 2 ∧
      SameExcept (fun p => p = .reg x ∨ p = .pc) s t

/-- `ADD Vx,nn` adds the immediate modulo 256 and writes no flag: with `x` other than 15, `VF` is unchanged (R161).
The spec marks as its own in this: G3 (log 11). -/
def Obligations.AddImmediateSetsNoFlag : Prop :=
  ∀ (x : Reg) (nn : Byte) (s : State), decode (formatXNN 0x7#4 x nn) = .ok (.addImm x nn) ∧
    ∃ t, exec (.addImm x nn) s = .next t ∧ (t.reg x).toNat = ((s.reg x).toNat + nn.toNat) % 256 ∧
      t.pc = s.pc + 2 ∧ SameExcept (fun p => p = .reg x ∨ p = .pc) s t

/-- `LD Vx,Vy`, `OR`, `AND` and `XOR` put the copy or the bitwise result in `V[x]` and write no flag (R162 to R165).
The spec marks as its own in this: G1 (log 11). -/
def Obligations.CopyAndBitwise : Prop :=
  ∀ (x y : Reg) (s : State),
    decode (formatXYN 0x8#4 x y 0x0#4) = .ok (.ldReg x y) ∧ decode (formatXYN 0x8#4 x y 0x1#4) = .ok (.orReg x y) ∧
    decode (formatXYN 0x8#4 x y 0x2#4) = .ok (.andReg x y) ∧ decode (formatXYN 0x8#4 x y 0x3#4) = .ok (.xorReg x y) ∧
    (∃ t, exec (.ldReg x y) s = .next t ∧ t.reg x = s.reg y ∧ t.pc = s.pc + 2 ∧
      SameExcept (fun p => p = .reg x ∨ p = .pc) s t) ∧
    (∃ t, exec (.orReg x y) s = .next t ∧ t.reg x = s.reg x ||| s.reg y ∧ t.pc = s.pc + 2 ∧
      SameExcept (fun p => p = .reg x ∨ p = .pc) s t) ∧
    (∃ t, exec (.andReg x y) s = .next t ∧ t.reg x = s.reg x &&& s.reg y ∧ t.pc = s.pc + 2 ∧
      SameExcept (fun p => p = .reg x ∨ p = .pc) s t) ∧
    (∃ t, exec (.xorReg x y) s = .next t ∧ t.reg x = s.reg x ^^^ s.reg y ∧ t.pc = s.pc + 2 ∧
      SameExcept (fun p => p = .reg x ∨ p = .pc) s t)

/-- `ADD Vx,Vy`: `VF` is 1 when the unmasked sum exceeds 255, else 0, also when `x` is 15 and the sum is lost; for
every other `x` the register takes the sum modulo 256 (R166, R171). The spec marks as its own in this: D11 (log 10). -/
def Obligations.AddSetsCarry : Prop :=
  ∀ (x y : Reg) (s : State), decode (formatXYN 0x8#4 x y 0x4#4) = .ok (.addReg x y) ∧
    ∃ t, exec (.addReg x y) s = .next t ∧
      (x ≠ vf → (t.reg x).toNat = ((s.reg x).toNat + (s.reg y).toNat) % 256) ∧
      t.reg vf = (if (s.reg x).toNat + (s.reg y).toNat > 255 then 0x01 else 0x00) ∧ t.pc = s.pc + 2 ∧
      SameExcept (fun p => p = .reg x ∨ p = .reg vf ∨ p = .pc) s t

/-- `SUB Vx,Vy` and `SUBN Vx,Vy`: the difference modulo 256, and `VF` 1 when the minuend is at least the subtrahend,
equality included, else 0; the flag wins when `x` is 15 (R167, R169, R171). The spec marks as its own in this: D11
(log 10) and G1 (log 11). -/
def Obligations.SubtractSetsNotBorrow : Prop :=
  ∀ (x y : Reg) (s : State),
    decode (formatXYN 0x8#4 x y 0x5#4) = .ok (.subReg x y) ∧ decode (formatXYN 0x8#4 x y 0x7#4) = .ok (.subnReg x y) ∧
    (∃ t, exec (.subReg x y) s = .next t ∧
      (x ≠ vf → (t.reg x).toNat = (256 + (s.reg x).toNat - (s.reg y).toNat) % 256) ∧
      t.reg vf = (if (s.reg x).toNat ≥ (s.reg y).toNat then 0x01 else 0x00) ∧ t.pc = s.pc + 2 ∧
      SameExcept (fun p => p = .reg x ∨ p = .reg vf ∨ p = .pc) s t) ∧
    (∃ t, exec (.subnReg x y) s = .next t ∧
      (x ≠ vf → (t.reg x).toNat = (256 + (s.reg y).toNat - (s.reg x).toNat) % 256) ∧
      t.reg vf = (if (s.reg y).toNat ≥ (s.reg x).toNat then 0x01 else 0x00) ∧ t.pc = s.pc + 2 ∧
      SameExcept (fun p => p = .reg x ∨ p = .reg vf ∨ p = .pc) s t)

/-- `SHR Vx` and `SHL Vx` shift the register by one in place, `VF` taking the bit shifted out as 0 or 1, the flag
winning when `x` is 15; the field `y` makes no difference (R168, R170, R171). The spec marks as its own in this:
D10, D11 (log 10) and G1 (log 11). -/
def Obligations.ShiftsSetBitShiftedOut : Prop :=
  ∀ (x y : Reg) (s : State),
    decode (formatXYN 0x8#4 x y 0x6#4) = .ok (.shr x y) ∧ decode (formatXYN 0x8#4 x y 0xE#4) = .ok (.shl x y) ∧
    (∃ t, exec (.shr x y) s = .next t ∧ (x ≠ vf → (t.reg x).toNat = (s.reg x).toNat / 2) ∧
      (t.reg vf).toNat = (s.reg x).toNat % 2 ∧ t.pc = s.pc + 2 ∧
      SameExcept (fun p => p = .reg x ∨ p = .reg vf ∨ p = .pc) s t ∧ ∀ y', exec (.shr x y') s = .next t) ∧
    (∃ t, exec (.shl x y) s = .next t ∧ (x ≠ vf → (t.reg x).toNat = 2 * (s.reg x).toNat % 256) ∧
      (t.reg vf).toNat = (s.reg x).toNat / 128 ∧ t.pc = s.pc + 2 ∧
      SameExcept (fun p => p = .reg x ∨ p = .reg vf ∨ p = .pc) s t ∧ ∀ y', exec (.shl x y') s = .next t)

/-- `RND Vx,nn`: the register takes a draw AND the immediate, so every bit that is 0 in the immediate is 0; the draw
is the free value `Config.draw` at the number of draws taken so far, and each execution takes one more, which is the
model's form of a fresh draw (R14, R172; assumption log 3). The spec marks as its own in this: D22 (log 10) and G1
(log 11). -/
def Obligations.RndMasksOneDraw : Prop :=
  ∀ (x : Reg) (nn : Byte) (s : State), decode (formatXNN 0xC#4 x nn) = .ok (.rnd x nn) ∧
    ∃ t, exec (.rnd x nn) s = .next t ∧ t.reg x = Config.draw s.draws &&& nn ∧
      (∀ k < 8, nn.getLsbD k = false → (t.reg x).getLsbD k = false) ∧ t.draws = s.draws + 1 ∧ t.pc = s.pc + 2 ∧
      SameExcept (fun p => p = .reg x ∨ p = .pc ∨ p = .draws) s t

/-! ### Display -/

/-- `CLS` turns every pixel off and sets `dirty`, even when every pixel was off already; it writes no flag (R180). -/
def Obligations.ClsClearsDisplay : Prop :=
  decode 0x00E0#16 = .ok .cls ∧
  ∀ s : State, ∃ t, exec .cls s = .next t ∧ (∀ r c, t.pixel r c = false) ∧ t.dirty = true ∧ t.pc = s.pc + 2 ∧
    SameExcept (fun p => p = .pc ∨ p = .dirty ∨ ∃ r c, p = .pixel r c) s t

/-- `DRW Vx,Vy,n`, the loops of R181 against the pixels of R182: exactly the pixels under a 1 bit of the sprite are
flipped; `VF` is 1 when one of them was set and else 0; `dirty` is set when there is one; a sprite that reaches
beyond address 4095 raises `Fault(MemoryBounds)`, and one of no rows never does (R181, R182). The spec marks as its
own in this: D5, D12, D13, D28 (log 10). -/
def Obligations.DrwFlipsExactlyTheSpritePixels : Prop :=
  ∀ (x y : Reg) (n : BitVec 4) (s : State), decode (formatXYN 0xD#4 x y n) = .ok (.drw x y n) ∧
    (n = 0 ∨ s.i.toNat + n.toNat - 1 ≤ 4095 → ∃ t, exec (.drw x y n) s = .next t ∧
      (∀ r c, s.spriteCovers (s.reg x) (s.reg y) n.toNat r c → t.pixel r c = !s.pixel r c) ∧
      (∀ r c, ¬ s.spriteCovers (s.reg x) (s.reg y) n.toNat r c → t.pixel r c = s.pixel r c) ∧
      (t.reg vf = 1 ↔ ∃ r c, s.spriteCovers (s.reg x) (s.reg y) n.toNat r c ∧ s.pixel r c = true) ∧
      (t.reg vf = 0 ↔ ¬ ∃ r c, s.spriteCovers (s.reg x) (s.reg y) n.toNat r c ∧ s.pixel r c = true) ∧
      (t.dirty = true ↔ s.dirty = true ∨ ∃ r c, s.spriteCovers (s.reg x) (s.reg y) n.toNat r c) ∧
      t.pc = s.pc + 2 ∧
      SameExcept (fun p => p = .reg vf ∨ p = .pc ∨ p = .dirty ∨ ∃ r c, p = .pixel r c) s t) ∧
    (n ≠ 0 → s.i.toNat + n.toNat - 1 > 4095 → exec (.drw x y n) s = .fault .memoryBounds)

/-- Drawing the same sprite twice at identical coordinates restores the display. The second draw collides exactly
when the sprite has a 1 bit on a pixel that was off before both, which the first draw set; from a clear display,
exactly when the sprite has a 1 bit. With `x` or `y` 15 the coordinates are not identical, the first draw having
written `VF` (R183). The spec marks as its own in this: D12 (log 10). -/
def Obligations.DrwTwiceRestoresDisplay : Prop :=
  ∀ (x y : Reg) (n : BitVec 4) (s : State), x ≠ vf → y ≠ vf → (n = 0 ∨ s.i.toNat + n.toNat - 1 ≤ 4095) →
    ∃ t u, exec (.drw x y n) s = .next t ∧ exec (.drw x y n) t = .next u ∧
      (∀ r c, u.pixel r c = s.pixel r c) ∧
      (u.reg vf = 1 ↔ ∃ r c, s.spriteCovers (s.reg x) (s.reg y) n.toNat r c ∧ s.pixel r c = false) ∧
      ((∀ r c, s.pixel r c = false) → (u.reg vf = 1 ↔ ∃ row < n.toNat, s.readByte (s.i.toNat + row) ≠ 0))

/-! ### Keys and timers -/

/-- `LD Vx,K`: with no key pressed nothing changes, `pc` included, so the next STEP evaluates it again; else the
number of a pressed key, whichever the implementation selects, goes to `V[x]`. With the default `KEY_SELECT` (rank
0) it is the smallest (R190). The spec marks as its own in this: D17 (log 10) and G1 (log 11). -/
def Obligations.WaitKeyTakesAPressedKey : Prop :=
  ∀ (x : Reg) (s : State), decode (formatXNN 0xF#4 x 0x0A#8) = .ok (.ldVxK x) ∧
    ((∀ k, s.key k = false) → exec (.ldVxK x) s = .next s) ∧
    ((∃ k, s.key k = true) → ∃ t k, exec (.ldVxK x) s = .next t ∧ s.key k = true ∧ (t.reg x).toNat = k.val ∧
      t.pc = s.pc + 2 ∧ SameExcept (fun p => p = .reg x ∨ p = .pc) s t) ∧
    (∀ k : Key, s.key k = true → (∀ j : Key, s.key j = true → k ≤ j) →
      ((s.waitKeyWith 0 x).reg x).toNat = k.val)

/-- `LD Vx,DT` reads the delay timer, `LD DT,Vx` and `LD ST,Vx` set the delay and the sound timer; nothing else
changes (R191 to R193). The spec marks as its own in this: G1, G4 (log 11). -/
def Obligations.TimersReadAndSet : Prop :=
  ∀ (x : Reg) (s : State),
    decode (formatXNN 0xF#4 x 0x07#8) = .ok (.ldVxDt x) ∧ decode (formatXNN 0xF#4 x 0x15#8) = .ok (.ldDtVx x) ∧
    decode (formatXNN 0xF#4 x 0x18#8) = .ok (.ldStVx x) ∧
    (∃ t, exec (.ldVxDt x) s = .next t ∧ t.reg x = s.dt ∧ t.pc = s.pc + 2 ∧
      SameExcept (fun p => p = .reg x ∨ p = .pc) s t) ∧
    (∃ t, exec (.ldDtVx x) s = .next t ∧ t.dt = s.reg x ∧ t.pc = s.pc + 2 ∧
      SameExcept (fun p => p = .delay ∨ p = .pc) s t) ∧
    (∃ t, exec (.ldStVx x) s = .next t ∧ t.st = s.reg x ∧ t.pc = s.pc + 2 ∧
      SameExcept (fun p => p = .sound ∨ p = .pc) s t)

/-! ### Index register and memory -/

/-- `LD I,nnn` sets `I` to the zero-extended address; `ADD I,Vx` adds the register modulo 2^16 and writes no flag
(R200, R201). The spec marks as its own in this: D20 (log 10) and G1, G2 (log 11). -/
def Obligations.IndexLoadAndAdd : Prop :=
  (∀ (nnn : Addr) (s : State), decode (formatNNN 0xA#4 nnn) = .ok (.ldI nnn) ∧
    ∃ t, exec (.ldI nnn) s = .next t ∧ t.i.toNat = nnn.toNat ∧ t.pc = s.pc + 2 ∧
      SameExcept (fun p => p = .index ∨ p = .pc) s t) ∧
  (∀ (x : Reg) (s : State), decode (formatXNN 0xF#4 x 0x1E#8) = .ok (.addI x) ∧
    ∃ t, exec (.addI x) s = .next t ∧ t.i.toNat = (s.i.toNat + (s.reg x).toNat) % 65536 ∧ t.pc = s.pc + 2 ∧
      SameExcept (fun p => p = .index ∨ p = .pc) s t)

/-- `LD F,Vx` sets `I` to five times the digit in the register and reads no memory; a register above 15 raises
`Fault(GlyphIndex)` (R202). The spec marks as its own in this: D19 (log 10) and G1, G6 (log 11). -/
def Obligations.GlyphAddressIsFiveTimesDigit : Prop :=
  ∀ (x : Reg) (s : State), decode (formatXNN 0xF#4 x 0x29#8) = .ok (.ldF x) ∧
    ((s.reg x).toNat ≤ 15 → ∃ t, exec (.ldF x) s = .next t ∧ t.i.toNat = 5 * (s.reg x).toNat ∧
      t.pc = s.pc + 2 ∧ SameExcept (fun p => p = .index ∨ p = .pc) s t) ∧
    ((s.reg x).toNat > 15 → exec (.ldF x) s = .fault .glyphIndex)

/-- `LD B,Vx` stores hundreds, tens and ones of the register at the three addresses from `I` on, each at most 9, and
no other byte; when the last of them does not exist it raises `Fault(MemoryBounds)` and stores nothing (R203). The
spec marks as its own in this: D5, D30 (log 10) and G1, G7 (log 11). -/
def Obligations.BcdStoresThreeDigits : Prop :=
  ∀ (x : Reg) (s : State), decode (formatXNN 0xF#4 x 0x33#8) = .ok (.ldB x) ∧
    (s.i.toNat + 2 ≤ 4095 → ∃ t, exec (.ldB x) s = .next t ∧
      (t.readByte (s.indexAddr 0)).toNat = (s.reg x).toNat / 100 ∧
      (t.readByte (s.indexAddr 1)).toNat = (s.reg x).toNat / 10 % 10 ∧
      (t.readByte (s.indexAddr 2)).toNat = (s.reg x).toNat % 10 ∧
      100 * (t.readByte (s.indexAddr 0)).toNat + 10 * (t.readByte (s.indexAddr 1)).toNat +
        (t.readByte (s.indexAddr 2)).toNat = (s.reg x).toNat ∧
      t.pc = s.pc + 2 ∧ SameExcept (fun p => p = .pc ∨ ∃ k < 3, p = .byte (s.indexAddr k)) s t) ∧
    (s.i.toNat + 2 > 4095 → exec (.ldB x) s = .fault .memoryBounds)

/-- `LD [I],Vx` stores `V[0]` to `V[x]` at the `x + 1` addresses from `I` on and no other byte, `I` unmodified; when
the last of them does not exist it raises `Fault(MemoryBounds)` and stores nothing (R204). The spec marks as its own
in this: D5 (log 10) and G1 (log 11). -/
def Obligations.DumpStoresRegisterRange : Prop :=
  ∀ (x : Reg) (s : State), decode (formatXNN 0xF#4 x 0x55#8) = .ok (.dumpRegs x) ∧
    (s.i.toNat + x.val ≤ 4095 → ∃ t, exec (.dumpRegs x) s = .next t ∧
      (∀ r : Reg, r ≤ x → t.readByte (s.indexAddr r.val) = s.reg r) ∧ t.pc = s.pc + 2 ∧
      SameExcept (fun p => p = .pc ∨ ∃ r : Reg, r ≤ x ∧ p = .byte (s.indexAddr r.val)) s t) ∧
    (s.i.toNat + x.val > 4095 → exec (.dumpRegs x) s = .fault .memoryBounds)

/-- `LD Vx,[I]` loads `V[0]` to `V[x]` from the `x + 1` addresses from `I` on, the registers above `x`, `I` and
memory untouched; when the last address does not exist it raises `Fault(MemoryBounds)` and loads nothing; and it is
the inverse of the dump: in any state with the memory and the `I` a dump of the same `x` left, it restores `V[0]` to
`V[x]` (R205). The spec marks as its own in this: D5 (log 10) and G1 (log 11). -/
def Obligations.LoadRestoresRegisterRange : Prop :=
  ∀ (x : Reg) (s : State), decode (formatXNN 0xF#4 x 0x65#8) = .ok (.loadRegs x) ∧
    (s.i.toNat + x.val ≤ 4095 → ∃ t, exec (.loadRegs x) s = .next t ∧
      (∀ r : Reg, r ≤ x → t.reg r = s.readByte (s.indexAddr r.val)) ∧ t.pc = s.pc + 2 ∧
      SameExcept (fun p => p = .pc ∨ ∃ r : Reg, r ≤ x ∧ p = .reg r) s t) ∧
    (s.i.toNat + x.val > 4095 → exec (.loadRegs x) s = .fault .memoryBounds) ∧
    (s.i.toNat + x.val ≤ 4095 → ∃ t, exec (.dumpRegs x) s = .next t ∧
      ∀ u : State, u.i = t.i → (∀ a, u.readByte a = t.readByte a) →
        ∃ v, exec (.loadRegs x) u = .next v ∧ ∀ r : Reg, r ≤ x → v.reg r = s.reg r)

/-! ### The other half of R22 -/

/-- The registers R22 lists for an instruction are written and read by it: it can change a register exactly when the
register is listed as written, the forms that put back what the register holds apart (`ADD Vx,0`; `LD`, `OR` and `AND`
of a register with itself); and what a register holds matters to it exactly when the register is listed as read, the
forms apart whose effect is the same for every value (those; `SE`, `SNE`, `XOR`, `SUB` and `SUBN` of a register with
itself; `DRW` of no rows) (R22). The spec marks as its own in this: D9, D10, D11, D12 (log 10). -/
def Obligations.ListedRegistersAreReadAndWritten : Prop :=
  (∀ (i : Instr) (r : Reg), (∃ s t, exec i s = .next t ∧ t.reg r ≠ s.reg r) ↔
    i.writesReg r ∧ i ∉ [.addImm r 0, .ldReg r r, .orReg r r, .andReg r r]) ∧
  (∀ (i : Instr) (r : Reg), ¬ i.ignoresReg r ↔
    i.readsReg r ∧ (∀ x y, i ≠ .drw x y 0) ∧
      i ∉ [.addImm r 0, .seReg r r, .sneReg r r, .ldReg r r, .orReg r r, .andReg r r, .xorReg r r, .subReg r r,
        .subnReg r r])
end

