-- ==== Sys2Proof/Laws/State.lean ====
section
/-! SUPPORT. One lemma for each field of State under each named update, and the accessors under each: later proofs
never unfold a record update. -/

namespace Sys2Proof.Machine

/-! `State.setReg` -/

@[simp] theorem State.setReg_v (s : State) (r : Reg) (b : Byte) : (s.setReg r b).v = s.v.set r.val b := rfl
@[simp] theorem State.setReg_i (s : State) (r : Reg) (b : Byte) : (s.setReg r b).i = s.i := rfl
@[simp] theorem State.setReg_pc (s : State) (r : Reg) (b : Byte) : (s.setReg r b).pc = s.pc := rfl
@[simp] theorem State.setReg_stack (s : State) (r : Reg) (b : Byte) : (s.setReg r b).stack = s.stack := rfl
@[simp] theorem State.setReg_mem (s : State) (r : Reg) (b : Byte) : (s.setReg r b).mem = s.mem := rfl
@[simp] theorem State.setReg_disp (s : State) (r : Reg) (b : Byte) : (s.setReg r b).disp = s.disp := rfl
@[simp] theorem State.setReg_dirty (s : State) (r : Reg) (b : Byte) : (s.setReg r b).dirty = s.dirty := rfl
@[simp] theorem State.setReg_dt (s : State) (r : Reg) (b : Byte) : (s.setReg r b).dt = s.dt := rfl
@[simp] theorem State.setReg_st (s : State) (r : Reg) (b : Byte) : (s.setReg r b).st = s.st := rfl
@[simp] theorem State.setReg_keys (s : State) (r : Reg) (b : Byte) : (s.setReg r b).keys = s.keys := rfl
@[simp] theorem State.setReg_run (s : State) (r : Reg) (b : Byte) : (s.setReg r b).run = s.run := rfl
@[simp] theorem State.setReg_params (s : State) (r : Reg) (b : Byte) : (s.setReg r b).params = s.params := rfl
@[simp] theorem State.setReg_draws (s : State) (r : Reg) (b : Byte) : (s.setReg r b).draws = s.draws := rfl
@[simp] theorem State.setReg_pixel (s : State) (r : Reg) (b : Byte) (r' : Row) (c' : Col) : (s.setReg r b).pixel r' c' = s.pixel r' c' := rfl
@[simp] theorem State.setReg_key (s : State) (r : Reg) (b : Byte) (k' : Key) : (s.setReg r b).key k' = s.key k' := rfl
@[simp] theorem State.setReg_readByte (s : State) (r : Reg) (b : Byte) (a' : Nat) : (s.setReg r b).readByte a' = s.readByte a' := rfl

/-! `State.advance` -/

@[simp] theorem State.advance_v (s : State) : (s.advance).v = s.v := rfl
@[simp] theorem State.advance_i (s : State) : (s.advance).i = s.i := rfl
@[simp] theorem State.advance_pc (s : State) : (s.advance).pc = s.pc + 2 := rfl
@[simp] theorem State.advance_stack (s : State) : (s.advance).stack = s.stack := rfl
@[simp] theorem State.advance_mem (s : State) : (s.advance).mem = s.mem := rfl
@[simp] theorem State.advance_disp (s : State) : (s.advance).disp = s.disp := rfl
@[simp] theorem State.advance_dirty (s : State) : (s.advance).dirty = s.dirty := rfl
@[simp] theorem State.advance_dt (s : State) : (s.advance).dt = s.dt := rfl
@[simp] theorem State.advance_st (s : State) : (s.advance).st = s.st := rfl
@[simp] theorem State.advance_keys (s : State) : (s.advance).keys = s.keys := rfl
@[simp] theorem State.advance_run (s : State) : (s.advance).run = s.run := rfl
@[simp] theorem State.advance_params (s : State) : (s.advance).params = s.params := rfl
@[simp] theorem State.advance_draws (s : State) : (s.advance).draws = s.draws := rfl
@[simp] theorem State.advance_pixel (s : State) (r' : Row) (c' : Col) : (s.advance).pixel r' c' = s.pixel r' c' := rfl
@[simp] theorem State.advance_key (s : State) (k' : Key) : (s.advance).key k' = s.key k' := rfl
@[simp] theorem State.advance_readByte (s : State) (a' : Nat) : (s.advance).readByte a' = s.readByte a' := rfl
@[simp] theorem State.advance_reg (s : State) (r' : Reg) : (s.advance).reg r' = s.reg r' := rfl

/-! `State.skipIf` -/

@[simp] theorem State.skipIf_v (s : State) (taken : Bool) : (s.skipIf taken).v = s.v := rfl
@[simp] theorem State.skipIf_i (s : State) (taken : Bool) : (s.skipIf taken).i = s.i := rfl
@[simp] theorem State.skipIf_pc (s : State) (taken : Bool) : (s.skipIf taken).pc = if taken then s.pc + 4 else s.pc + 2 := rfl
@[simp] theorem State.skipIf_stack (s : State) (taken : Bool) : (s.skipIf taken).stack = s.stack := rfl
@[simp] theorem State.skipIf_mem (s : State) (taken : Bool) : (s.skipIf taken).mem = s.mem := rfl
@[simp] theorem State.skipIf_disp (s : State) (taken : Bool) : (s.skipIf taken).disp = s.disp := rfl
@[simp] theorem State.skipIf_dirty (s : State) (taken : Bool) : (s.skipIf taken).dirty = s.dirty := rfl
@[simp] theorem State.skipIf_dt (s : State) (taken : Bool) : (s.skipIf taken).dt = s.dt := rfl
@[simp] theorem State.skipIf_st (s : State) (taken : Bool) : (s.skipIf taken).st = s.st := rfl
@[simp] theorem State.skipIf_keys (s : State) (taken : Bool) : (s.skipIf taken).keys = s.keys := rfl
@[simp] theorem State.skipIf_run (s : State) (taken : Bool) : (s.skipIf taken).run = s.run := rfl
@[simp] theorem State.skipIf_params (s : State) (taken : Bool) : (s.skipIf taken).params = s.params := rfl
@[simp] theorem State.skipIf_draws (s : State) (taken : Bool) : (s.skipIf taken).draws = s.draws := rfl
@[simp] theorem State.skipIf_pixel (s : State) (taken : Bool) (r' : Row) (c' : Col) : (s.skipIf taken).pixel r' c' = s.pixel r' c' := rfl
@[simp] theorem State.skipIf_key (s : State) (taken : Bool) (k' : Key) : (s.skipIf taken).key k' = s.key k' := rfl
@[simp] theorem State.skipIf_readByte (s : State) (taken : Bool) (a' : Nat) : (s.skipIf taken).readByte a' = s.readByte a' := rfl
@[simp] theorem State.skipIf_reg (s : State) (taken : Bool) (r' : Reg) : (s.skipIf taken).reg r' = s.reg r' := rfl

/-! `State.writeByte` -/

@[simp] theorem State.writeByte_v (s : State) (a : Nat) (b : Byte) : (s.writeByte a b).v = s.v := rfl
@[simp] theorem State.writeByte_i (s : State) (a : Nat) (b : Byte) : (s.writeByte a b).i = s.i := rfl
@[simp] theorem State.writeByte_pc (s : State) (a : Nat) (b : Byte) : (s.writeByte a b).pc = s.pc := rfl
@[simp] theorem State.writeByte_stack (s : State) (a : Nat) (b : Byte) : (s.writeByte a b).stack = s.stack := rfl
@[simp] theorem State.writeByte_mem (s : State) (a : Nat) (b : Byte) : (s.writeByte a b).mem = Memory.write s.params.font s.mem a b := rfl
@[simp] theorem State.writeByte_disp (s : State) (a : Nat) (b : Byte) : (s.writeByte a b).disp = s.disp := rfl
@[simp] theorem State.writeByte_dirty (s : State) (a : Nat) (b : Byte) : (s.writeByte a b).dirty = s.dirty := rfl
@[simp] theorem State.writeByte_dt (s : State) (a : Nat) (b : Byte) : (s.writeByte a b).dt = s.dt := rfl
@[simp] theorem State.writeByte_st (s : State) (a : Nat) (b : Byte) : (s.writeByte a b).st = s.st := rfl
@[simp] theorem State.writeByte_keys (s : State) (a : Nat) (b : Byte) : (s.writeByte a b).keys = s.keys := rfl
@[simp] theorem State.writeByte_run (s : State) (a : Nat) (b : Byte) : (s.writeByte a b).run = s.run := rfl
@[simp] theorem State.writeByte_params (s : State) (a : Nat) (b : Byte) : (s.writeByte a b).params = s.params := rfl
@[simp] theorem State.writeByte_draws (s : State) (a : Nat) (b : Byte) : (s.writeByte a b).draws = s.draws := rfl
@[simp] theorem State.writeByte_pixel (s : State) (a : Nat) (b : Byte) (r' : Row) (c' : Col) : (s.writeByte a b).pixel r' c' = s.pixel r' c' := rfl
@[simp] theorem State.writeByte_key (s : State) (a : Nat) (b : Byte) (k' : Key) : (s.writeByte a b).key k' = s.key k' := rfl
@[simp] theorem State.writeByte_reg (s : State) (a : Nat) (b : Byte) (r' : Reg) : (s.writeByte a b).reg r' = s.reg r' := rfl

/-! `State.push` -/

@[simp] theorem State.push_v (s : State) (a : Word) : (s.push a).v = s.v := rfl
@[simp] theorem State.push_i (s : State) (a : Word) : (s.push a).i = s.i := rfl
@[simp] theorem State.push_pc (s : State) (a : Word) : (s.push a).pc = s.pc := rfl
@[simp] theorem State.push_stack (s : State) (a : Word) : (s.push a).stack = s.stack ++ [a] := rfl
@[simp] theorem State.push_mem (s : State) (a : Word) : (s.push a).mem = s.mem := rfl
@[simp] theorem State.push_disp (s : State) (a : Word) : (s.push a).disp = s.disp := rfl
@[simp] theorem State.push_dirty (s : State) (a : Word) : (s.push a).dirty = s.dirty := rfl
@[simp] theorem State.push_dt (s : State) (a : Word) : (s.push a).dt = s.dt := rfl
@[simp] theorem State.push_st (s : State) (a : Word) : (s.push a).st = s.st := rfl
@[simp] theorem State.push_keys (s : State) (a : Word) : (s.push a).keys = s.keys := rfl
@[simp] theorem State.push_run (s : State) (a : Word) : (s.push a).run = s.run := rfl
@[simp] theorem State.push_params (s : State) (a : Word) : (s.push a).params = s.params := rfl
@[simp] theorem State.push_draws (s : State) (a : Word) : (s.push a).draws = s.draws := rfl
@[simp] theorem State.push_pixel (s : State) (a : Word) (r' : Row) (c' : Col) : (s.push a).pixel r' c' = s.pixel r' c' := rfl
@[simp] theorem State.push_key (s : State) (a : Word) (k' : Key) : (s.push a).key k' = s.key k' := rfl
@[simp] theorem State.push_readByte (s : State) (a : Word) (a' : Nat) : (s.push a).readByte a' = s.readByte a' := rfl
@[simp] theorem State.push_reg (s : State) (a : Word) (r' : Reg) : (s.push a).reg r' = s.reg r' := rfl

/-! `State.halt` -/

@[simp] theorem State.halt_v (s : State) (e : HaltReason) : (s.halt e).v = s.v := rfl
@[simp] theorem State.halt_i (s : State) (e : HaltReason) : (s.halt e).i = s.i := rfl
@[simp] theorem State.halt_pc (s : State) (e : HaltReason) : (s.halt e).pc = s.pc := rfl
@[simp] theorem State.halt_stack (s : State) (e : HaltReason) : (s.halt e).stack = s.stack := rfl
@[simp] theorem State.halt_mem (s : State) (e : HaltReason) : (s.halt e).mem = s.mem := rfl
@[simp] theorem State.halt_disp (s : State) (e : HaltReason) : (s.halt e).disp = s.disp := rfl
@[simp] theorem State.halt_dirty (s : State) (e : HaltReason) : (s.halt e).dirty = s.dirty := rfl
@[simp] theorem State.halt_dt (s : State) (e : HaltReason) : (s.halt e).dt = s.dt := rfl
@[simp] theorem State.halt_st (s : State) (e : HaltReason) : (s.halt e).st = s.st := rfl
@[simp] theorem State.halt_keys (s : State) (e : HaltReason) : (s.halt e).keys = s.keys := rfl
@[simp] theorem State.halt_run (s : State) (e : HaltReason) : (s.halt e).run = .halted e := rfl
@[simp] theorem State.halt_params (s : State) (e : HaltReason) : (s.halt e).params = s.params := rfl
@[simp] theorem State.halt_draws (s : State) (e : HaltReason) : (s.halt e).draws = s.draws := rfl
@[simp] theorem State.halt_pixel (s : State) (e : HaltReason) (r' : Row) (c' : Col) : (s.halt e).pixel r' c' = s.pixel r' c' := rfl
@[simp] theorem State.halt_key (s : State) (e : HaltReason) (k' : Key) : (s.halt e).key k' = s.key k' := rfl
@[simp] theorem State.halt_readByte (s : State) (e : HaltReason) (a' : Nat) : (s.halt e).readByte a' = s.readByte a' := rfl
@[simp] theorem State.halt_reg (s : State) (e : HaltReason) (r' : Reg) : (s.halt e).reg r' = s.reg r' := rfl

/-! `State.clearDirty` -/

@[simp] theorem State.clearDirty_v (s : State) : (s.clearDirty).v = s.v := rfl
@[simp] theorem State.clearDirty_i (s : State) : (s.clearDirty).i = s.i := rfl
@[simp] theorem State.clearDirty_pc (s : State) : (s.clearDirty).pc = s.pc := rfl
@[simp] theorem State.clearDirty_stack (s : State) : (s.clearDirty).stack = s.stack := rfl
@[simp] theorem State.clearDirty_mem (s : State) : (s.clearDirty).mem = s.mem := rfl
@[simp] theorem State.clearDirty_disp (s : State) : (s.clearDirty).disp = s.disp := rfl
@[simp] theorem State.clearDirty_dirty (s : State) : (s.clearDirty).dirty = false := rfl
@[simp] theorem State.clearDirty_dt (s : State) : (s.clearDirty).dt = s.dt := rfl
@[simp] theorem State.clearDirty_st (s : State) : (s.clearDirty).st = s.st := rfl
@[simp] theorem State.clearDirty_keys (s : State) : (s.clearDirty).keys = s.keys := rfl
@[simp] theorem State.clearDirty_run (s : State) : (s.clearDirty).run = s.run := rfl
@[simp] theorem State.clearDirty_params (s : State) : (s.clearDirty).params = s.params := rfl
@[simp] theorem State.clearDirty_draws (s : State) : (s.clearDirty).draws = s.draws := rfl
@[simp] theorem State.clearDirty_pixel (s : State) (r' : Row) (c' : Col) : (s.clearDirty).pixel r' c' = s.pixel r' c' := rfl
@[simp] theorem State.clearDirty_key (s : State) (k' : Key) : (s.clearDirty).key k' = s.key k' := rfl
@[simp] theorem State.clearDirty_readByte (s : State) (a' : Nat) : (s.clearDirty).readByte a' = s.readByte a' := rfl
@[simp] theorem State.clearDirty_reg (s : State) (r' : Reg) : (s.clearDirty).reg r' = s.reg r' := rfl

/-! `State.setFlag` -/

@[simp] theorem State.setFlag_v (s : State) (f : Bool) : (s.setFlag f).v = s.v.set vf.val (flagByte f) := rfl
@[simp] theorem State.setFlag_i (s : State) (f : Bool) : (s.setFlag f).i = s.i := rfl
@[simp] theorem State.setFlag_pc (s : State) (f : Bool) : (s.setFlag f).pc = s.pc := rfl
@[simp] theorem State.setFlag_stack (s : State) (f : Bool) : (s.setFlag f).stack = s.stack := rfl
@[simp] theorem State.setFlag_mem (s : State) (f : Bool) : (s.setFlag f).mem = s.mem := rfl
@[simp] theorem State.setFlag_disp (s : State) (f : Bool) : (s.setFlag f).disp = s.disp := rfl
@[simp] theorem State.setFlag_dirty (s : State) (f : Bool) : (s.setFlag f).dirty = s.dirty := rfl
@[simp] theorem State.setFlag_dt (s : State) (f : Bool) : (s.setFlag f).dt = s.dt := rfl
@[simp] theorem State.setFlag_st (s : State) (f : Bool) : (s.setFlag f).st = s.st := rfl
@[simp] theorem State.setFlag_keys (s : State) (f : Bool) : (s.setFlag f).keys = s.keys := rfl
@[simp] theorem State.setFlag_run (s : State) (f : Bool) : (s.setFlag f).run = s.run := rfl
@[simp] theorem State.setFlag_params (s : State) (f : Bool) : (s.setFlag f).params = s.params := rfl
@[simp] theorem State.setFlag_draws (s : State) (f : Bool) : (s.setFlag f).draws = s.draws := rfl
@[simp] theorem State.setFlag_pixel (s : State) (f : Bool) (r' : Row) (c' : Col) : (s.setFlag f).pixel r' c' = s.pixel r' c' := rfl
@[simp] theorem State.setFlag_key (s : State) (f : Bool) (k' : Key) : (s.setFlag f).key k' = s.key k' := rfl
@[simp] theorem State.setFlag_readByte (s : State) (f : Bool) (a' : Nat) : (s.setFlag f).readByte a' = s.readByte a' := rfl

/-! `State.putResult` -/

@[simp] theorem State.putResult_v (s : State) (x : Reg) (b : Byte) : (s.putResult x b).v = s.v.set x.val b := rfl
@[simp] theorem State.putResult_i (s : State) (x : Reg) (b : Byte) : (s.putResult x b).i = s.i := rfl
@[simp] theorem State.putResult_pc (s : State) (x : Reg) (b : Byte) : (s.putResult x b).pc = s.pc + 2 := rfl
@[simp] theorem State.putResult_stack (s : State) (x : Reg) (b : Byte) : (s.putResult x b).stack = s.stack := rfl
@[simp] theorem State.putResult_mem (s : State) (x : Reg) (b : Byte) : (s.putResult x b).mem = s.mem := rfl
@[simp] theorem State.putResult_disp (s : State) (x : Reg) (b : Byte) : (s.putResult x b).disp = s.disp := rfl
@[simp] theorem State.putResult_dirty (s : State) (x : Reg) (b : Byte) : (s.putResult x b).dirty = s.dirty := rfl
@[simp] theorem State.putResult_dt (s : State) (x : Reg) (b : Byte) : (s.putResult x b).dt = s.dt := rfl
@[simp] theorem State.putResult_st (s : State) (x : Reg) (b : Byte) : (s.putResult x b).st = s.st := rfl
@[simp] theorem State.putResult_keys (s : State) (x : Reg) (b : Byte) : (s.putResult x b).keys = s.keys := rfl
@[simp] theorem State.putResult_run (s : State) (x : Reg) (b : Byte) : (s.putResult x b).run = s.run := rfl
@[simp] theorem State.putResult_params (s : State) (x : Reg) (b : Byte) : (s.putResult x b).params = s.params := rfl
@[simp] theorem State.putResult_draws (s : State) (x : Reg) (b : Byte) : (s.putResult x b).draws = s.draws := rfl
@[simp] theorem State.putResult_pixel (s : State) (x : Reg) (b : Byte) (r' : Row) (c' : Col) : (s.putResult x b).pixel r' c' = s.pixel r' c' := rfl
@[simp] theorem State.putResult_key (s : State) (x : Reg) (b : Byte) (k' : Key) : (s.putResult x b).key k' = s.key k' := rfl
@[simp] theorem State.putResult_readByte (s : State) (x : Reg) (b : Byte) (a' : Nat) : (s.putResult x b).readByte a' = s.readByte a' := rfl

/-! `State.putResultAndFlag` -/

@[simp] theorem State.putResultAndFlag_v (s : State) (x : Reg) (b : Byte) (f : Bool) : (s.putResultAndFlag x b f).v = (s.v.set x.val b).set vf.val (flagByte f) := rfl
@[simp] theorem State.putResultAndFlag_i (s : State) (x : Reg) (b : Byte) (f : Bool) : (s.putResultAndFlag x b f).i = s.i := rfl
@[simp] theorem State.putResultAndFlag_pc (s : State) (x : Reg) (b : Byte) (f : Bool) : (s.putResultAndFlag x b f).pc = s.pc + 2 := rfl
@[simp] theorem State.putResultAndFlag_stack (s : State) (x : Reg) (b : Byte) (f : Bool) : (s.putResultAndFlag x b f).stack = s.stack := rfl
@[simp] theorem State.putResultAndFlag_mem (s : State) (x : Reg) (b : Byte) (f : Bool) : (s.putResultAndFlag x b f).mem = s.mem := rfl
@[simp] theorem State.putResultAndFlag_disp (s : State) (x : Reg) (b : Byte) (f : Bool) : (s.putResultAndFlag x b f).disp = s.disp := rfl
@[simp] theorem State.putResultAndFlag_dirty (s : State) (x : Reg) (b : Byte) (f : Bool) : (s.putResultAndFlag x b f).dirty = s.dirty := rfl
@[simp] theorem State.putResultAndFlag_dt (s : State) (x : Reg) (b : Byte) (f : Bool) : (s.putResultAndFlag x b f).dt = s.dt := rfl
@[simp] theorem State.putResultAndFlag_st (s : State) (x : Reg) (b : Byte) (f : Bool) : (s.putResultAndFlag x b f).st = s.st := rfl
@[simp] theorem State.putResultAndFlag_keys (s : State) (x : Reg) (b : Byte) (f : Bool) : (s.putResultAndFlag x b f).keys = s.keys := rfl
@[simp] theorem State.putResultAndFlag_run (s : State) (x : Reg) (b : Byte) (f : Bool) : (s.putResultAndFlag x b f).run = s.run := rfl
@[simp] theorem State.putResultAndFlag_params (s : State) (x : Reg) (b : Byte) (f : Bool) : (s.putResultAndFlag x b f).params = s.params := rfl
@[simp] theorem State.putResultAndFlag_draws (s : State) (x : Reg) (b : Byte) (f : Bool) : (s.putResultAndFlag x b f).draws = s.draws := rfl
@[simp] theorem State.putResultAndFlag_pixel (s : State) (x : Reg) (b : Byte) (f : Bool) (r' : Row) (c' : Col) : (s.putResultAndFlag x b f).pixel r' c' = s.pixel r' c' := rfl
@[simp] theorem State.putResultAndFlag_key (s : State) (x : Reg) (b : Byte) (f : Bool) (k' : Key) : (s.putResultAndFlag x b f).key k' = s.key k' := rfl
@[simp] theorem State.putResultAndFlag_readByte (s : State) (x : Reg) (b : Byte) (f : Bool) (a' : Nat) : (s.putResultAndFlag x b f).readByte a' = s.readByte a' := rfl

/-! `State.rndWith` -/

@[simp] theorem State.rndWith_v (s : State) (d : Byte) (x : Reg) (nn : Byte) : (s.rndWith d x nn).v = s.v.set x.val (d &&& nn) := rfl
@[simp] theorem State.rndWith_i (s : State) (d : Byte) (x : Reg) (nn : Byte) : (s.rndWith d x nn).i = s.i := rfl
@[simp] theorem State.rndWith_pc (s : State) (d : Byte) (x : Reg) (nn : Byte) : (s.rndWith d x nn).pc = s.pc + 2 := rfl
@[simp] theorem State.rndWith_stack (s : State) (d : Byte) (x : Reg) (nn : Byte) : (s.rndWith d x nn).stack = s.stack := rfl
@[simp] theorem State.rndWith_mem (s : State) (d : Byte) (x : Reg) (nn : Byte) : (s.rndWith d x nn).mem = s.mem := rfl
@[simp] theorem State.rndWith_disp (s : State) (d : Byte) (x : Reg) (nn : Byte) : (s.rndWith d x nn).disp = s.disp := rfl
@[simp] theorem State.rndWith_dirty (s : State) (d : Byte) (x : Reg) (nn : Byte) : (s.rndWith d x nn).dirty = s.dirty := rfl
@[simp] theorem State.rndWith_dt (s : State) (d : Byte) (x : Reg) (nn : Byte) : (s.rndWith d x nn).dt = s.dt := rfl
@[simp] theorem State.rndWith_st (s : State) (d : Byte) (x : Reg) (nn : Byte) : (s.rndWith d x nn).st = s.st := rfl
@[simp] theorem State.rndWith_keys (s : State) (d : Byte) (x : Reg) (nn : Byte) : (s.rndWith d x nn).keys = s.keys := rfl
@[simp] theorem State.rndWith_run (s : State) (d : Byte) (x : Reg) (nn : Byte) : (s.rndWith d x nn).run = s.run := rfl
@[simp] theorem State.rndWith_params (s : State) (d : Byte) (x : Reg) (nn : Byte) : (s.rndWith d x nn).params = s.params := rfl
@[simp] theorem State.rndWith_draws (s : State) (d : Byte) (x : Reg) (nn : Byte) : (s.rndWith d x nn).draws = s.draws + 1 := rfl
@[simp] theorem State.rndWith_pixel (s : State) (d : Byte) (x : Reg) (nn : Byte) (r' : Row) (c' : Col) : (s.rndWith d x nn).pixel r' c' = s.pixel r' c' := rfl
@[simp] theorem State.rndWith_key (s : State) (d : Byte) (x : Reg) (nn : Byte) (k' : Key) : (s.rndWith d x nn).key k' = s.key k' := rfl
@[simp] theorem State.rndWith_readByte (s : State) (d : Byte) (x : Reg) (nn : Byte) (a' : Nat) : (s.rndWith d x nn).readByte a' = s.readByte a' := rfl

/-! `State.finishBlit` -/

@[simp] theorem State.finishBlit_v (s : State) (b : Blit) : (s.finishBlit b).v = s.v.set vf.val (flagByte b.collision) := rfl
@[simp] theorem State.finishBlit_i (s : State) (b : Blit) : (s.finishBlit b).i = s.i := rfl
@[simp] theorem State.finishBlit_pc (s : State) (b : Blit) : (s.finishBlit b).pc = s.pc + 2 := rfl
@[simp] theorem State.finishBlit_stack (s : State) (b : Blit) : (s.finishBlit b).stack = s.stack := rfl
@[simp] theorem State.finishBlit_mem (s : State) (b : Blit) : (s.finishBlit b).mem = s.mem := rfl
@[simp] theorem State.finishBlit_disp (s : State) (b : Blit) : (s.finishBlit b).disp = b.disp := rfl
@[simp] theorem State.finishBlit_dirty (s : State) (b : Blit) : (s.finishBlit b).dirty = (s.dirty || b.changed) := rfl
@[simp] theorem State.finishBlit_dt (s : State) (b : Blit) : (s.finishBlit b).dt = s.dt := rfl
@[simp] theorem State.finishBlit_st (s : State) (b : Blit) : (s.finishBlit b).st = s.st := rfl
@[simp] theorem State.finishBlit_keys (s : State) (b : Blit) : (s.finishBlit b).keys = s.keys := rfl
@[simp] theorem State.finishBlit_run (s : State) (b : Blit) : (s.finishBlit b).run = s.run := rfl
@[simp] theorem State.finishBlit_params (s : State) (b : Blit) : (s.finishBlit b).params = s.params := rfl
@[simp] theorem State.finishBlit_draws (s : State) (b : Blit) : (s.finishBlit b).draws = s.draws := rfl
@[simp] theorem State.finishBlit_pixel (s : State) (b : Blit) (r' : Row) (c' : Col) : (s.finishBlit b).pixel r' c' = Display.pixel b.disp r' c' := rfl
@[simp] theorem State.finishBlit_key (s : State) (b : Blit) (k' : Key) : (s.finishBlit b).key k' = s.key k' := rfl
@[simp] theorem State.finishBlit_readByte (s : State) (b : Blit) (a' : Nat) : (s.finishBlit b).readByte a' = s.readByte a' := rfl

/-! `State.setKey` -/

@[simp] theorem State.setKey_v (s : State) (k : Key) (p : Bool) : (s.setKey k p).v = s.v := rfl
@[simp] theorem State.setKey_i (s : State) (k : Key) (p : Bool) : (s.setKey k p).i = s.i := rfl
@[simp] theorem State.setKey_pc (s : State) (k : Key) (p : Bool) : (s.setKey k p).pc = s.pc := rfl
@[simp] theorem State.setKey_stack (s : State) (k : Key) (p : Bool) : (s.setKey k p).stack = s.stack := rfl
@[simp] theorem State.setKey_mem (s : State) (k : Key) (p : Bool) : (s.setKey k p).mem = s.mem := rfl
@[simp] theorem State.setKey_disp (s : State) (k : Key) (p : Bool) : (s.setKey k p).disp = s.disp := rfl
@[simp] theorem State.setKey_dirty (s : State) (k : Key) (p : Bool) : (s.setKey k p).dirty = s.dirty := rfl
@[simp] theorem State.setKey_dt (s : State) (k : Key) (p : Bool) : (s.setKey k p).dt = s.dt := rfl
@[simp] theorem State.setKey_st (s : State) (k : Key) (p : Bool) : (s.setKey k p).st = s.st := rfl
@[simp] theorem State.setKey_keys (s : State) (k : Key) (p : Bool) : (s.setKey k p).keys = s.keys.set k.val p := rfl
@[simp] theorem State.setKey_run (s : State) (k : Key) (p : Bool) : (s.setKey k p).run = s.run := rfl
@[simp] theorem State.setKey_params (s : State) (k : Key) (p : Bool) : (s.setKey k p).params = s.params := rfl
@[simp] theorem State.setKey_draws (s : State) (k : Key) (p : Bool) : (s.setKey k p).draws = s.draws := rfl
@[simp] theorem State.setKey_pixel (s : State) (k : Key) (p : Bool) (r' : Row) (c' : Col) : (s.setKey k p).pixel r' c' = s.pixel r' c' := rfl
@[simp] theorem State.setKey_readByte (s : State) (k : Key) (p : Bool) (a' : Nat) : (s.setKey k p).readByte a' = s.readByte a' := rfl
@[simp] theorem State.setKey_reg (s : State) (k : Key) (p : Bool) (r' : Reg) : (s.setKey k p).reg r' = s.reg r' := rfl

/-! `State.loadRegsUpTo` (only `v` is written; its registers are `State.loadRegsUpTo_reg` in Laws/Operations.lean) -/

@[simp] theorem State.loadRegsUpTo_i (s : State) (x : Reg) : (s.loadRegsUpTo x).i = s.i := rfl
@[simp] theorem State.loadRegsUpTo_pc (s : State) (x : Reg) : (s.loadRegsUpTo x).pc = s.pc := rfl
@[simp] theorem State.loadRegsUpTo_stack (s : State) (x : Reg) : (s.loadRegsUpTo x).stack = s.stack := rfl
@[simp] theorem State.loadRegsUpTo_mem (s : State) (x : Reg) : (s.loadRegsUpTo x).mem = s.mem := rfl
@[simp] theorem State.loadRegsUpTo_disp (s : State) (x : Reg) : (s.loadRegsUpTo x).disp = s.disp := rfl
@[simp] theorem State.loadRegsUpTo_dirty (s : State) (x : Reg) : (s.loadRegsUpTo x).dirty = s.dirty := rfl
@[simp] theorem State.loadRegsUpTo_dt (s : State) (x : Reg) : (s.loadRegsUpTo x).dt = s.dt := rfl
@[simp] theorem State.loadRegsUpTo_st (s : State) (x : Reg) : (s.loadRegsUpTo x).st = s.st := rfl
@[simp] theorem State.loadRegsUpTo_keys (s : State) (x : Reg) : (s.loadRegsUpTo x).keys = s.keys := rfl
@[simp] theorem State.loadRegsUpTo_run (s : State) (x : Reg) : (s.loadRegsUpTo x).run = s.run := rfl
@[simp] theorem State.loadRegsUpTo_params (s : State) (x : Reg) : (s.loadRegsUpTo x).params = s.params := rfl
@[simp] theorem State.loadRegsUpTo_draws (s : State) (x : Reg) : (s.loadRegsUpTo x).draws = s.draws := rfl
@[simp] theorem State.loadRegsUpTo_pixel (s : State) (x : Reg) (r' : Row) (c' : Col) : (s.loadRegsUpTo x).pixel r' c' = s.pixel r' c' := rfl
@[simp] theorem State.loadRegsUpTo_key (s : State) (x : Reg) (k' : Key) : (s.loadRegsUpTo x).key k' = s.key k' := rfl
@[simp] theorem State.loadRegsUpTo_readByte (s : State) (x : Reg) (a' : Nat) : (s.loadRegsUpTo x).readByte a' = s.readByte a' := rfl

/-! ### The registers after a register write -/

@[simp] theorem State.setReg_reg_same (s : State) (r : Reg) (b : Byte) : (s.setReg r b).reg r = b := by
  simp [State.reg, State.setReg]

theorem State.setReg_reg_other (s : State) (r r' : Reg) (b : Byte) (h : r' ≠ r) :
    (s.setReg r b).reg r' = s.reg r' := by
  have hv : r.val ≠ r'.val := fun e => h (Fin.ext e.symm)
  simp [State.reg, State.setReg, Vector.getElem_set_ne, hv]

theorem State.setReg_reg (s : State) (r r' : Reg) (b : Byte) :
    (s.setReg r b).reg r' = if r' = r then b else s.reg r' := by
  split
  · next h => rw [h, State.setReg_reg_same]
  · next h => exact State.setReg_reg_other s r r' b h

theorem State.setFlag_reg (s : State) (f : Bool) (r : Reg) :
    (s.setFlag f).reg r = if r = vf then flagByte f else s.reg r :=
  State.setReg_reg s vf r (flagByte f)

theorem State.putResult_reg (s : State) (x : Reg) (b : Byte) (r : Reg) :
    (s.putResult x b).reg r = if r = x then b else s.reg r :=
  State.setReg_reg s x r b

theorem State.putResultAndFlag_reg (s : State) (x : Reg) (b : Byte) (f : Bool) (r : Reg) :
    (s.putResultAndFlag x b f).reg r = if r = vf then flagByte f else if r = x then b else s.reg r := by
  rw [← State.setReg_reg s x r b]
  exact State.setFlag_reg (s.setReg x b) f r

theorem State.rndWith_reg (s : State) (d : Byte) (x : Reg) (nn : Byte) (r : Reg) :
    (s.rndWith d x nn).reg r = if r = x then d &&& nn else s.reg r :=
  State.setReg_reg s x r (d &&& nn)

theorem State.finishBlit_reg (s : State) (b : Blit) (r : Reg) :
    (s.finishBlit b).reg r = if r = vf then flagByte b.collision else s.reg r :=
  State.setFlag_reg s b.collision r

/-! ### The key latch after SET_KEY -/

theorem State.setKey_key (s : State) (k k' : Key) (p : Bool) :
    (s.setKey k p).key k' = if k' = k then p else s.key k' := by
  by_cases h : k' = k
  · subst h; simp [State.key, State.setKey]
  · have hv : k.val ≠ k'.val := fun e => h (Fin.ext e.symm)
    simp [State.key, State.setKey, Vector.getElem_set_ne, hv, h]

end Sys2Proof.Machine
end

