-- ==== Sys2Proof/Laws/Memory.lean ====
section
/-! SUPPORT. The laws of memory: what a byte reads as after a store, that every store keeps the canonical form, and
that a canonical memory is determined by its bytes. The first two hold of every list, canonical or not. -/

namespace Sys2Proof.Machine

/-! ### Read after insert and write -/

theorem Memory.read_insert_other (font : Vector Byte 80) (a b : Nat) (v : Byte) (m : Memory) (h : b ≠ a) :
    Memory.read font (Memory.insert a v m) b = Memory.read font m b := by
  induction m with
  | nil => simp [Memory.insert, Memory.read, h]
  | cons c rest ih =>
    obtain ⟨k, w⟩ := c
    by_cases hk : a < k
    · simp [Memory.insert, Memory.read, hk, h]
    · simp only [Memory.insert, hk, if_false, Memory.read, ih]

theorem Memory.read_insert_same (font : Vector Byte 80) (a : Nat) (v : Byte) (m : Memory)
    (h : ∀ c ∈ m, c.1 ≠ a) : Memory.read font (Memory.insert a v m) a = v := by
  induction m with
  | nil => simp [Memory.insert, Memory.read]
  | cons c rest ih =>
    obtain ⟨k, w⟩ := c
    have hk : a ≠ k := fun e => h (k, w) (by simp) e.symm
    have hr := ih fun c hc => h c (by simp [hc])
    by_cases hlt : a < k
    · simp [Memory.insert, Memory.read, hlt]
    · simp [Memory.insert, Memory.read, hlt, hk, hr]

theorem Memory.read_filter_other (font : Vector Byte 80) (a b : Nat) (m : Memory) (h : b ≠ a) :
    Memory.read font (m.filter fun c => c.1 != a) b = Memory.read font m b := by
  induction m with
  | nil => rfl
  | cons c rest ih =>
    obtain ⟨k, w⟩ := c
    by_cases hk : k = a
    · have hb : b ≠ k := hk ▸ h
      simp [Memory.read, hk, ih, h]
    · simp [Memory.read, hk, ih]

theorem Memory.read_unlisted (font : Vector Byte 80) (a : Nat) (m : Memory) (h : ∀ c ∈ m, c.1 ≠ a) :
    Memory.read font m a = Memory.resetByte font a := by
  induction m with
  | nil => rfl
  | cons c rest ih =>
    obtain ⟨k, w⟩ := c
    have hk : a ≠ k := fun e => h (k, w) (by simp) e.symm
    simp [Memory.read, hk, ih fun c hc => h c (by simp [hc])]

theorem Memory.mem_filter_ne {a : Nat} {m : Memory} : ∀ c ∈ m.filter (fun c => c.1 != a), c.1 ≠ a := by
  intro c hc
  simpa using (List.mem_filter.mp hc).2

/-- A byte just stored reads as the value stored (R65). -/
@[simp] theorem Memory.read_write_same (font : Vector Byte 80) (m : Memory) (a : Nat) (v : Byte) :
    Memory.read font (Memory.write font m a v) a = v := by
  by_cases h : v = Memory.resetByte font a
  · simp only [Memory.write, h, if_true]
    exact Memory.read_unlisted font a _ Memory.mem_filter_ne
  · simp only [Memory.write, h, if_false]
    exact Memory.read_insert_same font a v _ Memory.mem_filter_ne

/-- A store leaves every other byte alone (R65). -/
theorem Memory.read_write_other (font : Vector Byte 80) (m : Memory) (a b : Nat) (v : Byte) (h : b ≠ a) :
    Memory.read font (Memory.write font m a v) b = Memory.read font m b := by
  by_cases hv : v = Memory.resetByte font a
  · simp only [Memory.write, hv, if_true]
    exact Memory.read_filter_other font a b m h
  · simp only [Memory.write, hv, if_false]
    rw [Memory.read_insert_other font a b v _ h, Memory.read_filter_other font a b m h]

/-! ### The canonical form -/

/-- The memory of RESET is in canonical form. -/
theorem Memory.wf_nil (font : Vector Byte 80) : Memory.wf font [] := by simp [Memory.wf]

theorem Memory.mem_insert (a : Nat) (v : Byte) (m : Memory) (c : Host.Cell) :
    c ∈ Memory.insert a v m ↔ c = (a, v) ∨ c ∈ m := by
  induction m with
  | nil => simp [Memory.insert]
  | cons d rest ih =>
    obtain ⟨k, w⟩ := d
    by_cases hk : a < k
    · simp [Memory.insert, hk]
    · simp only [Memory.insert, hk, if_false, List.mem_cons, ih]
      exact or_left_comm

theorem Memory.pairwise_insert (a : Nat) (v : Byte) (m : Memory) (hm : m.Pairwise fun c d => c.1 < d.1)
    (h : ∀ c ∈ m, c.1 ≠ a) : (Memory.insert a v m).Pairwise fun c d => c.1 < d.1 := by
  induction m with
  | nil => simp [Memory.insert]
  | cons d rest ih =>
    obtain ⟨k, w⟩ := d
    obtain ⟨hd, hr⟩ := List.pairwise_cons.mp hm
    by_cases hk : a < k
    · simp only [Memory.insert, hk, if_true]
      refine List.pairwise_cons.mpr ⟨fun c hc => ?_, hm⟩
      obtain rfl | hc := List.mem_cons.mp hc
      · exact hk
      · exact Nat.lt_trans hk (hd c hc)
    · have hka : k < a := Nat.lt_of_le_of_ne (Nat.le_of_not_lt hk) (h (k, w) (by simp))
      simp only [Memory.insert, hk, if_false]
      refine List.pairwise_cons.mpr ⟨fun c hc => ?_, ih hr fun c hc => h c (by simp [hc])⟩
      obtain rfl | hc := (Memory.mem_insert a v rest c).mp hc
      · exact hka
      · exact hd c hc

/-- A store to an existing address keeps the canonical form. -/
theorem Memory.wf_write (font : Vector Byte 80) (m : Memory) (a : Nat) (v : Byte) (hm : Memory.wf font m)
    (ha : a < 4096) : Memory.wf font (Memory.write font m a v) := by
  obtain ⟨hp, hc⟩ := hm
  have hpf : (m.filter fun c => c.1 != a).Pairwise fun c d => c.1 < d.1 := hp.filter _
  have hcf : ∀ c ∈ m.filter (fun c => c.1 != a), c.1 < 4096 ∧ c.2 ≠ Memory.resetByte font c.1 :=
    fun c h => hc c (List.mem_filter.mp h).1
  by_cases hv : v = Memory.resetByte font a
  · simp only [Memory.write, hv, if_true]
    exact ⟨hpf, hcf⟩
  · simp only [Memory.write, hv, if_false]
    refine ⟨Memory.pairwise_insert a v _ hpf Memory.mem_filter_ne, fun c h => ?_⟩
    obtain rfl | h := (Memory.mem_insert a v _ c).mp h
    · exact ⟨ha, hv⟩
    · exact hcf c h

/-! ### Bytes of the state -/

theorem State.writeByte_readByte (s : State) (a b : Nat) (v : Byte) :
    (s.writeByte a v).readByte b = if b = a then v else s.readByte b := by
  by_cases h : b = a
  · subst h; simp [State.readByte]
  · simp [State.readByte, h, Memory.read_write_other]

/-- Everything a run of stores does not touch is as it was: it changes memory alone. -/
theorem State.writeBytes_eq (s : State) (base : Nat) (bs : List Byte) :
    s.writeBytes base bs = { s with mem := (s.writeBytes base bs).mem } := by
  induction bs generalizing s base with
  | nil => rfl
  | cons b rest ih => rw [State.writeBytes, ih]; rfl

@[simp] theorem State.writeBytes_v (s : State) (base : Nat) (bs : List Byte) :
    (s.writeBytes base bs).v = s.v := by rw [State.writeBytes_eq]

@[simp] theorem State.writeBytes_i (s : State) (base : Nat) (bs : List Byte) :
    (s.writeBytes base bs).i = s.i := by rw [State.writeBytes_eq]

@[simp] theorem State.writeBytes_pc (s : State) (base : Nat) (bs : List Byte) :
    (s.writeBytes base bs).pc = s.pc := by rw [State.writeBytes_eq]

@[simp] theorem State.writeBytes_stack (s : State) (base : Nat) (bs : List Byte) :
    (s.writeBytes base bs).stack = s.stack := by rw [State.writeBytes_eq]

@[simp] theorem State.writeBytes_disp (s : State) (base : Nat) (bs : List Byte) :
    (s.writeBytes base bs).disp = s.disp := by rw [State.writeBytes_eq]

@[simp] theorem State.writeBytes_dirty (s : State) (base : Nat) (bs : List Byte) :
    (s.writeBytes base bs).dirty = s.dirty := by rw [State.writeBytes_eq]

@[simp] theorem State.writeBytes_dt (s : State) (base : Nat) (bs : List Byte) :
    (s.writeBytes base bs).dt = s.dt := by rw [State.writeBytes_eq]

@[simp] theorem State.writeBytes_st (s : State) (base : Nat) (bs : List Byte) :
    (s.writeBytes base bs).st = s.st := by rw [State.writeBytes_eq]

@[simp] theorem State.writeBytes_keys (s : State) (base : Nat) (bs : List Byte) :
    (s.writeBytes base bs).keys = s.keys := by rw [State.writeBytes_eq]

@[simp] theorem State.writeBytes_run (s : State) (base : Nat) (bs : List Byte) :
    (s.writeBytes base bs).run = s.run := by rw [State.writeBytes_eq]

@[simp] theorem State.writeBytes_params (s : State) (base : Nat) (bs : List Byte) :
    (s.writeBytes base bs).params = s.params := by rw [State.writeBytes_eq]

@[simp] theorem State.writeBytes_draws (s : State) (base : Nat) (bs : List Byte) :
    (s.writeBytes base bs).draws = s.draws := by rw [State.writeBytes_eq]

@[simp] theorem State.writeBytes_reg (s : State) (base : Nat) (bs : List Byte) (r : Reg) :
    (s.writeBytes base bs).reg r = s.reg r := by simp [State.reg]

@[simp] theorem State.writeBytes_pixel (s : State) (base : Nat) (bs : List Byte) (r : Row) (c : Col) :
    (s.writeBytes base bs).pixel r c = s.pixel r c := by simp [State.pixel]

@[simp] theorem State.writeBytes_key (s : State) (base : Nat) (bs : List Byte) (k : Key) :
    (s.writeBytes base bs).key k = s.key k := by simp [State.key]

/-- What every byte reads as after a run of stores: byte `k` of the list at `base + k`, all else as before (R63). -/
theorem State.writeBytes_readByte (s : State) (base : Nat) (bs : List Byte) (a : Nat) :
    (s.writeBytes base bs).readByte a =
      if h : base ≤ a ∧ a - base < bs.length then bs[a - base] else s.readByte a := by
  induction bs generalizing s base with
  | nil => simp [State.writeBytes]
  | cons b rest ih =>
    rw [State.writeBytes, ih, State.writeByte_readByte]
    by_cases h₁ : base + 1 ≤ a ∧ a - (base + 1) < rest.length
    · have h₂ : base ≤ a ∧ a - base < (b :: rest).length := by simp only [List.length_cons]; omega
      have h₃ : a - base = a - (base + 1) + 1 := by omega
      rw [dif_pos h₁, dif_pos h₂]
      simp only [h₃, List.getElem_cons_succ]
    · rw [dif_neg h₁]
      by_cases h₂ : a = base
      · subst h₂; simp
      · rw [if_neg h₂, dif_neg]
        simp only [List.length_cons]; omega

/-- A run of stores to existing addresses keeps the canonical form. -/
theorem State.wf_writeBytes (s : State) (base : Nat) (bs : List Byte) (hs : Memory.wf s.params.font s.mem)
    (h : bs.length = 0 ∨ base + bs.length ≤ 4096) :
    Memory.wf s.params.font (s.writeBytes base bs).mem := by
  induction bs generalizing s base with
  | nil => exact hs
  | cons b rest ih =>
    simp only [List.length_cons] at h
    exact ih (s.writeByte base b) (base + 1) (Memory.wf_write s.params.font s.mem base b hs (by omega)) (by omega)

@[simp] theorem State.length_readBytes (s : State) (base len : Nat) : (s.readBytes base len).length = len := by
  induction len generalizing base with
  | zero => rfl
  | succ len ih => simp [State.readBytes, ih]

@[simp] theorem State.getElem_readBytes (s : State) (base len k : Nat) (h : k < (s.readBytes base len).length) :
    (s.readBytes base len)[k] = s.readByte (base + k) := by
  induction len generalizing base k with
  | zero => simp [State.readBytes] at h
  | succ len ih =>
    cases k with
    | zero => rfl
    | succ k =>
      simp only [State.readBytes, List.getElem_cons_succ, ih]
      congr 1; omega

/-! ### Bounds (R66) -/

/-- An access exists exactly when it touches no byte or its last address is at most 4095. -/
theorem accessible_iff (base len : Nat) : accessible base len = true ↔ len = 0 ∨ base + len - 1 ≤ 4095 := by
  rw [accessible, Bool.or_eq_true, beq_iff_eq, decide_eq_true_eq, Config.memSize]
  omega

/-- Everything an instruction with a memory access can do: its effect when the bytes exist, else the fault. -/
theorem ifAccessible_eq (base len : Nat) (effect : State) :
    ifAccessible base len effect =
      if len = 0 ∨ base + len - 1 ≤ 4095 then .next effect else .fault .memoryBounds := by
  simp only [ifAccessible, accessible_iff]

/-- Runs of bytes read the same from memories that read the same. -/
theorem State.readBytes_congr (s t : State) (h : ∀ a, t.readByte a = s.readByte a) (base len : Nat) :
    t.readBytes base len = s.readBytes base len := by
  induction len generalizing base with
  | zero => rfl
  | succ len ih => rw [State.readBytes, State.readBytes, h, ih]

/-- Stores of the same bytes give the same memory, whatever the rest of the state is. -/
theorem State.writeBytes_mem_congr (s t : State) (hf : t.params.font = s.params.font) (hm : t.mem = s.mem) (base : Nat)
    (bs : List Byte) : (t.writeBytes base bs).mem = (s.writeBytes base bs).mem := by
  induction bs generalizing s t base with
  | nil => exact hm
  | cons b rest ih =>
    rw [State.writeBytes, State.writeBytes]
    refine ih (s.writeByte base b) (t.writeByte base b) hf ?_ (base + 1)
    simp only [State.writeByte, hf, hm]

end Sys2Proof.Machine
end

