-- ==== Sys2Proof/Laws/Operations.lean ====
section
/-! SUPPORT. One lemma for each operand form that says what it gives: widened immediates, register ranges, decimal
digits, glyph addresses, key numbers and the choice among pressed keys. -/

namespace Sys2Proof.Machine

/-! ### Immediates and glyph addresses -/

@[simp] theorem addrWord_toNat (nnn : Addr) : (addrWord nnn).toNat = nnn.toNat := by
  simp [addrWord]
  omega

@[simp] theorem byteWord_toNat (b : Byte) : (byteWord b).toNat = b.toNat := by
  simp [byteWord]
  omega

theorem glyphAddr_toNat (d : Byte) : (glyphAddr d).toNat = 5 * d.toNat := by
  have h := d.isLt
  simp [glyphAddr]
  omega

/-! ### Register ranges (R204, R205) -/

@[simp] theorem State.length_regsUpTo (s : State) (x : Reg) : (s.regsUpTo x).length = x.val + 1 := by
  have h := x.isLt
  simp [State.regsUpTo, regCount]

theorem State.getElem_regsUpTo (s : State) (x : Reg) (k : Nat) (h : k < (s.regsUpTo x).length) :
    (s.regsUpTo x)[k] = s.reg ⟨k, by simp at h; omega⟩ := by
  simp [State.regsUpTo, State.reg]

/-- Registers 0 to `x` come from memory, the others are untouched (R205). -/
theorem State.loadRegsUpTo_reg (s : State) (x r : Reg) :
    (s.loadRegsUpTo x).reg r = if r ≤ x then s.readByte (s.i.toNat + r.val) else s.reg r := by
  simp [State.loadRegsUpTo, State.reg, State.indexAddr]

/-! ### Decimal digits (R203) -/

@[simp] theorem length_decimalDigits (b : Byte) : (decimalDigits b).length = 3 := rfl

theorem decimalDigits_toNat (b : Byte) :
    (decimalDigits b).map BitVec.toNat = [b.toNat / 100, b.toNat / 10 % 10, b.toNat % 10] := by
  have h := b.isLt
  simp [decimalDigits]
  omega

/-! ### Keys (R154, R190) -/

/-- A register numbers key `k` exactly when it holds `k`. -/
theorem keyOf_eq_some (b : Byte) (k : Key) : keyOf b = some k ↔ k.val = b.toNat := by
  by_cases h : b.toNat < 16
  · simp only [keyOf, h, dite_true, Option.some.injEq, Fin.ext_iff]
    exact eq_comm
  · have hk := k.isLt
    simp only [keyOf, h, dite_false, false_iff, reduceCtorEq]
    omega

/-- A register numbers no key exactly when it holds more than 15. -/
theorem keyOf_eq_none (b : Byte) : keyOf b = none ↔ b.toNat > 15 := by
  by_cases h : b.toNat < 16
  · simp [keyOf, h]; omega
  · simp [keyOf, h]; omega

@[simp] theorem mem_pressedKeys (s : State) (k : Key) : k ∈ pressedKeys s.keys ↔ s.key k = true := by
  simp [pressedKeys, State.key]

/-- No key is picked exactly when none is pressed. -/
theorem pickKey_eq_none (rank : Nat) (ks : List Key) : pickKey rank ks = none ↔ ks = [] := by
  match ks with
  | [] => simp [pickKey]
  | [k] => simp [pickKey]
  | k :: l :: rest =>
    have h : rank % (rest.length + 2) < rest.length + 2 := Nat.mod_lt _ (by omega)
    simp [pickKey]
    omega

/-- The key picked is one of those pressed, whatever the rank (R190: the result is a member of `P`). -/
theorem pickKey_mem (rank : Nat) (ks : List Key) (k : Key) (h : pickKey rank ks = some k) : k ∈ ks := by
  match ks, h with
  | [l], h => simpa [pickKey, eq_comm] using h
  | a :: l :: rest, h => exact List.mem_of_getElem? h

/-- Every choice is some implementation's: each pressed key is picked at some rank. -/
theorem exists_pickKey (ks : List Key) (k : Key) (h : k ∈ ks) : ∃ rank, pickKey rank ks = some k := by
  match ks, h with
  | [l], h => exact ⟨0, by simpa [pickKey, eq_comm] using h⟩
  | a :: l :: rest, h =>
    obtain ⟨n, hn, rfl⟩ := List.getElem_of_mem h
    refine ⟨n, ?_⟩
    simp only [List.length_cons] at hn
    rw [pickKey, Nat.mod_eq_of_lt (by omega)]
    exact List.getElem?_eq_getElem (by simpa using hn)

/-- Rank 0 is the default `KEY_SELECT`: the first of the list (R8). -/
theorem pickKey_zero (ks : List Key) : pickKey 0 ks = ks.head? := by
  match ks with
  | [] => rfl
  | [k] => rfl
  | k :: l :: rest => simp [pickKey]

/-- Everything LD Vx,K can do: nothing while no key is pressed, else the number of a pressed key to `V[x]` and the
default advance (R190). -/
theorem State.waitKeyWith_cases (s : State) (rank : Nat) (x : Reg) :
    ((∀ k, s.key k = false) ∧ s.waitKeyWith rank x = s) ∨
    (∃ k, s.key k = true ∧ pickKey rank (pressedKeys s.keys) = some k ∧
      s.waitKeyWith rank x = s.putResult x (BitVec.ofNat 8 k.val)) := by
  cases h : pickKey rank (pressedKeys s.keys) with
  | none =>
    refine .inl ⟨fun k => ?_, by simp only [State.waitKeyWith, h]⟩
    have hk : k ∉ pressedKeys s.keys := by simp [(pickKey_eq_none _ _).mp h]
    simpa using hk
  | some k =>
    exact .inr ⟨k, (mem_pressedKeys s k).mp (pickKey_mem _ _ _ h), rfl, by simp only [State.waitKeyWith, h]⟩

end Sys2Proof.Machine
end

