-- ==== Sys2Proof/Laws/Blit.lean ====
section
/-! SUPPORT. What the two loops of DRW come to: the pixels under a 1 bit of the sprite are flipped, each once, because
no two bits of one sprite fall on the same pixel (R183); the collision flag is an old pixel among them; a pixel changed
when there is one. -/

namespace Sys2Proof.Machine

/-! ### One pixel flipped -/

theorem Display.pixel_flip (d : Display) (r r' : Row) (c c' : Col) :
    Display.pixel (Display.flip d r c) r' c' =
      if r' = r ∧ c' = c then !Display.pixel d r c else Display.pixel d r' c' := by
  by_cases hr : r' = r
  · subst hr
    by_cases hc : c' = c
    · subst hc; simp [Display.pixel, Display.flip]
    · have hv : c.val ≠ c'.val := fun e => hc (Fin.ext e.symm)
      simp [Display.pixel, Display.flip, hc, Vector.getElem_set_ne, hv]
  · have hv : r.val ≠ r'.val := fun e => hr (Fin.ext e.symm)
    simp [Display.pixel, Display.flip, hr, Vector.getElem_set_ne, hv]

/-! ### The pixels a sprite flips, in the order of the loops -/

/-- The pixels under the 1 bits of sprite byte `byte` at sprite row `row`, over the columns listed. -/
def hitCols (x0 y0 : Byte) (row : Nat) (byte : Byte) (cols : List Nat) : List (Row × Col) :=
  (cols.filter fun col => spriteBit byte col).map fun col => (wrapRow y0 row, wrapCol x0 col)

/-- The pixels under the 1 bits of the sprite bytes from sprite row `row` on. -/
def hitRows (x0 y0 : Byte) : Nat → List Byte → List (Row × Col)
  | _, [] => []
  | row, byte :: rest => hitCols x0 y0 row byte (List.range 8) ++ hitRows x0 y0 (row + 1) rest

/-- Flip the listed pixels one after the other. -/
def Blit.flipAll (b : Blit) (ps : List (Row × Col)) : Blit := ps.foldl (fun acc p => acc.xorPixel p.1 p.2) b

theorem blitCols_eq (x0 y0 : Byte) (row : Nat) (byte : Byte) (cols : List Nat) (b : Blit) :
    blitCols x0 y0 row byte cols b = b.flipAll (hitCols x0 y0 row byte cols) := by
  induction cols generalizing b with
  | nil => rfl
  | cons col cols ih =>
    rw [blitCols, ih]
    by_cases h : spriteBit byte col <;> simp [h, hitCols, Blit.flipAll]

theorem blitRows_eq (x0 y0 : Byte) (row : Nat) (sprite : List Byte) (b : Blit) :
    blitRows x0 y0 row sprite b = b.flipAll (hitRows x0 y0 row sprite) := by
  induction sprite generalizing row b with
  | nil => rfl
  | cons byte rest ih => rw [blitRows, ih, blitCols_eq, hitRows, Blit.flipAll, Blit.flipAll, Blit.flipAll,
      List.foldl_append]

/-- A pixel is flipped exactly when the sprite has a 1 bit on it. -/
theorem mem_hitRows (x0 y0 : Byte) (row : Nat) (sprite : List Byte) (p : Row × Col) :
    p ∈ hitRows x0 y0 row sprite ↔
      ∃ k, ∃ h : k < sprite.length, ∃ col < 8, spriteBit sprite[k] col = true ∧
        p = (wrapRow y0 (row + k), wrapCol x0 col) := by
  induction sprite generalizing row with
  | nil => simp [hitRows]
  | cons byte rest ih =>
    rw [hitRows, List.mem_append, ih]
    constructor
    · rintro (h | ⟨k, hk, col, hcol, hbit, rfl⟩)
      · obtain ⟨col, hcol, rfl⟩ := List.mem_map.mp h
        obtain ⟨hlt, hbit⟩ := List.mem_filter.mp hcol
        exact ⟨0, by simp, col, List.mem_range.mp hlt, by simpa using hbit, rfl⟩
      · refine ⟨k + 1, by simpa using hk, col, hcol, by simpa using hbit, ?_⟩
        rw [show row + (k + 1) = row + 1 + k by omega]
    · rintro ⟨k, hk, col, hcol, hbit, rfl⟩
      cases k with
      | zero =>
        exact .inl (List.mem_map.mpr ⟨col, List.mem_filter.mpr ⟨List.mem_range.mpr hcol, by simpa using hbit⟩, rfl⟩)
      | succ k =>
        refine .inr ⟨k, by simpa using hk, col, hcol, by simpa using hbit, ?_⟩
        rw [show row + (k + 1) = row + 1 + k by omega]

theorem wrapCol_inj (x0 : Byte) (a b : Nat) (ha : a < 8) (hb : b < 8) (h : wrapCol x0 a = wrapCol x0 b) : a = b := by
  have h' := congrArg Fin.val h
  simp only [wrapCol] at h'
  omega

theorem wrapRow_inj (y0 : Byte) (a b : Nat) (h₁ : a ≤ b) (h₂ : b < a + 32) (h : wrapRow y0 a = wrapRow y0 b) :
    a = b := by
  have h' := congrArg Fin.val h
  simp only [wrapRow] at h'
  omega

/-- No pixel is flipped twice: a sprite is 8 pixels wide and less than 32 rows high (R183). -/
theorem nodup_hitRows (x0 y0 : Byte) (row : Nat) (sprite : List Byte) (h : sprite.length ≤ 32) :
    (hitRows x0 y0 row sprite).Nodup := by
  induction sprite generalizing row with
  | nil => exact List.nodup_nil
  | cons byte rest ih =>
    simp only [List.length_cons] at h
    refine List.nodup_append.mpr ⟨?_, ih (row + 1) (by omega), ?_⟩
    · refine List.Nodup.map_on ?_ (List.nodup_range.filter _)
      intro a ha b hb hab
      exact wrapCol_inj x0 a b (List.mem_range.mp (List.mem_filter.mp ha).1)
        (List.mem_range.mp (List.mem_filter.mp hb).1) (congrArg Prod.snd hab)
    · rintro p hp q hq rfl
      obtain ⟨col, -, rfl⟩ := List.mem_map.mp hp
      obtain ⟨k, hk, col', -, -, he⟩ := (mem_hitRows ..).mp hq
      have := wrapRow_inj y0 row (row + 1 + k) (by omega) (by omega) (congrArg Prod.fst he)
      omega

/-! ### Flipping pixels, none of them twice -/

theorem Blit.flipAll_pixel (b : Blit) (ps : List (Row × Col)) (h : ps.Nodup) (r : Row) (c : Col) :
    Display.pixel (b.flipAll ps).disp r c = (Display.pixel b.disp r c ^^ decide ((r, c) ∈ ps)) := by
  induction ps generalizing b with
  | nil => simp [Blit.flipAll]
  | cons p ps ih =>
    obtain ⟨hp, hps⟩ := List.nodup_cons.mp h
    have hstep : b.flipAll (p :: ps) = (b.xorPixel p.1 p.2).flipAll ps := rfl
    rw [hstep, ih _ hps]
    simp only [Blit.xorPixel, Display.pixel_flip]
    by_cases he : (r, c) = p
    · subst he; simp [hp]
    · have hn : ¬ (r = p.1 ∧ c = p.2) := fun e => he (Prod.ext e.1 e.2)
      simp [hn, he]

theorem Blit.flipAll_collision (b : Blit) (ps : List (Row × Col)) (h : ps.Nodup) :
    (b.flipAll ps).collision = true ↔
      b.collision = true ∨ ∃ p ∈ ps, Display.pixel b.disp p.1 p.2 = true := by
  induction ps generalizing b with
  | nil => simp [Blit.flipAll]
  | cons p ps ih =>
    obtain ⟨hp, hps⟩ := List.nodup_cons.mp h
    have hstep : b.flipAll (p :: ps) = (b.xorPixel p.1 p.2).flipAll ps := rfl
    have hother : ∀ q ∈ ps, Display.pixel (b.xorPixel p.1 p.2).disp q.1 q.2 = Display.pixel b.disp q.1 q.2 := by
      intro q hq
      have hn : ¬ (q.1 = p.1 ∧ q.2 = p.2) := fun e => hp (Prod.ext e.1 e.2 ▸ hq)
      simp [Blit.xorPixel, Display.pixel_flip, hn]
    rw [hstep, ih _ hps]
    simp only [List.exists_mem_cons_iff]
    have hex : (∃ q ∈ ps, Display.pixel (b.xorPixel p.1 p.2).disp q.1 q.2 = true) ↔
        ∃ q ∈ ps, Display.pixel b.disp q.1 q.2 = true :=
      exists_congr fun q => and_congr_right fun hq => by rw [hother q hq]
    rw [hex]
    simp [Blit.xorPixel, or_assoc]

theorem Blit.flipAll_changed (b : Blit) (ps : List (Row × Col)) :
    (b.flipAll ps).changed = true ↔ b.changed = true ∨ ps ≠ [] := by
  induction ps generalizing b with
  | nil => simp [Blit.flipAll]
  | cons p ps ih =>
    have hstep : b.flipAll (p :: ps) = (b.xorPixel p.1 p.2).flipAll ps := rfl
    rw [hstep, ih]
    simp [Blit.xorPixel]

/-! ### The whole blit -/

/-- The sprite has a 1 bit on pixel `(r, c)` when its corner is at column `x0`, row `y0` (R182). -/
def spriteOn (x0 y0 : Byte) (sprite : List Byte) (r : Row) (c : Col) : Prop :=
  ∃ k, ∃ h : k < sprite.length, ∃ col < 8, spriteBit sprite[k] col = true ∧ wrapRow y0 k = r ∧ wrapCol x0 col = c

theorem mem_hitRows_zero (x0 y0 : Byte) (sprite : List Byte) (r : Row) (c : Col) :
    (r, c) ∈ hitRows x0 y0 0 sprite ↔ spriteOn x0 y0 sprite r c := by
  simp only [mem_hitRows, spriteOn, Nat.zero_add, Prod.mk.injEq, eq_comm]

/-- The display after a blit: each pixel XOR the sprite bit on it (R181, R182). -/
theorem blit_pixel (x0 y0 : Byte) (sprite : List Byte) (d : Display) (h : sprite.length ≤ 32) (r : Row) (c : Col) :
    (spriteOn x0 y0 sprite r c → Display.pixel (blit x0 y0 sprite d).disp r c = !Display.pixel d r c) ∧
    (¬ spriteOn x0 y0 sprite r c → Display.pixel (blit x0 y0 sprite d).disp r c = Display.pixel d r c) := by
  rw [blit, blitRows_eq, Blit.flipAll_pixel _ _ (nodup_hitRows x0 y0 0 sprite h)]
  simp only [← mem_hitRows_zero]
  exact ⟨fun hm => by simp [hm], fun hm => by simp [hm]⟩

/-- The collision flag of a blit: the sprite has a 1 bit on a pixel that was set (R183). -/
theorem blit_collision (x0 y0 : Byte) (sprite : List Byte) (d : Display) (h : sprite.length ≤ 32) :
    (blit x0 y0 sprite d).collision = true ↔
      ∃ r c, spriteOn x0 y0 sprite r c ∧ Display.pixel d r c = true := by
  rw [blit, blitRows_eq, Blit.flipAll_collision _ _ (nodup_hitRows x0 y0 0 sprite h)]
  simp only [Bool.false_eq_true, false_or, Prod.exists, mem_hitRows_zero]

/-- Whether a blit changed a pixel: the sprite has a 1 bit (R184). -/
theorem blit_changed (x0 y0 : Byte) (sprite : List Byte) (d : Display) :
    (blit x0 y0 sprite d).changed = true ↔ ∃ r c, spriteOn x0 y0 sprite r c := by
  rw [blit, blitRows_eq, Blit.flipAll_changed]
  simp only [Bool.false_eq_true, false_or, ← mem_hitRows_zero]
  constructor
  · intro h
    obtain ⟨⟨r, c⟩, hp⟩ := List.exists_mem_of_ne_nil _ h
    exact ⟨r, c, hp⟩
  · rintro ⟨r, c, hp⟩
    exact List.ne_nil_of_mem hp

end Sys2Proof.Machine
end

