-- ==== Sys2Proof/Laws/Decode.lean ====
section
/-! SUPPORT. What the fields of an encoded word are: each format gives back the operands it was built from. -/

namespace Sys2Proof

@[simp] theorem regOfBits_bitsOfReg (r : Reg) : regOfBits (bitsOfReg r) = r := rfl

@[simp] theorem bitsOfReg_regOfBits (b : BitVec 4) : bitsOfReg (regOfBits b) = b := rfl

/-! ### The bits of a word of each format -/

theorem getLsbD_formatNNN (op : BitVec 4) (nnn : Addr) (i : Nat) :
    (formatNNN op nnn).getLsbD i = if i < 12 then nnn.getLsbD i else op.getLsbD (i - 12) :=
  BitVec.getLsbD_append

theorem getLsbD_formatXNN (op : BitVec 4) (x : Reg) (nn : Byte) (i : Nat) :
    (formatXNN op x nn).getLsbD i =
      if i < 8 then nn.getLsbD i
      else if i - 8 < 4 then (bitsOfReg x).getLsbD (i - 8) else op.getLsbD (i - 8 - 4) := by
  rw [← BitVec.getLsbD_append]
  exact BitVec.getLsbD_append

theorem getLsbD_formatXYN (op : BitVec 4) (x y : Reg) (n : BitVec 4) (i : Nat) :
    (formatXYN op x y n).getLsbD i =
      if i < 4 then n.getLsbD i
      else if i - 4 < 4 then (bitsOfReg y).getLsbD (i - 4)
      else if i - 4 - 4 < 4 then (bitsOfReg x).getLsbD (i - 4 - 4) else op.getLsbD (i - 4 - 4 - 4) := by
  rw [← BitVec.getLsbD_append, ← BitVec.getLsbD_append]
  exact BitVec.getLsbD_append

theorem getLsbD_wordOfBytes (high low : Byte) (i : Nat) :
    (wordOfBytes high low).getLsbD i = if i < 8 then low.getLsbD i else high.getLsbD (i - 8) :=
  BitVec.getLsbD_append

/-! ### The fields of a word of each format -/

@[simp] theorem fieldOp_formatNNN (op : BitVec 4) (nnn : Addr) : fieldOp (formatNNN op nnn) = op := by
  apply BitVec.eq_of_getLsbD_eq
  intro i hi
  simp [fieldOp, getLsbD_formatNNN, hi]

@[simp] theorem fieldNNN_formatNNN (op : BitVec 4) (nnn : Addr) : fieldNNN (formatNNN op nnn) = nnn := by
  apply BitVec.eq_of_getLsbD_eq
  intro i hi
  simp [fieldNNN, getLsbD_formatNNN, hi]

@[simp] theorem fieldOp_formatXNN (op : BitVec 4) (x : Reg) (nn : Byte) : fieldOp (formatXNN op x nn) = op := by
  apply BitVec.eq_of_getLsbD_eq
  intro i hi
  have h : 12 + i - 8 - 4 = i := by omega
  simp [fieldOp, getLsbD_formatXNN, hi, h, show ¬ 12 + i < 8 by omega,
    show ¬ 12 + i - 8 < 4 by omega]

@[simp] theorem regX_formatXNN (op : BitVec 4) (x : Reg) (nn : Byte) : regX (formatXNN op x nn) = x := by
  have h : fieldX (formatXNN op x nn) = bitsOfReg x := by
    apply BitVec.eq_of_getLsbD_eq
    intro i hi
    simp [fieldX, getLsbD_formatXNN, hi]
  rw [regX, h, regOfBits_bitsOfReg]

@[simp] theorem fieldNN_formatXNN (op : BitVec 4) (x : Reg) (nn : Byte) : fieldNN (formatXNN op x nn) = nn := by
  apply BitVec.eq_of_getLsbD_eq
  intro i hi
  simp [fieldNN, getLsbD_formatXNN, hi]

@[simp] theorem fieldOp_formatXYN (op : BitVec 4) (x y : Reg) (n : BitVec 4) : fieldOp (formatXYN op x y n) = op := by
  apply BitVec.eq_of_getLsbD_eq
  intro i hi
  have h : 12 + i - 4 - 4 - 4 = i := by omega
  simp [fieldOp, getLsbD_formatXYN, hi, h, show ¬ 12 + i < 4 by omega,
    show ¬ 12 + i - 4 < 4 by omega, show ¬ 12 + i - 4 - 4 < 4 by omega]

@[simp] theorem regX_formatXYN (op : BitVec 4) (x y : Reg) (n : BitVec 4) : regX (formatXYN op x y n) = x := by
  have h : fieldX (formatXYN op x y n) = bitsOfReg x := by
    apply BitVec.eq_of_getLsbD_eq
    intro i hi
    have h₁ : 8 + i - 4 - 4 = i := by omega
    simp [fieldX, getLsbD_formatXYN, hi, h₁, show ¬ 8 + i < 4 by omega,
      show ¬ 8 + i - 4 < 4 by omega]
  rw [regX, h, regOfBits_bitsOfReg]

@[simp] theorem regY_formatXYN (op : BitVec 4) (x y : Reg) (n : BitVec 4) : regY (formatXYN op x y n) = y := by
  have h : fieldY (formatXYN op x y n) = bitsOfReg y := by
    apply BitVec.eq_of_getLsbD_eq
    intro i hi
    simp [fieldY, getLsbD_formatXYN, hi]
  rw [regY, h, regOfBits_bitsOfReg]

@[simp] theorem fieldN_formatXYN (op : BitVec 4) (x y : Reg) (n : BitVec 4) : fieldN (formatXYN op x y n) = n := by
  apply BitVec.eq_of_getLsbD_eq
  intro i hi
  simp [fieldN, getLsbD_formatXYN, hi]

/-! ### A word is its fields (R91) -/

/-- Format `NNN` read back: every bit of the word is in one of its two fields. -/
theorem formatNNN_fields (w : Word) : formatNNN (fieldOp w) (fieldNNN w) = w := by
  apply BitVec.eq_of_getLsbD_eq
  intro i hi
  rw [getLsbD_formatNNN]
  split
  · simp [fieldNNN, *]
  · simp [fieldOp, show i - 12 < 4 by omega, show 12 + (i - 12) = i by omega]

/-- Format `XNN` read back. -/
theorem formatXNN_fields (w : Word) : formatXNN (fieldOp w) (regX w) (fieldNN w) = w := by
  apply BitVec.eq_of_getLsbD_eq
  intro i hi
  rw [getLsbD_formatXNN, regX, bitsOfReg_regOfBits]
  split
  · simp [fieldNN, *]
  split
  · simp [fieldX, show i - 8 < 4 by omega, show 8 + (i - 8) = i by omega]
  · simp [fieldOp, show i - 8 - 4 < 4 by omega, show 12 + (i - 8 - 4) = i by omega]

/-- Format `XYN` read back. -/
theorem formatXYN_fields (w : Word) : formatXYN (fieldOp w) (regX w) (regY w) (fieldN w) = w := by
  apply BitVec.eq_of_getLsbD_eq
  intro i hi
  rw [getLsbD_formatXYN, regX, regY, bitsOfReg_regOfBits, bitsOfReg_regOfBits]
  split
  · simp [fieldN, *]
  split
  · simp [fieldY, show i - 4 < 4 by omega, show 4 + (i - 4) = i by omega]
  split
  · simp [fieldX, show i - 4 - 4 < 4 by omega, show 8 + (i - 4 - 4) = i by omega]
  · simp [fieldOp, show i - 4 - 4 - 4 < 4 by omega, show 12 + (i - 4 - 4 - 4) = i by omega]

/-! ### A word is its two bytes (R62) -/

@[simp] theorem wordOfBytes_bytes (w : Word) : wordOfBytes (highByte w) (lowByte w) = w := by
  apply BitVec.eq_of_getLsbD_eq
  intro i hi
  rw [getLsbD_wordOfBytes]
  split
  · next h => simp [lowByte, h]
  · next h => simp [highByte, show i - 8 < 8 by omega, show 8 + (i - 8) = i by omega]

@[simp] theorem highByte_wordOfBytes (high low : Byte) : highByte (wordOfBytes high low) = high := by
  apply BitVec.eq_of_getLsbD_eq
  intro i hi
  simp [highByte, getLsbD_wordOfBytes, hi]

@[simp] theorem lowByte_wordOfBytes (high low : Byte) : lowByte (wordOfBytes high low) = low := by
  apply BitVec.eq_of_getLsbD_eq
  intro i hi
  simp [lowByte, getLsbD_wordOfBytes, hi]

/-- A list of at least two bytes decodes as its first word does. -/
theorem decodeBytes_cons (high low : Byte) (rest : List Byte) :
    decodeBytes (high :: low :: rest) = (decode (wordOfBytes high low)).map fun i => (i, rest) := by
  rw [decodeBytes]
  cases decode (wordOfBytes high low) <;> rfl

end Sys2Proof
end

