-- ==== Sys2Proof/Laws/Exec.lean ====
section
/-! SUPPORT. The inversion lemmas of the step: everything an instruction can do when it gives a next state, and
everything STEP can do. -/

namespace Sys2Proof.Machine

/-- A fetch is possible exactly when both bytes of the word exist (R66, R120). -/
theorem State.canFetch_iff (s : State) : s.canFetch = true ↔ s.pc.toNat + 1 ≤ 4095 := by
  rw [State.canFetch, accessible_iff]
  omega

@[simp] theorem State.clearDirty_canFetch (s : State) : s.clearDirty.canFetch = s.canFetch := rfl

@[simp] theorem State.clearDirty_fetchWord (s : State) : s.clearDirty.fetchWord = s.fetchWord := rfl

/-- Everything an instruction can do when it gives a next state: its guard, and the state it leaves, in the named
operations. Proofs over all instructions cite this and unfold no meaning. -/
theorem exec_next_cases (i : Instr) (s t : State) (h : exec i s = .next t) :
    match i with
  | .sys _ => t = s.halt .decodeHalt
  | .cls => t = { s with disp := Display.blank, dirty := true }.advance
  | .ret => (s.stack = [] ∧ t = s.halt .stackUnderflow) ∨
      (∃ l a, s.stack = l ++ [a] ∧ t = { s with stack := l, pc := a })
  | .jp nnn => t = {s with pc := addrWord nnn}
  | .call nnn => (s.stack.length = s.params.stackDepth ∧ t = s.halt .stackOverflow) ∨
      (s.stack.length ≠ s.params.stackDepth ∧ t = { s.push (s.pc + 2) with pc := addrWord nnn })
  | .seImm x nn => t = s.skipIf (s.reg x == nn)
  | .sneImm x nn => t = s.skipIf (s.reg x != nn)
  | .seReg x y => t = s.skipIf (s.reg x == s.reg y)
  | .sneReg x y => t = s.skipIf (s.reg x != s.reg y)
  | .ldImm x nn => t = s.putResult x nn
  | .addImm x nn => t = s.putResult x (s.reg x + nn)
  | .ldReg x y => t = s.putResult x (s.reg y)
  | .orReg x y => t = s.putResult x (s.reg x ||| s.reg y)
  | .andReg x y => t = s.putResult x (s.reg x &&& s.reg y)
  | .xorReg x y => t = s.putResult x (s.reg x ^^^ s.reg y)
  | .addReg x y => t = s.putResultAndFlag x (s.reg x + s.reg y) (carryOf (s.reg x) (s.reg y))
  | .subReg x y => t = s.putResultAndFlag x (s.reg x - s.reg y) (notBorrowOf (s.reg x) (s.reg y))
  | .shr x _ => t = s.putResultAndFlag x (s.reg x >>> 1) (lowBitOf (s.reg x))
  | .subnReg x y => t = s.putResultAndFlag x (s.reg y - s.reg x) (notBorrowOf (s.reg y) (s.reg x))
  | .shl x _ => t = s.putResultAndFlag x (s.reg x <<< 1) (highBitOf (s.reg x))
  | .ldI nnn => t = { s with i := addrWord nnn }.advance
  | .jpV0 nnn => t = { s with pc := addrWord nnn + byteWord (s.reg 0) }
  | .rnd x nn => t = s.rndWith (Config.draw s.draws) x nn
  | .drw x y n => (n.toNat = 0 ∨ s.i.toNat + n.toNat - 1 ≤ 4095) ∧
      t = s.finishBlit (blit (s.reg x) (s.reg y) (s.readBytes s.i.toNat n.toNat) s.disp)
  | .skp x => ∃ k : Key, k.val = (s.reg x).toNat ∧ t = s.skipIf (s.key k)
  | .sknp x => ∃ k : Key, k.val = (s.reg x).toNat ∧ t = s.skipIf (!s.key k)
  | .ldVxDt x => t = s.putResult x s.dt
  | .ldVxK x => t = s.waitKeyWith (Config.keyRank s.keys) x
  | .ldDtVx x => t = { s with dt := s.reg x }.advance
  | .ldStVx x => t = { s with st := s.reg x }.advance
  | .addI x => t = { s with i := s.i + byteWord (s.reg x) }.advance
  | .ldF x => (s.reg x).toNat ≤ 15 ∧ t = { s with i := glyphAddr (s.reg x) }.advance
  | .ldB x => s.i.toNat + 2 ≤ 4095 ∧ t = (s.writeBytes s.i.toNat (decimalDigits (s.reg x))).advance
  | .dumpRegs x => s.i.toNat + x.val ≤ 4095 ∧ t = (s.writeBytes s.i.toNat (s.regsUpTo x)).advance
  | .loadRegs x => s.i.toNat + x.val ≤ 4095 ∧ t = (s.loadRegsUpTo x).advance := by
  cases i
  case ret =>
    simp only [exec, execRet] at h ⊢
    cases hs : s.stack.getLast? with
    | none =>
      simp [hs] at h
      simp at hs
      exact .inl ⟨hs, h.symm⟩
    | some a =>
      simp [hs] at h
      obtain ⟨l, hl⟩ := List.getLast?_eq_some_iff.mp hs
      refine .inr ⟨l, a, hl, ?_⟩
      rw [← h, hl]; simp
  case call =>
    simp only [exec, execCall] at h ⊢
    by_cases hd : s.sp = s.params.stackDepth
    · rw [if_pos hd] at h; cases h; exact .inl ⟨hd, rfl⟩
    · rw [if_neg hd] at h; cases h; exact .inr ⟨hd, rfl⟩
  case drw =>
    simp only [exec, execDrw, ifAccessible_eq, State.indexAddr, Nat.add_zero] at h ⊢
    split at h <;> simp_all
  case ldB =>
    simp only [exec, execLdB, ifAccessible_eq, State.indexAddr, Nat.add_zero] at h ⊢
    split at h <;> simp_all
  case dumpRegs =>
    simp only [exec, execDumpRegs, ifAccessible_eq, State.indexAddr, regCount, Nat.add_zero] at h ⊢
    split at h <;> simp_all
  case loadRegs =>
    simp only [exec, execLoadRegs, ifAccessible_eq, State.indexAddr, regCount, Nat.add_zero] at h ⊢
    split at h <;> simp_all
  case ldF =>
    simp only [exec, execLdF] at h ⊢
    split at h <;> simp_all
  case skp x =>
    simp only [exec, execSkp] at h ⊢
    cases hk : keyOf (s.reg x) <;> simp [hk] at h
    exact ⟨_, (keyOf_eq_some _ _).mp hk, h.symm⟩
  case sknp x =>
    simp only [exec, execSknp] at h ⊢
    cases hk : keyOf (s.reg x) <;> simp [hk] at h
    exact ⟨_, (keyOf_eq_some _ _).mp hk, h.symm⟩
  all_goals (cases h; rfl)

/-- Everything STEP can do when it gives a next state: stand still when halted; execute the decoded instruction; halt
on an Invalid word (R120, R121, R129). -/
theorem step_next_cases (s t : State) (h : step s = .next t) :
    (∃ r, s.run = .halted r ∧ t = s) ∨
    (s.run = .running ∧ s.pc.toNat + 1 ≤ 4095 ∧
      ((∃ i, decode s.fetchWord = .ok i ∧ exec i s.clearDirty = .next t) ∨
       (∃ e, decode s.fetchWord = .error e ∧ t = s.clearDirty.halt .decodeHalt))) := by
  cases hr : s.run with
  | halted r =>
    simp only [step, hr] at h
    cases h
    exact .inl ⟨r, rfl, rfl⟩
  | running =>
    by_cases hc : s.canFetch = true
    · have hc' : s.clearDirty.canFetch = true := hc
      simp only [step, hr, if_pos hc', State.clearDirty_fetchWord] at h
      refine .inr ⟨rfl, s.canFetch_iff.mp hc, ?_⟩
      cases hd : decode s.fetchWord with
      | ok i => exact .inl ⟨i, rfl, by simpa only [hd] using h⟩
      | error e =>
        simp only [hd, execInvalid] at h
        cases h
        exact .inr ⟨e, rfl, rfl⟩
    · have hc' : ¬ s.clearDirty.canFetch = true := hc
      simp only [step, hr, if_neg hc'] at h
      cases h

end Sys2Proof.Machine
end

