-- ==== Sys2Proof/Laws/PerInstr.lean ====
section
/-! SUPPORT. The per-instruction family `EncodingFitsRow`: the word of every instruction fits a row of the opcode table
of R96, and that row's reading of the word is the instruction. One lemma for each constructor of `Instr`. -/

namespace Sys2Proof

/-! ### A word of each format under the masks of R96 -/

theorem formatNNN_masked (op : BitVec 4) (nnn : Addr) : formatNNN op nnn &&& 0xF000#16 = op ++ 0x000#12 := by
  have h : op &&& 0xF#4 = op := BitVec.and_allOnes
  rw [show 0xF000#16 = 0xF#4 ++ 0x000#12 from rfl, formatNNN, BitVec.and_append, h, BitVec.and_zero]

theorem formatXNN_maskedOp (op : BitVec 4) (x : Reg) (nn : Byte) :
    formatXNN op x nn &&& 0xF000#16 = op ++ 0x0#4 ++ 0x00#8 := by
  have h : op &&& 0xF#4 = op := BitVec.and_allOnes
  rw [show 0xF000#16 = 0xF#4 ++ 0x0#4 ++ 0x00#8 from rfl, formatXNN, BitVec.and_append, BitVec.and_append, h,
    BitVec.and_zero, BitVec.and_zero]

theorem formatXNN_maskedLow (op : BitVec 4) (x : Reg) (nn : Byte) :
    formatXNN op x nn &&& 0xF0FF#16 = op ++ 0x0#4 ++ nn := by
  have h : op &&& 0xF#4 = op := BitVec.and_allOnes
  have h' : nn &&& 0xFF#8 = nn := BitVec.and_allOnes
  rw [show 0xF0FF#16 = 0xF#4 ++ 0x0#4 ++ 0xFF#8 from rfl, formatXNN, BitVec.and_append, BitVec.and_append, h, h',
    BitVec.and_zero]

theorem formatXYN_maskedOp (op : BitVec 4) (x y : Reg) (n : BitVec 4) :
    formatXYN op x y n &&& 0xF000#16 = op ++ 0x0#4 ++ 0x0#4 ++ 0x0#4 := by
  have h : op &&& 0xF#4 = op := BitVec.and_allOnes
  rw [show 0xF000#16 = 0xF#4 ++ 0x0#4 ++ 0x0#4 ++ 0x0#4 from rfl, formatXYN, BitVec.and_append, BitVec.and_append,
    BitVec.and_append, h, BitVec.and_zero, BitVec.and_zero, BitVec.and_zero]

theorem formatXYN_maskedLow (op : BitVec 4) (x y : Reg) (n : BitVec 4) :
    formatXYN op x y n &&& 0xF00F#16 = op ++ 0x0#4 ++ 0x0#4 ++ n := by
  have h : op &&& 0xF#4 = op := BitVec.and_allOnes
  have h' : n &&& 0xF#4 = n := BitVec.and_allOnes
  rw [show 0xF00F#16 = 0xF#4 ++ 0x0#4 ++ 0x0#4 ++ 0xF#4 from rfl, formatXYN, BitVec.and_append, BitVec.and_append,
    BitVec.and_append, h, h', BitVec.and_zero, BitVec.and_zero]

end Sys2Proof

namespace Sys2Proof.Laws.EncodingFitsRow

open Sys2Proof

/-- The word of the instruction fits a row of R96, and the row reads the instruction from it. -/
def Statement (i : Instr) : Prop := ∃ r ∈ opcodeTable, r.fits (encode i) = true ∧ r.build (encode i) = i

/-- A row of the table that fits and reads back, by its place in the table. -/
theorem of_row (i : Instr) (k : Nat) (h : k < opcodeTable.length)
    (hf : (encode i) &&& (opcodeTable[k]).mask = (opcodeTable[k]).value)
    (hb : (opcodeTable[k]).build (encode i) = i) : Statement i :=
  ⟨opcodeTable[k], List.getElem_mem h, by simp [OpcodeRow.fits, hf], hb⟩

theorem cls : Statement .cls := of_row _ 0 (by decide) rfl rfl

theorem ret : Statement .ret := of_row _ 1 (by decide) rfl rfl

theorem sys (nnn : Addr) : Statement (.sys nnn) :=
  of_row _ 2 (by decide) (formatNNN_masked _ _)
    (by simp [opcodeTable, opcodeRowsLow, opcodeRowsMiddle, opcodeRowsHigh, encode])

theorem jp (nnn : Addr) : Statement (.jp nnn) :=
  of_row _ 3 (by decide) (formatNNN_masked _ _)
    (by simp [opcodeTable, opcodeRowsLow, opcodeRowsMiddle, opcodeRowsHigh, encode])

theorem call (nnn : Addr) : Statement (.call nnn) :=
  of_row _ 4 (by decide) (formatNNN_masked _ _)
    (by simp [opcodeTable, opcodeRowsLow, opcodeRowsMiddle, opcodeRowsHigh, encode])

theorem seImm (x : Reg) (nn : Byte) : Statement (.seImm x nn) :=
  of_row _ 5 (by decide) (formatXNN_maskedOp _ _ _)
    (by simp [opcodeTable, opcodeRowsLow, opcodeRowsMiddle, opcodeRowsHigh, encode])

theorem sneImm (x : Reg) (nn : Byte) : Statement (.sneImm x nn) :=
  of_row _ 6 (by decide) (formatXNN_maskedOp _ _ _)
    (by simp [opcodeTable, opcodeRowsLow, opcodeRowsMiddle, opcodeRowsHigh, encode])

theorem seReg (x y : Reg) : Statement (.seReg x y) :=
  of_row _ 7 (by decide) (formatXYN_maskedLow _ _ _ _)
    (by simp [opcodeTable, opcodeRowsLow, opcodeRowsMiddle, opcodeRowsHigh, encode])

theorem ldImm (x : Reg) (nn : Byte) : Statement (.ldImm x nn) :=
  of_row _ 8 (by decide) (formatXNN_maskedOp _ _ _)
    (by simp [opcodeTable, opcodeRowsLow, opcodeRowsMiddle, opcodeRowsHigh, encode])

theorem addImm (x : Reg) (nn : Byte) : Statement (.addImm x nn) :=
  of_row _ 9 (by decide) (formatXNN_maskedOp _ _ _)
    (by simp [opcodeTable, opcodeRowsLow, opcodeRowsMiddle, opcodeRowsHigh, encode])

theorem ldReg (x y : Reg) : Statement (.ldReg x y) :=
  of_row _ 10 (by decide) (formatXYN_maskedLow _ _ _ _)
    (by simp [opcodeTable, opcodeRowsLow, opcodeRowsMiddle, opcodeRowsHigh, encode])

theorem orReg (x y : Reg) : Statement (.orReg x y) :=
  of_row _ 11 (by decide) (formatXYN_maskedLow _ _ _ _)
    (by simp [opcodeTable, opcodeRowsLow, opcodeRowsMiddle, opcodeRowsHigh, encode])

theorem andReg (x y : Reg) : Statement (.andReg x y) :=
  of_row _ 12 (by decide) (formatXYN_maskedLow _ _ _ _)
    (by simp [opcodeTable, opcodeRowsLow, opcodeRowsMiddle, opcodeRowsHigh, encode])

theorem xorReg (x y : Reg) : Statement (.xorReg x y) :=
  of_row _ 13 (by decide) (formatXYN_maskedLow _ _ _ _)
    (by simp [opcodeTable, opcodeRowsLow, opcodeRowsMiddle, opcodeRowsHigh, encode])

theorem addReg (x y : Reg) : Statement (.addReg x y) :=
  of_row _ 14 (by decide) (formatXYN_maskedLow _ _ _ _)
    (by simp [opcodeTable, opcodeRowsLow, opcodeRowsMiddle, opcodeRowsHigh, encode])

theorem subReg (x y : Reg) : Statement (.subReg x y) :=
  of_row _ 15 (by decide) (formatXYN_maskedLow _ _ _ _)
    (by simp [opcodeTable, opcodeRowsLow, opcodeRowsMiddle, opcodeRowsHigh, encode])

theorem shr (x y : Reg) : Statement (.shr x y) :=
  of_row _ 16 (by decide) (formatXYN_maskedLow _ _ _ _)
    (by simp [opcodeTable, opcodeRowsLow, opcodeRowsMiddle, opcodeRowsHigh, encode])

theorem subnReg (x y : Reg) : Statement (.subnReg x y) :=
  of_row _ 17 (by decide) (formatXYN_maskedLow _ _ _ _)
    (by simp [opcodeTable, opcodeRowsLow, opcodeRowsMiddle, opcodeRowsHigh, encode])

theorem shl (x y : Reg) : Statement (.shl x y) :=
  of_row _ 18 (by decide) (formatXYN_maskedLow _ _ _ _)
    (by simp [opcodeTable, opcodeRowsLow, opcodeRowsMiddle, opcodeRowsHigh, encode])

theorem sneReg (x y : Reg) : Statement (.sneReg x y) :=
  of_row _ 19 (by decide) (formatXYN_maskedLow _ _ _ _)
    (by simp [opcodeTable, opcodeRowsLow, opcodeRowsMiddle, opcodeRowsHigh, encode])

theorem ldI (nnn : Addr) : Statement (.ldI nnn) :=
  of_row _ 20 (by decide) (formatNNN_masked _ _)
    (by simp [opcodeTable, opcodeRowsLow, opcodeRowsMiddle, opcodeRowsHigh, encode])

theorem jpV0 (nnn : Addr) : Statement (.jpV0 nnn) :=
  of_row _ 21 (by decide) (formatNNN_masked _ _)
    (by simp [opcodeTable, opcodeRowsLow, opcodeRowsMiddle, opcodeRowsHigh, encode])

theorem rnd (x : Reg) (nn : Byte) : Statement (.rnd x nn) :=
  of_row _ 22 (by decide) (formatXNN_maskedOp _ _ _)
    (by simp [opcodeTable, opcodeRowsLow, opcodeRowsMiddle, opcodeRowsHigh, encode])

theorem drw (x y : Reg) (n : BitVec 4) : Statement (.drw x y n) :=
  of_row _ 23 (by decide) (formatXYN_maskedOp _ _ _ _)
    (by simp [opcodeTable, opcodeRowsLow, opcodeRowsMiddle, opcodeRowsHigh, encode])

theorem skp (x : Reg) : Statement (.skp x) :=
  of_row _ 24 (by decide) (formatXNN_maskedLow _ _ _)
    (by simp [opcodeTable, opcodeRowsLow, opcodeRowsMiddle, opcodeRowsHigh, encode])

theorem sknp (x : Reg) : Statement (.sknp x) :=
  of_row _ 25 (by decide) (formatXNN_maskedLow _ _ _)
    (by simp [opcodeTable, opcodeRowsLow, opcodeRowsMiddle, opcodeRowsHigh, encode])

theorem ldVxDt (x : Reg) : Statement (.ldVxDt x) :=
  of_row _ 26 (by decide) (formatXNN_maskedLow _ _ _)
    (by simp [opcodeTable, opcodeRowsLow, opcodeRowsMiddle, opcodeRowsHigh, encode])

theorem ldVxK (x : Reg) : Statement (.ldVxK x) :=
  of_row _ 27 (by decide) (formatXNN_maskedLow _ _ _)
    (by simp [opcodeTable, opcodeRowsLow, opcodeRowsMiddle, opcodeRowsHigh, encode])

theorem ldDtVx (x : Reg) : Statement (.ldDtVx x) :=
  of_row _ 28 (by decide) (formatXNN_maskedLow _ _ _)
    (by simp [opcodeTable, opcodeRowsLow, opcodeRowsMiddle, opcodeRowsHigh, encode])

theorem ldStVx (x : Reg) : Statement (.ldStVx x) :=
  of_row _ 29 (by decide) (formatXNN_maskedLow _ _ _)
    (by simp [opcodeTable, opcodeRowsLow, opcodeRowsMiddle, opcodeRowsHigh, encode])

theorem addI (x : Reg) : Statement (.addI x) :=
  of_row _ 30 (by decide) (formatXNN_maskedLow _ _ _)
    (by simp [opcodeTable, opcodeRowsLow, opcodeRowsMiddle, opcodeRowsHigh, encode])

theorem ldF (x : Reg) : Statement (.ldF x) :=
  of_row _ 31 (by decide) (formatXNN_maskedLow _ _ _)
    (by simp [opcodeTable, opcodeRowsLow, opcodeRowsMiddle, opcodeRowsHigh, encode])

theorem ldB (x : Reg) : Statement (.ldB x) :=
  of_row _ 32 (by decide) (formatXNN_maskedLow _ _ _)
    (by simp [opcodeTable, opcodeRowsLow, opcodeRowsMiddle, opcodeRowsHigh, encode])

theorem dumpRegs (x : Reg) : Statement (.dumpRegs x) :=
  of_row _ 33 (by decide) (formatXNN_maskedLow _ _ _)
    (by simp [opcodeTable, opcodeRowsLow, opcodeRowsMiddle, opcodeRowsHigh, encode])

theorem loadRegs (x : Reg) : Statement (.loadRegs x) :=
  of_row _ 34 (by decide) (formatXNN_maskedLow _ _ _)
    (by simp [opcodeTable, opcodeRowsLow, opcodeRowsMiddle, opcodeRowsHigh, encode])

end Sys2Proof.Laws.EncodingFitsRow
end

