-- ==== Sys2Proof/Laws/Safety.lean ====
section
/-! SUPPORT. The small lemmas of the terms of Safety.lean: the execute phase with its two open inputs as arguments, and
the pixels a sprite covers against the blit of it. -/

namespace Sys2Proof

open Machine

/-! ### The open inputs of an instruction (R14, R190) -/

@[simp] theorem Instr.execWith_rnd (x : Reg) (nn draw : Byte) (rank : Nat) (s : State) :
    (Instr.rnd x nn).execWith draw rank s = .next (s.rndWith draw x nn) := rfl

@[simp] theorem Instr.execWith_ldVxK (x : Reg) (draw : Byte) (rank : Nat) (s : State) :
    (Instr.ldVxK x).execWith draw rank s = .next (s.waitKeyWith rank x) := rfl

/-- Every other instruction takes neither input. -/
theorem Instr.execWith_eq_exec (i : Instr) (draw : Byte) (rank : Nat) (s : State) (hr : ∀ x nn, i ≠ .rnd x nn)
    (hk : ∀ x, i ≠ .ldVxK x) : i.execWith draw rank s = exec i s := by
  cases i
  case rnd x nn => exact absurd rfl (hr x nn)
  case ldVxK x => exact absurd rfl (hk x)
  all_goals rfl

end Sys2Proof

namespace Sys2Proof.Machine

/-! ### The sprite of DRW (R182) -/

/-- The pixels the blit of the sprite bytes at `I` flips are those the sprite covers. -/
theorem State.spriteOn_readBytes (s : State) (x0 y0 : Byte) (n : Nat) (r : Row) (c : Col) :
    spriteOn x0 y0 (s.readBytes s.i.toNat n) r c ↔ s.spriteCovers x0 y0 n r c := by
  unfold spriteOn State.spriteCovers
  constructor
  · rintro ⟨k, hk, col, hcol, hb, rfl, rfl⟩
    exact ⟨k, by simpa using hk, col, hcol, by simpa [spriteBit] using hb, rfl, rfl⟩
  · rintro ⟨k, hk, col, hcol, hb, hr, hc⟩
    exact ⟨k, by simpa using hk, col, hcol, by simpa [spriteBit] using hb, Fin.ext hr.symm, Fin.ext hc.symm⟩

/-- A pixel outside the sprite is as it was after the blit of it. -/
theorem State.blit_pixel_outside (s : State) (x0 y0 : Byte) (n : BitVec 4) (r : Row) (c : Col)
    (h : ¬ s.spriteCovers x0 y0 n.toNat r c) :
    Display.pixel (blit x0 y0 (s.readBytes s.i.toNat n.toNat) s.disp).disp r c = s.pixel r c := by
  have hn := n.isLt
  exact (blit_pixel x0 y0 _ s.disp (by simp; omega) r c).2 fun hs => h ((s.spriteOn_readBytes x0 y0 n.toNat r c).mp hs)

/-- A pixel the sprite covers is flipped by the blit of it. -/
theorem State.blit_pixel_covered (s : State) (x0 y0 : Byte) (n : BitVec 4) (r : Row) (c : Col)
    (h : s.spriteCovers x0 y0 n.toNat r c) :
    Display.pixel (blit x0 y0 (s.readBytes s.i.toNat n.toNat) s.disp).disp r c = !s.pixel r c := by
  have hn := n.isLt
  exact (blit_pixel x0 y0 _ s.disp (by simp; omega) r c).1 ((s.spriteOn_readBytes x0 y0 n.toNat r c).mpr h)

end Sys2Proof.Machine
end

