-- ==== Sys2Proof/Laws/Transactions.lean ====
section
/-! SUPPORT. One lemma for each transaction that says what it does, and how frames compose. -/

namespace Sys2Proof.Machine

/-! ### Frames -/

theorem SameExcept.refl (written : Part → Prop) (s : State) : SameExcept written s s := by
  intro p _
  cases p <;> rfl

theorem SameExcept.trans {written : Part → Prop} {s t u : State} (h : SameExcept written s t)
    (h' : SameExcept written t u) : SameExcept written s u := by
  intro p hp
  have e := h p hp
  have e' := h' p hp
  cases p <;> exact Eq.trans e' e

/-- A frame that names more parts says less. -/
theorem SameExcept.mono {written written' : Part → Prop} {s t : State} (h : SameExcept written s t)
    (hw : ∀ p, written p → written' p) : SameExcept written' s t :=
  fun p hp => h p fun hw' => hp (hw p hw')

/-- Halt entry changes `run` and nothing else (R221). -/
theorem State.halt_sameExcept (s : State) (r : HaltReason) : SameExcept (fun p => p = .run) s (s.halt r) := by
  intro p hp
  cases p <;> first | rfl | exact absurd rfl hp

/-! ### The transactions -/

/-- A program that fits is written verbatim (R265). -/
theorem State.load_of_le (s : State) (bytes : List Byte) (h : bytes.length ≤ 3584) :
    s.load bytes = (s.writeBytes 0x200 bytes, true) :=
  if_pos h

/-- A program that does not fit latches `LoadError` (R222, R266). -/
theorem State.load_of_gt (s : State) (bytes : List Byte) (h : bytes.length > 3584) :
    s.load bytes = (s.halt .loadError, false) :=
  if_neg (by simpa using h)

/-- A timer after a tick is one less, floored at 0 (R240, R241). -/
@[simp] theorem tickTimer_toNat (t : Byte) : (tickTimer t).toNat = t.toNat - 1 := by
  have h := t.isLt
  unfold tickTimer
  split
  · rw [BitVec.toNat_sub]
    simp
    omega
  · omega

/-- The beep of a tick: the sound timer stood at 1 (R242). -/
theorem State.tick_beep (s : State) : s.tick.2 = true ↔ s.st = 1 := by simp [State.tick]

theorem State.tick_sameExcept (s : State) : SameExcept (fun p => p = .delay ∨ p = .sound) s s.tick.1 := by
  intro p hp
  cases p <;> simp_all [Part.same] <;> rfl

theorem State.setKey_sameExcept (s : State) (k : Key) (pressed : Bool) :
    SameExcept (fun p => p = .key k) s (s.setKey k pressed) := by
  intro p hp
  cases p with
  | key j =>
    have hj : j ≠ k := fun e => hp (by rw [e])
    simp [Part.same, State.setKey_key, hj]
  | _ => rfl

/-- STEP of a halted machine changes nothing (R121). -/
theorem step_of_halted (s : State) (r : HaltReason) (h : s.run = .halted r) : step s = .next s := by
  simp [step, h]

end Sys2Proof.Machine
end

