-- ==== Sys2Proof/Tests/Slice0.lean ====
section
/-! SUPPORT. The model's own tests. The expected results are those of the vectors of spec/95_test_vectors.md, named in
the comments, and of the rules cited; none was taken from the model. After them, for each obligation with hypotheses, a
witness that meets them, one for each clause, at a boundary of its range. -/

namespace Sys2Proof.Tests

open Sys2Proof Sys2Proof.Machine

/-! ### Helpers -/

/-- The outcome is a next state with the property. -/
def nextIs (o : Host.Outcome State Fault Refusal) (p : State → Bool) : Bool :=
  match o with
  | .next t => p t
  | .fault _ => false
  | .refused _ => false

/-- The outcome is that fault. -/
def faultIs (o : Host.Outcome State Fault Refusal) (f : Fault) : Bool :=
  match o with
  | .next _ => false
  | .fault g => g == f
  | .refused _ => false

/-- The word is no instruction. -/
def invalidWord (w : Word) : Bool := (decode w).toOption == none

/-- A RESET and a LOAD of the bytes of one word (the boot of spec/95_test_vectors.md). -/
def boot (w : Word) : State := (State.reset.load [highByte w, lowByte w]).1

/-- `boot` with registers overridden. -/
def bootRegs (w : Word) (regs : List (Reg × Byte)) : State := regs.foldl (fun s p => s.setReg p.1 p.2) (boot w)

/-- `boot` with registers, `I` and the bytes at 0x300 overridden. -/
def bootIndex (w : Word) (regs : List (Reg × Byte)) (i : Word) (bytes : List Byte) : State :=
  { (bootRegs w regs).writeBytes 0x300 bytes with i := i }

/-- `boot` with registers overridden and keys pressed. -/
def bootKeys (w : Word) (regs : List (Reg × Byte)) (keys : List Key) : State :=
  keys.foldl (fun s k => s.setKey k true) (bootRegs w regs)

/-- The pixel at row 0, column 0 set. -/
def withFirstPixel (s : State) : State := { s with disp := Display.flip s.disp 0 0 }

/-! ### WellFormed: an ill-formed term for each check -/

theorem test_wf_refuses_sys_named_cls : (Instr.sys 0x0E0#12).wf = false := by decide
theorem test_wf_refuses_sys_named_ret : (Instr.sys 0x0EE#12).wf = false := by decide
theorem test_wf_accepts_sys_beside_them : (Instr.sys 0x0E1#12).wf = true ∧ (Instr.sys 0x1E0#12).wf = true := by decide

/-! ### Decode: a word of every constructor, written out from the patterns of R96 -/

theorem test_decode_sys : decode 0x0123#16 = .ok (.sys 0x123) ∧ decode 0x00E1#16 = .ok (.sys 0x0E1) := by decide
theorem test_decode_cls : decode 0x00E0#16 = .ok .cls := by decide
theorem test_decode_ret : decode 0x00EE#16 = .ok .ret := by decide
theorem test_decode_jp : decode 0x1ABC#16 = .ok (.jp 0xABC) := by decide
theorem test_decode_call : decode 0x2DEF#16 = .ok (.call 0xDEF) := by decide
theorem test_decode_seImm : decode 0x332A#16 = .ok (.seImm 3 0x2A) := by decide
theorem test_decode_sneImm : decode 0x4C7F#16 = .ok (.sneImm 12 0x7F) := by decide
theorem test_decode_seReg : decode 0x5120#16 = .ok (.seReg 1 2) := by decide
theorem test_decode_ldImm : decode 0x6A05#16 = .ok (.ldImm 10 0x05) := by decide
theorem test_decode_addImm : decode 0x7005#16 = .ok (.addImm 0 0x05) := by decide
theorem test_decode_ldReg : decode 0x8DE0#16 = .ok (.ldReg 13 14) := by decide
theorem test_decode_orReg : decode 0x8DE1#16 = .ok (.orReg 13 14) := by decide
theorem test_decode_andReg : decode 0x8DE2#16 = .ok (.andReg 13 14) := by decide
theorem test_decode_xorReg : decode 0x8DE3#16 = .ok (.xorReg 13 14) := by decide
theorem test_decode_addReg : decode 0x8014#16 = .ok (.addReg 0 1) := by decide
theorem test_decode_subReg : decode 0x8DE5#16 = .ok (.subReg 13 14) := by decide
theorem test_decode_shr : decode 0x8DE6#16 = .ok (.shr 13 14) := by decide
theorem test_decode_subnReg : decode 0x8DE7#16 = .ok (.subnReg 13 14) := by decide
theorem test_decode_shl : decode 0x812E#16 = .ok (.shl 1 2) := by decide
theorem test_decode_sneReg : decode 0x9AB0#16 = .ok (.sneReg 10 11) := by decide
theorem test_decode_ldI : decode 0xA2F0#16 = .ok (.ldI 0x2F0) := by decide
theorem test_decode_jpV0 : decode 0xBFFF#16 = .ok (.jpV0 0xFFF) := by decide
theorem test_decode_rnd : decode 0xCFF0#16 = .ok (.rnd 15 0xF0) := by decide
theorem test_decode_drw : decode 0xD014#16 = .ok (.drw 0 1 4) := by decide
theorem test_decode_skp : decode 0xE49E#16 = .ok (.skp 4) := by decide
theorem test_decode_sknp : decode 0xE4A1#16 = .ok (.sknp 4) := by decide
theorem test_decode_ldVxDt : decode 0xF207#16 = .ok (.ldVxDt 2) := by decide
theorem test_decode_ldVxK : decode 0xF30A#16 = .ok (.ldVxK 3) := by decide
theorem test_decode_ldDtVx : decode 0xF215#16 = .ok (.ldDtVx 2) := by decide
theorem test_decode_ldStVx : decode 0xF218#16 = .ok (.ldStVx 2) := by decide
theorem test_decode_addI : decode 0xF11E#16 = .ok (.addI 1) := by decide
theorem test_decode_ldF : decode 0xF229#16 = .ok (.ldF 2) := by decide
theorem test_decode_ldB : decode 0xF533#16 = .ok (.ldB 5) := by decide
theorem test_decode_dumpRegs : decode 0xF255#16 = .ok (.dumpRegs 2) := by decide
theorem test_decode_loadRegs : decode 0xFF65#16 = .ok (.loadRegs 15) := by decide

/-- V-DEC-7 to 10 and 12 to 17. -/
theorem test_decode_invalid : invalidWord 0x5121#16 = true ∧ invalidWord 0x9ABF#16 = true ∧
    invalidWord 0x8128#16 = true ∧ invalidWord 0x812F#16 = true ∧ invalidWord 0xE09F#16 = true ∧
    invalidWord 0xE0A0#16 = true ∧ invalidWord 0xE00E#16 = true ∧ invalidWord 0xF000#16 = true ∧
    invalidWord 0xF154#16 = true ∧ invalidWord 0xFF75#16 = true := by decide

/-- The bytes 70 05 are the word 7005, high byte first (R62); one byte is no word (R90). -/
theorem test_decode_bytes : decodeBytes [0x70, 0x05, 0x71] = .ok (.addImm 0 0x05, [0x71]) ∧
    decodeBytes [0x70] = .error .shortWord := by decide

/-- The host's numbering: bit 0 is the least significant bit of the word. -/
theorem test_decodeTableWord : decodeTableWord 16 0xF065 = some (.loadRegs 0) ∧ decodeTableWord 16 0x5001 = none := by
  decide

/-! ### Reset and step -/

theorem test_reset_inv : State.reset.Inv := 
  ⟨Memory.wf_nil _, ⟨Nat.zero_le _, fun _ h => absurd h List.not_mem_nil⟩, by decide⟩

/-- Reset with nothing placed: the first STEP fetches 0000, which is SYS, and halts (T-RESET-2). -/
theorem test_first_step_of_reset : nextIs (step State.reset) (fun t => t.run == .halted .decodeHalt && t.pc == 0x200) =
    true := by decide

/-- The host's way in: the word placed is the word run, at the reset vector. -/
theorem test_withFetchWord : nextIs (step (State.reset.withFetchWord 16 0x6A05))
    (fun t => t.reg 10 == 0x05 && t.pc == 0x202) = true := by decide

/-- V-FETCH-2: no word at 0xFFF. -/
theorem test_fetch_fault : faultIs (step { boot 0x6A05 with pc := 0x0FFF }) .memoryBounds = true := by decide

/-- V-FETCH-1: the last word is fetched, and `pc` leaves memory without a wrap. -/
theorem test_fetch_last_word : nextIs (step { (boot 0x0000).writeBytes 0xFFE [0x60, 0x01] with pc := 0x0FFE })
    (fun t => t.reg 0 == 0x01 && t.pc == 0x1000) = true := by decide

/-- S8, V-INV-1: an Invalid word halts with `pc` on it. -/
theorem test_invalid_halts : nextIs (step (boot 0x5121)) (fun t => t == (boot 0x5121).halt .decodeHalt) = true := by
  decide

/-- V-HALTED-1: a halted machine keeps even `dirty`. -/
theorem test_halted_step : nextIs (step { boot 0x00E0 with run := .halted .decodeHalt, dirty := true })
    (fun t => t == { boot 0x00E0 with run := .halted .decodeHalt, dirty := true }) = true := by decide

/-- Phase 1 of STEP clears `dirty` before any other instruction (R35, R120). -/
theorem test_dirty_cleared : nextIs (step { boot 0x6A05 with dirty := true }) (fun t => !t.dirty) = true := by decide

/-! ### Control transfer -/

/-- V-SYS-1 -/
theorem test_sys : nextIs (step (boot 0x0123)) (fun t => t == (boot 0x0123).halt .decodeHalt) = true := by decide

/-- V-RET-1 -/
theorem test_ret : nextIs (step { boot 0x00EE with stack := [0x0202, 0x0345] })
    (fun t => t.pc == 0x0345 && t.stack == [0x0202]) = true := by decide

/-- V-RET-2 -/
theorem test_ret_underflow : nextIs (step (boot 0x00EE))
    (fun t => t.run == .halted .stackUnderflow && t.pc == 0x0200 && t.sp == 0) = true := by decide

/-- V-JP-2: an odd target. -/
theorem test_jp : nextIs (step (boot 0x1201)) (fun t => t.pc == 0x0201) = true := by decide

/-- V-CALL-2: the last free entry. -/
theorem test_call : nextIs (step { boot 0x2300 with stack := List.replicate 15 0x0202 })
    (fun t => t.pc == 0x0300 && t.stack == List.replicate 16 0x0202) = true := by decide

/-- V-CALL-3: the stack is full. -/
theorem test_call_overflow : nextIs (step { boot 0x2300 with stack := List.replicate 16 0x0202 })
    (fun t => t.run == .halted .stackOverflow && t.pc == 0x0200 && t.stack == List.replicate 16 0x0202) = true := by
  decide

/-- V-JPV0-2: no 12-bit wrap. -/
theorem test_jpV0 : nextIs (step (bootRegs 0xBFFF [(0, 0xFF)])) (fun t => t.pc == 0x10FE) = true := by decide

/-! ### Skips -/

/-- V-SE-1, V-SE-2 -/
theorem test_seImm : nextIs (step (bootRegs 0x332A [(3, 0x2A)])) (fun t => t.pc == 0x0204) = true ∧
    nextIs (step (bootRegs 0x332A [(3, 0x2B)])) (fun t => t.pc == 0x0202) = true := by decide

/-- V-SNE-1, V-SNE-3 -/
theorem test_sneImm : nextIs (step (bootRegs 0x432A [(3, 0x2A)])) (fun t => t.pc == 0x0202) = true ∧
    nextIs (step (bootRegs 0x432A [(3, 0x2B)])) (fun t => t.pc == 0x0204) = true := by decide

/-- V-SER-1, V-SER-2 -/
theorem test_seReg : nextIs (step (bootRegs 0x5120 [(1, 7), (2, 7)])) (fun t => t.pc == 0x0204) = true ∧
    nextIs (step (bootRegs 0x5120 [(1, 7), (2, 8)])) (fun t => t.pc == 0x0202) = true := by decide

/-- V-SNER-1, V-SNER-2 -/
theorem test_sneReg : nextIs (step (bootRegs 0x9120 [(1, 7), (2, 8)])) (fun t => t.pc == 0x0204) = true ∧
    nextIs (step (bootRegs 0x9120 [(1, 7), (2, 7)])) (fun t => t.pc == 0x0202) = true := by decide

/-- V-SKP-1, V-SKP-2 -/
theorem test_skp : nextIs (step (bootKeys 0xE49E [(4, 0x0A)] [10])) (fun t => t.pc == 0x0204) = true ∧
    nextIs (step (bootKeys 0xE49E [(4, 0x0A)] [])) (fun t => t.pc == 0x0202) = true := by decide

/-- V-SKP-3: no masking to 4 bits. -/
theorem test_skp_fault : faultIs (step (bootKeys 0xE49E [(4, 0x10)] [0])) .keyIndex = true := by decide

/-- V-SKNP-1, V-SKNP-2 -/
theorem test_sknp : nextIs (step (bootKeys 0xE4A1 [(4, 0x0A)] [])) (fun t => t.pc == 0x0204) = true ∧
    nextIs (step (bootKeys 0xE4A1 [(4, 0x0A)] [10])) (fun t => t.pc == 0x0202) = true := by decide

/-- V-SKNP-3 -/
theorem test_sknp_fault : faultIs (step (bootRegs 0xE4A1 [(4, 0xFF)])) .keyIndex = true := by decide

/-! ### Loads and arithmetic -/

/-- V-LDI-2 -/
theorem test_ldImm : nextIs (step (boot 0x6FFF)) (fun t => t.reg 15 == 0xFF && t.pc == 0x0202) = true := by decide

/-- V-ADDI-2: no carry flag. -/
theorem test_addImm : nextIs (step (bootRegs 0x7101 [(1, 0xFF)])) (fun t => t.reg 1 == 0x00 && t.reg vf == 0x00) =
    true := by decide

/-- V-ADDI-3: `VF` takes the sum. -/
theorem test_addImm_vf : nextIs (step (bootRegs 0x7F02 [(15, 0xFF)])) (fun t => t.reg vf == 0x01) = true := by decide

/-- V-LDR-1 -/
theorem test_ldReg : nextIs (step (bootRegs 0x8120 [(2, 0x9C)])) 
    (fun t => t.reg 1 == 0x9C && t.reg 2 == 0x9C) = true := by decide

/-- V-OR-1: `VF` stays. -/
theorem test_orReg : nextIs (step (bootRegs 0x8121 [(1, 0xF0), (2, 0x0F), (15, 0x01)]))
    (fun t => t.reg 1 == 0xFF && t.reg vf == 0x01) = true := by decide

/-- V-AND-1 -/
theorem test_andReg : nextIs (step (bootRegs 0x8122 [(1, 0xF0), (2, 0x3C)])) (fun t => t.reg 1 == 0x30) = true := by
  decide

/-- V-XOR-1 -/
theorem test_xorReg : nextIs (step (bootRegs 0x8123 [(1, 0xF0), (2, 0x3C)])) (fun t => t.reg 1 == 0xCC) = true := by
  decide

/-- V-ADD-4: a sum of 255 is no carry. -/
theorem test_addReg : nextIs (step (bootRegs 0x8124 [(1, 0x80), (2, 0x7F), (15, 0x01)]))
    (fun t => t.reg 1 == 0xFF && t.reg vf == 0x00) = true := by decide

/-- V-ADD-6: the flag over the result in `VF`. -/
theorem test_addReg_vf : nextIs (step (bootRegs 0x8F14 [(15, 0xF0), (1, 0x20)]))
    (fun t => t.reg vf == 0x01) = true := by decide

/-- V-SUB-1: borrow. -/
theorem test_subReg : nextIs (step (bootRegs 0x8125 [(1, 0x05), (2, 0x0A), (15, 0x01)]))
    (fun t => t.reg 1 == 0xFB && t.reg vf == 0x00) = true := by decide

/-- V-SUB-3: equal operands do not borrow. -/
theorem test_subReg_equal : nextIs (step (bootRegs 0x8125 [(1, 0x07), (2, 0x07)]))
    (fun t => t.reg 1 == 0x00 && t.reg vf == 0x01) = true := by decide

/-- V-SHR-3: `V2` is not used. -/
theorem test_shr : nextIs (step (bootRegs 0x8126 [(1, 0xFF), (2, 0x00)]))
    (fun t => t.reg 1 == 0x7F && t.reg vf == 0x01) = true := by decide

/-- V-SHR-5: the flag over the result in `VF`. -/
theorem test_shr_vf : nextIs (step (bootRegs 0x8F06 [(15, 0x02)])) (fun t => t.reg vf == 0x00) = true := by decide

/-- V-SUBN-2: the other order. -/
theorem test_subnReg : nextIs (step (bootRegs 0x8127 [(1, 0x05), (2, 0x0A)]))
    (fun t => t.reg 1 == 0x05 && t.reg vf == 0x01) = true := by decide

/-- V-SUBN-4 -/
theorem test_subnReg_vf : nextIs (step (bootRegs 0x8F17 [(15, 0x05), (1, 0x0A)]))
    (fun t => t.reg vf == 0x01) = true := by decide

/-- V-SHL-1 -/
theorem test_shl : nextIs (step (bootRegs 0x810E [(1, 0x81)]))
    (fun t => t.reg 1 == 0x02 && t.reg vf == 0x01) = true := by decide

/-- V-SHL-5: the flag over the result in `VF`. -/
theorem test_shl_vf : nextIs (step (bootRegs 0x8F0E [(15, 0x41)])) (fun t => t.reg vf == 0x00) = true := by decide

/-- V-RND-1: the draw B7 under the mask 0F. -/
theorem test_rnd : ((boot 0xC30F).rndWith 0xB7 3 0x0F).reg 3 = 0x07 := by decide

/-- V-RND-2: the mask 0 gives 0 whatever the draw; RND takes one draw. -/
theorem test_rnd_mask_zero (d : Byte) : ((boot 0xC300).rndWith d 3 0x00).reg 3 = 0x00 ∧
    ((boot 0xC300).rndWith d 3 0x00).draws = 1 :=
  ⟨by simp [State.rndWith_reg], rfl⟩

/-! ### Display -/

/-- V-CLS-1 -/
theorem test_cls : nextIs (step (withFirstPixel (boot 0x00E0)))
    (fun t => !t.pixel 0 0 && t.dirty && t.pc == 0x0202) = true := by decide

/-- V-DRW-2: eight pixels round the right edge of the last row. -/
theorem test_drw_wraps : nextIs (step (bootIndex 0xD011 [(0, 0x3C), (1, 0x1F)] 0x0300 [0xFF]))
    (fun t => !t.pixel 31 59 && !t.pixel 31 4 && !t.pixel 0 0 &&
      t.pixel 31 60 && t.pixel 31 61 && t.pixel 31 62 && t.pixel 31 63 && t.pixel 31 0 && t.pixel 31 1 &&
      t.pixel 31 2 && t.pixel 31 3 && t.dirty && t.reg vf == 0) = true := by decide

/-- V-DRW-4: a collision. -/
theorem test_drw_collides : nextIs (step (withFirstPixel (bootIndex 0xD011 [] 0x0300 [0xC0])))
    (fun t => !t.pixel 0 0 && t.pixel 0 1 && !t.pixel 0 2 && t.reg vf == 1 && t.dirty) = true := by decide

/-- V-DRW-6: no rows, no memory read, no fault, and `dirty` clear. -/
theorem test_drw_no_rows : nextIs (step (bootIndex 0xD010 [(15, 0x01)] 0xFFFF []))
    (fun t => t.reg vf == 0 && !t.dirty && t.pc == 0x0202) = true := by decide

/-- V-DRW-9: the second sprite byte does not exist. -/
theorem test_drw_fault : faultIs (step (bootIndex 0xD012 [] 0x0FFF [])) .memoryBounds = true := by decide

/-- V-DRW-11: the column is the old `VF`. -/
theorem test_drw_reads_vf_first : nextIs (step (bootIndex 0xDF01 [(15, 0x05), (0, 0x02)] 0x0300 [0x80]))
    (fun t => t.pixel 2 5 && !t.pixel 2 6 && !t.pixel 2 0 && t.reg vf == 0) = true := by decide

/-! ### Keys and timers -/

/-- V-LDK-1 -/
theorem test_ldVxK : nextIs (step (bootKeys 0xF30A [] [7])) (fun t => t.reg 3 == 0x07 && t.pc == 0x0202) = true := by
  decide

/-- V-LDK-2, and V-LDK-3 with the default `KEY_SELECT`, which is rank 0. -/
theorem test_ldVxK_none_and_default : nextIs (step (bootKeys 0xF30A [(3, 0x55)] []))
      (fun t => t.pc == 0x0200 && t.reg 3 == 0x55) = true ∧
    ((bootKeys 0xF30A [] [2, 9, 12]).waitKeyWith 0 3).reg 3 = 0x02 := by decide

/-- V-LDDT-1 -/
theorem test_ldVxDt : nextIs (step { boot 0xF207 with dt := 0x3C })
    (fun t => t.reg 2 == 0x3C && t.dt == 0x3C) = true := by decide

/-- V-SETDT-1 -/
theorem test_ldDtVx : nextIs (step (bootRegs 0xF215 [(2, 0x3C)])) (fun t => t.dt == 0x3C && t.st == 0x00) = true := by
  decide

/-- V-SETST-1 -/
theorem test_ldStVx : nextIs (step (bootRegs 0xF218 [(2, 0x02)])) (fun t => t.st == 0x02 && t.dt == 0x00) = true := by
  decide

/-! ### Index register and memory -/

/-- V-LDIDX-2 -/
theorem test_ldI : nextIs (step { boot 0xAFFF with i := 0xFFFF }) (fun t => t.i == 0x0FFF) = true := by decide

/-- V-ADDIDX-2: modulo 2^16, no flag. -/
theorem test_addI : nextIs (step (bootIndex 0xF11E [(1, 0x01)] 0xFFFF [])) (fun t => t.i == 0x0000 && t.reg vf == 0) =
    true := by decide

/-- V-LDF-3, V-LDF-4 -/
theorem test_ldF : nextIs (step (bootRegs 0xF229 [(2, 0x0F)])) (fun t => t.i == 0x004B) = true ∧
    faultIs (step (bootRegs 0xF229 [(2, 0x10)])) .glyphIndex = true := by decide

/-- V-BCD-3: the last three bytes of memory. -/
theorem test_ldB : nextIs (step (bootIndex 0xF533 [(5, 0xFF)] 0x0FFD []))
    (fun t => t.readByte 0xFFD == 2 && t.readByte 0xFFE == 5 && t.readByte 0xFFF == 5 && t.i == 0x0FFD) = true := by
  decide

/-- V-BCD-2: zeros over other bytes; memory lists nothing equal to what RESET left (the canonical form). -/
theorem test_ldB_zero : nextIs (step (bootIndex 0xF533 [] 0x0300 [9, 9, 9]))
    (fun t => t.mem == [(0x200, 0xF5), (0x201, 0x33)]) = true := by decide

/-- V-DUMP-1 -/
theorem test_dumpRegs : nextIs (step { bootRegs 0xF255 [(0, 0x11), (1, 0x22), (2, 0x33), (3, 0x44)] with i := 0x0400 })
    (fun t => t.readByte 0x400 == 0x11 && t.readByte 0x401 == 0x22 && t.readByte 0x402 == 0x33 &&
      t.readByte 0x403 == 0x00 && t.i == 0x0400) = true := by decide

/-- V-DUMP-3: nothing is written before the fault, which leaves no state. -/
theorem test_dumpRegs_fault : faultIs (step (bootIndex 0xF155 [(0, 0xAB)] 0x0FFF [])) .memoryBounds = true := by decide

/-- V-LOAD-3: the first sixteen bytes of the default font. -/
theorem test_loadRegs : nextIs (step (boot 0xFF65))
    (fun t => t.v == #v[0xF0, 0x90, 0x90, 0x90, 0xF0, 0x20, 0x60, 0x20,
      0x20, 0x70, 0xF0, 0x10, 0xF0, 0x80, 0xF0, 0xF0] && t.i == 0x0000) = true := by decide

/-- V-LOAD-4 -/
theorem test_loadRegs_fault : faultIs (step (bootIndex 0xF165 [] 0x0FFF [])) .memoryBounds = true := by decide

/-! ### The other transactions -/

/-- T-TICK-2, T-TICK-3, T-TICK-4 -/
theorem test_tick_beep : ({ State.reset with st := 2 } : State).tick.2 = false ∧
    ({ State.reset with st := 1 } : State).tick.2 = true ∧ ({ State.reset with st := 1 } : State).tick.1.st = 0 ∧
    State.reset.tick = (State.reset, false) := by decide

/-- T-KEY-3 -/
theorem test_setKey : (((State.reset.setKey 3 true).setKey 5 true).setKey 3 false).key 3 = false ∧
    (((State.reset.setKey 3 true).setKey 5 true).setKey 3 false).key 5 = true := by decide

/-- T-LOAD-4 -/
theorem test_load : (State.reset.load [0x12]).1.readByte 0x200 = 0x12 ∧
    (State.reset.load [0x12]).1.readByte 0x201 = 0 ∧ (State.reset.load [0x12]).2 = true := by decide

/-- S1: the font after RESET, first and last glyph, and the byte after it. -/
theorem test_font_after_reset : State.reset.readBytes 0 5 = [0xF0, 0x90, 0x90, 0x90, 0xF0] ∧
    State.reset.readBytes 0x4B 5 = [0xF0, 0x80, 0xF0, 0x80, 0x80] ∧ State.reset.readByte 0x50 = 0x00 := by decide

/-- A faulted machine takes RESET only. -/
theorem test_fault_then_reset :
    (Condition.ready { boot 0x6A05 with pc := 0x0FFF }).after [.step, .tick, .step, .reset] =
      .ready State.reset := by decide

/-! ### Witnesses: states and operands that meet the hypotheses of each obligation -/

theorem witness_DecodeInvertsEncode : (Instr.sys 0x0E1#12).wf = true ∧ (Instr.drw 15 0 15).wf = true ∧
    (Instr.loadRegs 15).wf = true := by decide

theorem witness_EncodeInvertsDecode : decode 0x0000#16 = .ok (.sys 0) ∧ decode 0xFF65#16 = .ok (.loadRegs 15) := by
  decide

/-- The first and the last word of each of the five sets of R97, and of the words between them the valid ones. -/
theorem witness_InvalidWordsAreExactlyTheFiveSets :
    invalidWord 0x5001#16 = true ∧ invalidWord 0x5FFF#16 = true ∧ invalidWord 0x5FF0#16 = false ∧
    invalidWord 0x9001#16 = true ∧ invalidWord 0x9FFF#16 = true ∧ invalidWord 0x9FF0#16 = false ∧
    invalidWord 0x8008#16 = true ∧ invalidWord 0x8FFD#16 = true ∧ invalidWord 0x8FFF#16 = true ∧
    invalidWord 0x8FF7#16 = false ∧ invalidWord 0x8FFE#16 = false ∧
    invalidWord 0xE000#16 = true ∧ invalidWord 0xEFFF#16 = true ∧ invalidWord 0xEF9E#16 = false ∧
    invalidWord 0xF000#16 = true ∧ invalidWord 0xFFFF#16 = true ∧ invalidWord 0xFF65#16 = false := by decide

theorem witness_StepFetchesDecodesExecutes_halted :
    ({ State.reset with run := .halted .stackOverflow } : State).run = .halted .stackOverflow := by decide

theorem witness_StepFetchesDecodesExecutes_fault : ({ State.reset with pc := 0x0FFF } : State).run = .running ∧
    ({ State.reset with pc := 0x0FFF } : State).pc.toNat + 1 > 4095 := by decide

/-- The last fetchable address, with a word of the table. -/
theorem witness_StepFetchesDecodesExecutes_ok :
    let s := { State.reset.writeBytes 0xFFE [0x60, 0x01] with pc := 0x0FFE }
    s.run = .running ∧ s.pc.toNat + 1 ≤ 4095 ∧
      decode (wordOfBytes (s.readByte s.pc.toNat) (s.readByte (s.pc.toNat + 1))) = .ok (.ldImm 0 1) := by decide

/-- The last fetchable address, with an Invalid word. -/
theorem witness_StepFetchesDecodesExecutes_invalid :
    let s := { State.reset.writeBytes 0xFFE [0x51, 0x21] with pc := 0x0FFE }
    s.run = .running ∧ s.pc.toNat + 1 ≤ 4095 ∧
      decode (wordOfBytes (s.readByte s.pc.toNat) (s.readByte (s.pc.toNat + 1))) = .error .invalidFamily5 := by decide

theorem witness_step_next : ∃ t, step State.reset = .next t := ⟨_, rfl⟩

/-- Each row of the table of R226 at its boundary. -/
theorem witness_FaultsAreExactlyTheTabulated :
    (Instr.drw 0 1 1).faultsWith { State.reset with i := 0x1000 } .memoryBounds ∧
    (Instr.ldB 0).faultsWith { State.reset with i := 0x0FFE } .memoryBounds ∧
    (Instr.dumpRegs 15).faultsWith { State.reset with i := 0x0FF1 } .memoryBounds ∧
    (Instr.loadRegs 15).faultsWith { State.reset with i := 0x0FF1 } .memoryBounds ∧
    (Instr.skp 0).faultsWith (State.reset.setReg 0 0x10) .keyIndex ∧
    (Instr.sknp 0).faultsWith (State.reset.setReg 0 0x10) .keyIndex ∧
    (Instr.ldF 0).faultsWith (State.reset.setReg 0 0x10) .glyphIndex ∧
    Transaction.step ≠ .reset := by
  simp only [Instr.faultsWith]
  decide

/-- The two instructions that halt on an operand state, and one that always does. -/
theorem witness_HaltsAreExactlyTheTabulated : State.reset.run = .running ∧
    (∃ t, exec (.sys 0) State.reset = .next t) ∧ (∃ t, exec .ret State.reset = .next t) ∧
    (∃ t, exec (.call 0) { State.reset with stack := List.replicate 16 0x0202 } = .next t) ∧
    (List.replicate 3585 (0xAA : Byte)).length > 3584 :=
  ⟨rfl, ⟨_, rfl⟩, ⟨_, rfl⟩, ⟨_, rfl⟩, by rw [List.length_replicate]; decide⟩

theorem witness_HaltChangesOnlyRun : State.reset.run = .running ∧
    (∃ t, exec .ret State.reset = .next t ∧ t.run = .halted .stackUnderflow) ∧
    (∃ t, step State.reset = .next t ∧ t.run = .halted .decodeHalt) :=
  ⟨rfl, ⟨_, rfl, rfl⟩, ⟨_, rfl, rfl⟩⟩

theorem witness_PcFollowsTheTable : (∃ t, exec (.jpV0 0xFFF) (State.reset.setReg 0 0xFF) = .next t) ∧
    ∃ t, execInvalid State.reset = .next t :=
  ⟨⟨_, rfl⟩, ⟨_, rfl⟩⟩

/-- The registers beside the last of a range; a wait for a key with none pressed; and, inside `Instr.ignoresReg`, an
execution that gives a next state and one that faults. -/
theorem witness_RegistersReadAndWrittenAsListed :
    (∃ t, exec (.loadRegs 14) State.reset = .next t) ∧ ¬ (Instr.loadRegs 14).writesReg 15 ∧
    (∃ t, exec (.ldVxK 3) State.reset = .next t) ∧ (∀ k, State.reset.key k = false) ∧
    ¬ (Instr.dumpRegs 14).readsReg 15 ∧ (∃ t, (Instr.dumpRegs 14).execWith 0 0 State.reset = .next t) ∧
    (∃ f, (Instr.dumpRegs 14).execWith 0 0 { State.reset with i := 0xFFFF } = .fault f) :=
  ⟨⟨_, rfl⟩, by simp only [Instr.writesReg]; decide, ⟨_, rfl⟩, by decide, by simp only [Instr.readsReg]; decide,
    ⟨_, rfl⟩, ⟨_, rfl⟩⟩

/-- `exec` is `Instr.execWith` at the free values: RND and LD Vx,K, and one that takes neither. -/
theorem witness_execWith :
    exec (.rnd 3 0x0F) State.reset = (Instr.rnd 3 0x0F).execWith (Config.draw 0) 0 State.reset ∧
    exec (.ldVxK 3) State.reset = (Instr.ldVxK 3).execWith 0 (Config.keyRank State.reset.keys) State.reset ∧
    exec (.ldB 3) State.reset = (Instr.ldB 3).execWith 0xB7 9 State.reset := ⟨rfl, rfl, rfl⟩

/-- A dump at the end of memory: its first and its last byte, and neither the byte before it nor any other of memory,
are bytes it may write. -/
theorem witness_InstructionsWriteOnlyTheirState :
    let s := { State.reset with i := 0x0FFE }
    (∃ t, exec (.dumpRegs 1) s = .next t) ∧ (Instr.dumpRegs 1).writesOther s (.byte 0x0FFE) ∧
    (Instr.dumpRegs 1).writesOther s (.byte 0x0FFF) ∧ ¬ (Instr.dumpRegs 1).writesOther s (.byte 0x0FFD) := by
  refine ⟨⟨_, rfl⟩, ⟨0, by decide, rfl⟩, ⟨1, by decide, rfl⟩, ?_⟩
  rintro ⟨k, -, hk⟩
  have h : 0x0FFD = 0x0FFE + k := Part.byte.inj hk
  omega

theorem witness_OnlyRndTakesADraw : ∀ x nn, Instr.ldVxK 0 ≠ .rnd x nn := by simp

/-- RND for the clause on instructions beside the timers, LD DT,Vx for the one on the timers, LD Vx,DT for SET_KEY;
and, for the second, an execution that faults. -/
theorem witness_DriverInputsAreSeenOnlyByPolling :
    ((∀ x, Instr.rnd 0 0 ≠ .ldVxDt x) ∧ (∀ x, Instr.rnd 0 0 ≠ .ldDtVx x) ∧ ∀ x, Instr.rnd 0 0 ≠ .ldStVx x) ∧
    ((∀ x, Instr.ldDtVx 0 ≠ .ldVxDt x) ∧ (∃ t, (Instr.ldDtVx 0).execWith 0 0 State.reset = .next t) ∧
      (∀ x, Instr.ldB 0 ≠ .ldVxDt x) ∧ (∃ f, (Instr.ldB 0).execWith 0 0 { State.reset with i := 0xFFFF } = .fault f)) ∧
    ((∀ x, Instr.ldVxDt 0 ≠ .skp x) ∧ (∀ x, Instr.ldVxDt 0 ≠ .sknp x) ∧ ∀ x, Instr.ldVxDt 0 ≠ .ldVxK x) :=
  ⟨by simp, ⟨by simp, ⟨_, rfl⟩, by simp, ⟨_, rfl⟩⟩, by simp⟩

/-- A STEP that draws, one that draws nothing, and one that clears. -/
theorem witness_DirtyTellsWhatTheStepDrew : (boot 0xD015).run = .running ∧ (∃ t, step (boot 0xD015) = .next t) ∧
    (∃ t, step (boot 0xD010) = .next t) ∧ (∃ t, step (boot 0x00E0) = .next t) :=
  ⟨rfl, ⟨_, rfl⟩, ⟨_, rfl⟩, ⟨_, rfl⟩⟩

/-- A CALL in the last word of memory, and the highest `pc` the invariant allows (there the STEP faults). -/
theorem witness_StepKeepsInvariant :
    (∃ s t : State, s.Inv ∧ s.pc = 0x0FFE ∧ step s = .next t) ∧ ∃ s : State, s.Inv ∧ s.pc = 0x10FE := by
  refine ⟨⟨{ State.reset.writeBytes 0xFFE [0x23, 0x00] with pc := 0x0FFE }, _, ⟨?_, ?_, by decide⟩, rfl, rfl⟩,
    ⟨{ State.reset with pc := 0x10FE }, ⟨Memory.wf_nil _, ?_, by decide⟩, rfl⟩⟩
  · exact State.wf_writeBytes State.reset 0xFFE [0x23, 0x00] (Memory.wf_nil _) (by decide)
  · exact ⟨Nat.zero_le _, fun _ h => absurd h List.not_mem_nil⟩
  · exact ⟨Nat.zero_le _, fun _ h => absurd h List.not_mem_nil⟩

theorem witness_TransactionsKeepInvariant : (Condition.ready State.reset).Inv ∧
    (Condition.faulted .keyIndex Params.default 0).Inv := ⟨test_reset_inv, trivial⟩

theorem witness_PartsCoverState : Memory.wf State.reset.params.font State.reset.mem ∧
    ∀ p : Part, p.same State.reset State.reset :=
  ⟨Memory.wf_nil _, fun p => SameExcept.refl (fun _ => False) State.reset p fun h => h⟩

/-- The first and the last address above the font, and two states RESET does not tell apart. -/
theorem witness_ResetGivesTheTabulatedValues : (80 ≤ 80 ∧ 80 ≤ 4095) ∧ (80 ≤ 4095 ∧ 4095 ≤ 4095) ∧
    (State.reset.setReg 3 0x55).params = State.reset.params ∧ (State.reset.setReg 3 0x55).draws = State.reset.draws := by
  decide

/-- T-LOAD-1 and T-LOAD-2: no byte, and the longest program. -/
theorem witness_LoadCopiesVerbatim : ([] : List Byte).length ≤ 3584 ∧ (List.replicate 3584 (0xAA : Byte)).length ≤ 3584 :=
  ⟨by decide, by rw [List.length_replicate]⟩

/-- T-LOAD-3: one byte more than fits. -/
theorem witness_LoadTooLongLatchesLoadError : (List.replicate 3585 (0xAA : Byte)).length > 3584 := by
  rw [List.length_replicate]
  decide

theorem witness_HaltedMachineStillServesTheDriver : (State.reset.halt .decodeHalt).run = .halted .decodeHalt ∧
    (List.replicate 3584 (0xAA : Byte)).length ≤ 3584 := ⟨rfl, by rw [List.length_replicate]⟩

theorem witness_HaltLastsUntilReset : (State.reset.halt .decodeHalt).run = .halted .decodeHalt ∧
    Transaction.reset ∉ [Transaction.load [0x12], .step, .tick] ∧
    [Transaction.step, .tick, .setKey 3 true, .readFrame].all Transaction.afterBoot = true := by decide

theorem witness_BootOrderNeverMeetsLoadError :
    bootOrder [.reset, .load [0x12, 0x00], .step, .tick] = true ∧
    ∃ t, (Condition.faulted .keyIndex Params.default 0).after [.reset, .load [0x12, 0x00], .step, .tick] = .ready t :=
  ⟨by decide, _, rfl⟩

/-- A run without a STEP, a STEP that ends a run, and runs ended by a halt and by a fault. -/
theorem witness_OnlyStepEndsARun : Transaction.step ∉ [Transaction.tick, .load [0x12], .reset] ∧
    State.reset.run = .running ∧ Transaction.step.afterBoot = true ∧
    ((Condition.ready State.reset).transact .step).1.ended = true ∧
    (Condition.ready (State.reset.halt .decodeHalt)).ended = true ∧
    (Condition.faulted .keyIndex Params.default 0).ended = true ∧ Transaction.reset ∉ [Transaction.step, .tick] := by
  decide

/-- The first and the last SYS word. -/
theorem witness_SysAndInvalidHalt : ((0x0000#16).toNat / 4096 = 0 ∧ 0x0000#16 ≠ 0x00E0#16 ∧ 0x0000#16 ≠ 0x00EE#16) ∧
    ((0x0FFF#16).toNat / 4096 = 0 ∧ 0x0FFF#16 ≠ 0x00E0#16 ∧ 0x0FFF#16 ≠ 0x00EE#16) := by decide

theorem witness_RetPopsOrUnderflows : (∃ (s : State) (a : Word), s.stack = [] ++ [a]) ∧ State.reset.stack = [] :=
  ⟨⟨{ State.reset with stack := [0x0202] }, 0x0202, rfl⟩, rfl⟩

/-- One entry free, and none. -/
theorem witness_CallPushesOrOverflows :
    (List.replicate 15 (0x0202 : Word)).length ≠ State.reset.params.stackDepth ∧
    (List.replicate 16 (0x0202 : Word)).length = State.reset.params.stackDepth := by decide

theorem witness_RetReturnsAfterCall : State.reset.stack.length ≠ State.reset.params.stackDepth ∧
    ∃ t, exec (.call 0x300) State.reset = .next t ∧ ∃ u : State, u.stack = t.stack :=
  ⟨by decide, _, rfl, _, rfl⟩

/-- The registers equal and different, for the four skips on values. -/
theorem witness_SkipsOnImmediate_and_SkipsOnRegisters : State.reset.reg 3 = 0x00 ∧ State.reset.reg 3 ≠ 0xFF ∧
    State.reset.reg 3 = State.reset.reg 15 ∧ (State.reset.setReg 3 0xFF).reg 3 ≠ (State.reset.setReg 3 0xFF).reg 15 := by
  decide

/-- The last key, pressed and not, and the first register value that numbers none. -/
theorem witness_SkipsOnKeys :
    (((State.reset.setReg 4 0x0F).setKey 15 true).reg 4).toNat = (15 : Key).val ∧
    ((State.reset.setReg 4 0x0F).setKey 15 true).key 15 = true ∧ (State.reset.setReg 4 0x0F).key 15 = false ∧
    ((State.reset.setReg 4 0x10).reg 4).toNat > 15 := by decide

/-- For the results of ADD, SUB, SUBN, SHR and SHL: a register beside `VF`; both sides of each flag. -/
theorem witness_arithmetic : (14 : Reg) ≠ vf ∧
    (0xFF#8).toNat + (0x01#8).toNat > 255 ∧ ¬ (0x80#8).toNat + (0x7F#8).toNat > 255 ∧
    (0x07#8).toNat ≥ (0x07#8).toNat ∧ ¬ (0x06#8).toNat ≥ (0x07#8).toNat := by decide

/-- The mask F0 has the bit 3, below 8, clear. -/
theorem witness_RndMasksOneDraw : 3 < 8 ∧ (0xF0#8).getLsbD 3 = false := by decide

/-- The last sprite byte at 4095, no sprite byte at all, and a sprite byte at 4096. -/
theorem witness_DrwFlipsExactlyTheSpritePixels :
    ({ State.reset with i := 0x0FF1 } : State).i.toNat + (15#4).toNat - 1 ≤ 4095 ∧ (0#4) = 0 ∧
    (1#4) ≠ 0 ∧ ({ State.reset with i := 0x1000 } : State).i.toNat + (1#4).toNat - 1 > 4095 := by decide

/-- Glyph 0 drawn at (0, 0): its corner pixel is covered, and the pixel beside the sprite is not. -/
theorem witness_spriteCovers : State.reset.spriteCovers 0 0 5 0 0 ∧ ¬ State.reset.spriteCovers 0 0 5 0 8 := by
  constructor
  · exact ⟨0, by decide, 0, by decide, by decide, by decide, by decide⟩
  · rintro ⟨row, hrow, col, hcol, -, -, hc⟩
    change 8 = (0 + col) % 64 at hc
    omega

theorem witness_DrwTwiceRestoresDisplay : (0 : Reg) ≠ vf ∧ (14 : Reg) ≠ vf ∧
    State.reset.i.toNat + (5#4).toNat - 1 ≤ 4095 ∧ (∀ r c, State.reset.pixel r c = false) :=
  ⟨by decide, by decide, by decide, fun r c => by simp [State.reset, State.resetWith, State.pixel, Display.pixel]⟩

/-- No key, one key, and several keys of which the smallest is 2. -/
theorem witness_WaitKeyTakesAPressedKey : (∀ k, State.reset.key k = false) ∧ (State.reset.setKey 15 true).key 15 = true ∧
    ((State.reset.setKey 2 true).setKey 9 true).key 2 = true ∧
    ∀ j : Key, ((State.reset.setKey 2 true).setKey 9 true).key j = true → 2 ≤ j := by decide

theorem witness_GlyphAddressIsFiveTimesDigit : ((State.reset.setReg 2 0x0F).reg 2).toNat ≤ 15 ∧
    ((State.reset.setReg 2 0x10).reg 2).toNat > 15 := by decide

theorem witness_BcdStoresThreeDigits : ({ State.reset with i := 0x0FFD } : State).i.toNat + 2 ≤ 4095 ∧
    ({ State.reset with i := 0x0FFE } : State).i.toNat + 2 > 4095 := by decide

/-- The last start of a range of sixteen registers, the first that is too far, and one register at the last address. -/
theorem witness_DumpStores_and_LoadRestoresRegisterRange :
    ({ State.reset with i := 0x0FF0 } : State).i.toNat + (15 : Reg).val ≤ 4095 ∧
    ({ State.reset with i := 0x0FF1 } : State).i.toNat + (15 : Reg).val > 4095 ∧
    ({ State.reset with i := 0x0FFF } : State).i.toNat + (0 : Reg).val ≤ 4095 ∧ (14 : Reg) ≤ 15 := by decide

/-- A state with the memory and the `I` that a dump left. -/
theorem witness_LoadRestoresRegisterRange_roundTrip : ∃ t, exec (.dumpRegs 3) State.reset = .next t ∧
    ∃ u : State, u.i = t.i ∧ ∀ a, u.readByte a = t.readByte a :=
  ⟨_, rfl, _, rfl, fun _ => rfl⟩

/-- Listed registers at the ends of ranges, forms that are not excepted, and forms that are. -/
theorem witness_ListedRegistersAreReadAndWritten :
    ((Instr.loadRegs 14).writesReg 14 ∧
      Instr.loadRegs 14 ∉ [Instr.addImm 14 0, .ldReg 14 14, .orReg 14 14, .andReg 14 14]) ∧
    ((Instr.drw 15 15 1).readsReg 15 ∧ ∀ x y, Instr.drw 15 15 1 ≠ .drw x y 0) ∧
    ((Instr.ldReg 3 3).writesReg 3 ∧ (Instr.ldReg 3 3).readsReg 3 ∧
      Instr.ldReg 3 3 ∈ [Instr.addImm 3 0, .ldReg 3 3, .orReg 3 3, .andReg 3 3]) := by
  simp [Instr.writesReg, Instr.readsReg]

end Sys2Proof.Tests
end

/-! PROOFS (spec/00_scope.md): STEP as an equation for each way through its phases, that no outcome is a refusal, and
the frame of RND; from these the statements O8 and O47. -/

namespace Sys2Proof.Machine

/-! ### STEP, one equation for each way through its phases (R120) -/

/-- Phase 2: a word that does not wholly exist faults. -/
theorem step_of_not_canFetch (s : State) (hr : s.run = .running) (hc : ¬ s.canFetch = true) :
    step s = .fault .memoryBounds := by
  simp [step, hr, hc]

/-- Phases 3 and 4 of a word that is an instruction. -/
theorem step_of_decode_ok (s : State) (i : Instr) (hr : s.run = .running) (hc : s.canFetch = true)
    (hd : decode s.fetchWord = .ok i) : step s = exec i s.clearDirty := by
  simp [step, hr, hc, hd]

/-- Phases 3 and 4 of an Invalid word (R129). -/
theorem step_of_decode_error (s : State) (e : DecodeReject) (hr : s.run = .running) (hc : s.canFetch = true)
    (hd : decode s.fetchWord = .error e) : step s = .next (s.clearDirty.halt .decodeHalt) := by
  simp [step, hr, hc, hd, execInvalid]

/-! ### No outcome is a refusal (R13) -/

theorem ifAccessible_ne_refused (base len : Nat) (effect : State) (r : Refusal) :
    ifAccessible base len effect ≠ .refused r := by
  unfold ifAccessible
  split <;> nofun

/-- Nine meanings branch: the four with a memory access through `ifAccessible`, five on the stack, the key or the
glyph; each branch is a next state or a fault. Every other meaning is a next state outright. -/
theorem exec_ne_refused (i : Instr) (s : State) (r : Refusal) : exec i s ≠ .refused r := by
  cases i
  case drw | ldB | dumpRegs | loadRegs => exact ifAccessible_ne_refused _ _ _ r
  case ret | call | skp | sknp | ldF =>
    simp only [exec, execRet, execCall, execSkp, execSknp, execLdF]
    split <;> nofun
  all_goals nofun

theorem step_ne_refused (s : State) (r : Refusal) : step s ≠ .refused r := by
  cases hr : s.run with
  | halted e => rw [step_of_halted s e hr]; nofun
  | running =>
    by_cases hc : s.canFetch = true
    · cases hd : decode s.fetchWord with
      | ok i => rw [step_of_decode_ok s i hr hc hd]; exact exec_ne_refused i _ r
      | error e => rw [step_of_decode_error s e hr hc hd]; nofun
    · rw [step_of_not_canFetch s hr hc]; nofun

/-! ### RND (R172) -/

/-- RND changes its register, `pc` and the number of draws taken, and nothing else, whatever the draw. -/
theorem State.rndWith_sameExcept (s : State) (draw : Byte) (x : Reg) (nn : Byte) :
    SameExcept (fun p => p = .reg x ∨ p = .pc ∨ p = .draws) s (s.rndWith draw x nn) := by
  intro p hp
  cases p with
  | reg r =>
    have hne : r ≠ x := fun e => hp (.inl (by rw [e]))
    simp [Part.same, State.rndWith_reg, hne]
  | pc | draws => simp at hp
  | _ => rfl

/-! ### The statements -/

/-- Settles O8: a STEP ends in its halted state, in the fault of its fetch, or as an execute phase does, and no
execute phase is refused. -/
theorem noStepIsRefused : Obligations.NoStepIsRefused :=
  ⟨exec_ne_refused, step_ne_refused⟩

/-- Settles O47: the register takes the draw AND the immediate, and the frame holds whatever the draw is. -/
theorem rndMasksOneDraw : Obligations.RndMasksOneDraw := by
  intro x nn s
  have hreg : (s.rndWith (Config.draw s.draws) x nn).reg x = Config.draw s.draws &&& nn := by
    simp [State.rndWith_reg]
  refine ⟨by simp [decode], _, rfl, hreg, fun k _ hk => ?_, rfl, rfl, s.rndWith_sameExcept _ x nn⟩
  rw [hreg, BitVec.getLsbD_and, hk, Bool.and_false]

end Sys2Proof.Machine

/-! PROOFS (spec/10_state.md): the frame of each named operation and of every instruction, the table of `pc`, the laws
of canonical memory, the invariant along every sequence of transactions, halts, and what `dirty` says. -/

namespace Sys2Proof.Machine

/-! ### The frame of each named operation -/

theorem State.advance_sameExcept (s : State) : SameExcept (fun p => p = .pc) s s.advance := by
  intro p hp
  cases p with
  | pc => exact absurd rfl hp
  | _ => rfl

theorem State.skipIf_sameExcept (s : State) (taken : Bool) : SameExcept (fun p => p = .pc) s (s.skipIf taken) := by
  intro p hp
  cases p with
  | pc => exact absurd rfl hp
  | _ => rfl

theorem State.setPc_sameExcept (s : State) (a : Word) : SameExcept (fun p => p = .pc) s { s with pc := a } := by
  intro p hp
  cases p with
  | pc => exact absurd rfl hp
  | _ => rfl

theorem State.setIndex_sameExcept (s : State) (a : Word) : SameExcept (fun p => p = .index) s { s with i := a } := by
  intro p hp
  cases p with
  | index => exact absurd rfl hp
  | _ => rfl

theorem State.setDelay_sameExcept (s : State) (b : Byte) : SameExcept (fun p => p = .delay) s { s with dt := b } := by
  intro p hp
  cases p with
  | delay => exact absurd rfl hp
  | _ => rfl

theorem State.setSound_sameExcept (s : State) (b : Byte) : SameExcept (fun p => p = .sound) s { s with st := b } := by
  intro p hp
  cases p with
  | sound => exact absurd rfl hp
  | _ => rfl

theorem State.setStack_sameExcept (s : State) (l : List Word) :
    SameExcept (fun p => p = .stack) s { s with stack := l } := by
  intro p hp
  cases p with
  | stack => exact absurd rfl hp
  | _ => rfl

/-- A redrawn display differs in `dirty` and in the pixels that changed. -/
theorem State.setDisplay_sameExcept (s : State) (d : Display) (dirty : Bool) :
    SameExcept (fun p => p = .dirty ∨ ∃ r c, Display.pixel d r c ≠ s.pixel r c ∧ p = .pixel r c) s
      { s with disp := d, dirty := dirty } := by
  intro p hp
  cases p with
  | dirty => exact absurd (.inl rfl) hp
  | pixel r c => exact Classical.not_not.mp fun h => hp (.inr ⟨r, c, h, rfl⟩)
  | _ => rfl

theorem State.setReg_sameExcept (s : State) (r : Reg) (b : Byte) :
    SameExcept (fun p => p = .reg r) s (s.setReg r b) := by
  intro p hp
  cases p with
  | reg r' => exact s.setReg_reg_other r r' b fun e => hp (e ▸ rfl)
  | _ => rfl

theorem State.loadRegsUpTo_sameExcept (s : State) (x : Reg) :
    SameExcept (fun p => ∃ r ≤ x, p = .reg r) s (s.loadRegsUpTo x) := by
  intro p hp
  cases p with
  | reg r =>
    change (s.loadRegsUpTo x).reg r = s.reg r
    rw [s.loadRegsUpTo_reg, if_neg fun h => hp ⟨r, h, rfl⟩]
  | _ => simp [Part.same]

theorem State.writeBytes_sameExcept (s : State) (base : Nat) (bs : List Byte) :
    SameExcept (fun p => ∃ k < bs.length, p = .byte (base + k)) s (s.writeBytes base bs) := by
  intro p hp
  cases p with
  | byte a =>
    refine (s.writeBytes_readByte base bs a).trans (dif_neg fun h => hp ⟨a - base, h.2, ?_⟩)
    rw [Nat.add_sub_cancel' h.1]
  | _ => simp [Part.same]

/-- A frame, and after it one more operation: the parts of both. -/
theorem SameExcept.trans_or {w w' : Part → Prop} {s t u : State} (h : SameExcept w s t) (h' : SameExcept w' t u) :
    SameExcept (fun p => w p ∨ w' p) s u :=
  (h.mono fun _ => .inl).trans (h'.mono fun _ => .inr)

theorem State.putResult_sameExcept (s : State) (x : Reg) (b : Byte) :
    SameExcept (fun p => p = .reg x ∨ p = .pc) s (s.putResult x b) :=
  (s.setReg_sameExcept x b).trans_or (State.advance_sameExcept _)

theorem State.putResultAndFlag_sameExcept (s : State) (x : Reg) (b : Byte) (f : Bool) :
    SameExcept (fun p => (p = .reg x ∨ p = .reg vf) ∨ p = .pc) s (s.putResultAndFlag x b f) :=
  ((s.setReg_sameExcept x b).trans_or (State.setReg_sameExcept _ vf _)).trans_or (State.advance_sameExcept _)

theorem State.finishBlit_sameExcept (s : State) (b : Blit) :
    SameExcept (fun p => (p = .reg vf ∨ p = .dirty ∨
      ∃ r c, Display.pixel b.disp r c ≠ s.pixel r c ∧ p = .pixel r c) ∨ p = .pc) s (s.finishBlit b) :=
  ((s.setReg_sameExcept vf _).trans_or (State.setDisplay_sameExcept _ b.disp _)).trans_or (State.advance_sameExcept _)

end Sys2Proof.Machine

namespace Sys2Proof

open Machine

/-- Every part of the state an instruction executed in state `s` may write: `pc`, the registers R22 lists for it, and
what `Instr.writesOther` lists. -/
def Instr.writes (i : Instr) (s : State) (p : Part) : Prop :=
  p = .pc ∨ (∃ r, i.writesReg r ∧ p = .reg r) ∨ i.writesOther s p

theorem Instr.writes_pc (i : Instr) (s : State) : i.writes s .pc := .inl rfl

theorem Instr.writes_reg {i : Instr} {r : Reg} (s : State) (h : i.writesReg r) : i.writes s (.reg r) :=
  .inr (.inl ⟨r, h, rfl⟩)

theorem Instr.writes_other {i : Instr} {s : State} {p : Part} (h : i.writesOther s p) : i.writes s p :=
  .inr (.inr h)

end Sys2Proof

namespace Sys2Proof.Machine

/-- An instruction that ends by advancing `pc` after it changed state listed for it. -/
theorem SameExcept.advance_of_writesOther {i : Instr} {s u : State} {w : Part → Prop} (h : SameExcept w s u)
    (hw : ∀ p, w p → i.writesOther s p) : SameExcept (i.writes s) s u.advance :=
  (h.mono fun p hp => .inr (.inr (hw p hp))).trans (u.advance_sameExcept.mono fun _ hp => .inl hp)

/-- An instruction whose effect is one register result. -/
theorem State.putResult_writes (s : State) (i : Instr) (x : Reg) (b : Byte) (hx : i.writesReg x) :
    SameExcept (i.writes s) s (s.putResult x b) := by
  refine (s.putResult_sameExcept x b).mono ?_
  rintro p (rfl | rfl)
  · exact Instr.writes_reg s hx
  · exact i.writes_pc s

theorem State.putResultAndFlag_writes (s : State) (i : Instr) (x : Reg) (b : Byte) (f : Bool) (hx : i.writesReg x)
    (hvf : i.writesReg vf) : SameExcept (i.writes s) s (s.putResultAndFlag x b f) := by
  refine (s.putResultAndFlag_sameExcept x b f).mono ?_
  rintro p ((rfl | rfl) | rfl)
  · exact Instr.writes_reg s hx
  · exact Instr.writes_reg s hvf
  · exact i.writes_pc s

/-- What DRW leaves differs under its sprite alone (R181, R182). -/
theorem State.drw_writes (s : State) (x y : Reg) (n : BitVec 4) :
    SameExcept ((Instr.drw x y n).writes s) s
      (s.finishBlit (blit (s.reg x) (s.reg y) (s.readBytes s.i.toNat n.toNat) s.disp)) := by
  refine (s.finishBlit_sameExcept _).mono ?_
  rintro p ((rfl | rfl | ⟨r, c, hne, rfl⟩) | rfl)
  · exact Instr.writes_reg s rfl
  · exact Instr.writes_other (.inl rfl)
  · have hcov := Classical.not_not.mp fun h => hne (s.blit_pixel_outside _ _ n r c h)
    exact Instr.writes_other (.inr ⟨r, c, hcov, rfl⟩)
  · exact Instr.writes_pc _ s

/-- Every instruction writes only what is listed for it. -/
theorem exec_sameExcept (i : Instr) (s t : State) (h : exec i s = .next t) : SameExcept (i.writes s) s t := by
  have hc := exec_next_cases i s t h
  cases i <;> dsimp only at hc
  case sys =>
    subst hc
    exact (s.halt_sameExcept _).mono fun _ hp => Instr.writes_other hp
  case ret =>
    obtain ⟨-, rfl⟩ | ⟨l, a, -, rfl⟩ := hc
    · exact (s.halt_sameExcept _).mono fun _ hp => Instr.writes_other (.inr hp)
    · refine ((s.setStack_sameExcept l).trans_or (State.setPc_sameExcept _ a)).mono ?_
      rintro p (hp | hp)
      · exact Instr.writes_other (.inl hp)
      · exact .inl hp
  case call =>
    obtain ⟨-, rfl⟩ | ⟨-, rfl⟩ := hc
    · exact (s.halt_sameExcept _).mono fun _ hp => Instr.writes_other (.inr hp)
    · refine ((s.setStack_sameExcept _).trans_or (State.setPc_sameExcept _ _)).mono ?_
      rintro p (hp | hp)
      · exact Instr.writes_other (.inl hp)
      · exact .inl hp
  case jp | jpV0 =>
    subst hc
    exact (s.setPc_sameExcept _).mono fun _ => .inl
  case seImm | sneImm | seReg | sneReg =>
    subst hc
    exact (s.skipIf_sameExcept _).mono fun _ => .inl
  case skp | sknp =>
    obtain ⟨k, -, rfl⟩ := hc
    exact (s.skipIf_sameExcept _).mono fun _ => .inl
  case ldImm | addImm | ldReg | orReg | andReg | xorReg | ldVxDt =>
    subst hc
    exact s.putResult_writes _ _ _ rfl
  case addReg | subReg | shr | subnReg | shl =>
    subst hc
    exact s.putResultAndFlag_writes _ _ _ _ (.inl rfl) (.inr rfl)
  case ldVxK x =>
    subst hc
    obtain ⟨-, he⟩ | ⟨k, -, -, he⟩ := s.waitKeyWith_cases (Config.keyRank s.keys) x
    · rw [he]
      exact SameExcept.refl _ s
    · rw [he]
      exact s.putResult_writes _ _ _ rfl
  case rnd x nn =>
    subst hc
    refine (s.rndWith_sameExcept _ x nn).mono ?_
    rintro p (rfl | rfl | hp)
    · exact Instr.writes_reg s rfl
    · exact Instr.writes_pc _ s
    · exact Instr.writes_other hp
  case cls =>
    subst hc
    refine (s.setDisplay_sameExcept _ _).advance_of_writesOther ?_
    rintro p (hp | ⟨r, c, -, hp⟩)
    · exact .inl hp
    · exact .inr ⟨r, c, hp⟩
  case drw x y n =>
    obtain ⟨-, rfl⟩ := hc
    exact s.drw_writes x y n
  case ldI | addI =>
    subst hc
    exact (s.setIndex_sameExcept _).advance_of_writesOther fun _ => id
  case ldF =>
    obtain ⟨-, rfl⟩ := hc
    exact (s.setIndex_sameExcept _).advance_of_writesOther fun _ => id
  case ldDtVx =>
    subst hc
    exact (s.setDelay_sameExcept _).advance_of_writesOther fun _ => id
  case ldStVx =>
    subst hc
    exact (s.setSound_sameExcept _).advance_of_writesOther fun _ => id
  case ldB =>
    obtain ⟨-, rfl⟩ := hc
    exact (s.writeBytes_sameExcept _ _).advance_of_writesOther fun _ => id
  case dumpRegs x =>
    obtain ⟨-, rfl⟩ := hc
    refine (s.writeBytes_sameExcept _ _).advance_of_writesOther ?_
    rintro p ⟨k, hk, hp⟩
    rw [State.length_regsUpTo] at hk
    exact ⟨k, Nat.le_of_lt_succ hk, hp⟩
  case loadRegs x =>
    obtain ⟨-, rfl⟩ := hc
    refine ((s.loadRegsUpTo_sameExcept x).trans_or (State.advance_sameExcept _)).mono ?_
    rintro p (⟨r, hr, rfl⟩ | hp)
    · exact Instr.writes_reg s hr
    · exact .inl hp

/-- The value of `pc` after an instruction is that of the table of R24. -/
theorem exec_pc (i : Instr) (s t : State) (h : exec i s = .next t) : t.pc = i.pcAfter s := by
  have hc := exec_next_cases i s t h
  cases i <;> dsimp only at hc
  case ret =>
    obtain ⟨hs, rfl⟩ | ⟨l, a, hs, rfl⟩ := hc <;> simp [Instr.pcAfter, hs]
  case call =>
    obtain ⟨hd, rfl⟩ | ⟨hd, rfl⟩ := hc
    · exact (if_pos hd).symm
    · exact (if_neg hd).symm
  case seImm | sneImm | seReg | sneReg =>
    subst hc
    simp [Instr.pcAfter]
  case skp x =>
    obtain ⟨k, hk, rfl⟩ := hc
    have hk' : (∃ j : Key, j.val = (s.reg x).toNat ∧ s.key j = true) ↔ s.key k = true :=
      ⟨fun ⟨j, hj, hp⟩ => Fin.ext (hj.trans hk.symm) ▸ hp, fun hp => ⟨k, hk, hp⟩⟩
    simp [Instr.pcAfter, hk']
  case sknp x =>
    obtain ⟨k, hk, rfl⟩ := hc
    have hk' : (∃ j : Key, j.val = (s.reg x).toNat ∧ s.key j = false) ↔ s.key k = false :=
      ⟨fun ⟨j, hj, hp⟩ => Fin.ext (hj.trans hk.symm) ▸ hp, fun hp => ⟨k, hk, hp⟩⟩
    simp [Instr.pcAfter, hk']
  case ldVxK x =>
    subst hc
    obtain ⟨hn, he⟩ | ⟨k, hk, -, he⟩ := s.waitKeyWith_cases (Config.keyRank s.keys) x
    · simp [Instr.pcAfter, he, hn]
    · rw [he]
      exact (if_pos ⟨k, hk⟩).symm
  case drw | ldF =>
    obtain ⟨-, rfl⟩ := hc
    rfl
  case ldB | dumpRegs =>
    obtain ⟨-, rfl⟩ := hc
    simp [Instr.pcAfter]
  case loadRegs =>
    obtain ⟨-, rfl⟩ := hc
    rfl
  all_goals
    subst hc
    rfl

end Sys2Proof.Machine

namespace Sys2Proof.Machine

/-! ### Memory is determined by its bytes -/

theorem Memory.read_of_mem {font : Vector Byte 80} {m : Memory} (hm : m.Pairwise fun c d => c.1 < d.1)
    {c : Host.Cell} (hc : c ∈ m) : Memory.read font m c.1 = c.2 := by
  induction m with
  | nil => exact absurd hc List.not_mem_nil
  | cons d rest ih =>
    obtain ⟨hd, hr⟩ := List.pairwise_cons.mp hm
    rw [Memory.read]
    obtain rfl | hc := List.mem_cons.mp hc
    · exact if_pos rfl
    · rw [if_neg (Nat.ne_of_gt (hd c hc)), ih hr hc]

/-- The cells of a canonical memory are the bytes that differ from what RESET leaves. -/
theorem Memory.mem_iff_read {font : Vector Byte 80} {m : Memory} (hm : Memory.wf font m) (c : Host.Cell) :
    c ∈ m ↔ Memory.read font m c.1 = c.2 ∧ c.2 ≠ Memory.resetByte font c.1 := by
  obtain ⟨hp, hb⟩ := hm
  refine ⟨fun hc => ⟨Memory.read_of_mem hp hc, (hb c hc).2⟩, fun ⟨hr, hne⟩ => ?_⟩
  by_cases hl : ∃ d ∈ m, d.1 = c.1
  · obtain ⟨d, hd, hdc⟩ := hl
    have hv : d.2 = c.2 := by rw [← Memory.read_of_mem hp hd, hdc, hr]
    rwa [← Prod.ext hdc hv]
  · have hu := Memory.read_unlisted font c.1 m fun d hd he => hl ⟨d, hd, he⟩
    exact absurd (hr.symm.trans hu) hne

theorem Memory.ext_of_wf {font : Vector Byte 80} {m m' : Memory} (hm : Memory.wf font m) (hm' : Memory.wf font m')
    (h : ∀ a, Memory.read font m a = Memory.read font m' a) : m = m' := by
  have hanti : Std.Antisymm fun c d : Host.Cell => c.1 < d.1 := ⟨fun _ _ h h' => absurd h (Nat.lt_asymm h')⟩
  have hirr : Std.Irrefl fun c d : Host.Cell => c.1 < d.1 := ⟨fun _ => Nat.lt_irrefl _⟩
  refine hm.1.eq_of_mem_iff hm'.1 fun c => ?_
  rw [Memory.mem_iff_read hm, Memory.mem_iff_read hm', h]

/-! ### The parts of the state are the whole of it -/

theorem State.v_ext {s t : State} (h : ∀ r, t.reg r = s.reg r) : t.v = s.v :=
  Vector.ext fun k hk => h ⟨k, hk⟩

theorem State.keys_ext {s t : State} (h : ∀ k, t.key k = s.key k) : t.keys = s.keys :=
  Vector.ext fun k hk => h ⟨k, hk⟩

theorem State.disp_ext {s t : State} (h : ∀ r c, t.pixel r c = s.pixel r c) : t.disp = s.disp :=
  Vector.ext fun r hr => Vector.ext fun c hc => h ⟨r, hr⟩ ⟨c, hc⟩

theorem State.mem_ext {s t : State} (hs : Memory.wf s.params.font s.mem) (ht : Memory.wf t.params.font t.mem)
    (hp : t.params = s.params) (h : ∀ a, t.readByte a = s.readByte a) : t.mem = s.mem := by
  simp only [State.readByte, hp] at h
  exact Memory.ext_of_wf (hp ▸ ht) hs h

theorem State.ext_of_parts {s t : State} (hs : Memory.wf s.params.font s.mem) (ht : Memory.wf t.params.font t.mem)
    (h : ∀ p : Part, p.same s t) : t = s := by
  have hv := State.v_ext fun r => h (.reg r)
  have hd := State.disp_ext fun r c => h (.pixel r c)
  have hk := State.keys_ext fun k => h (.key k)
  have hm := State.mem_ext hs ht (h .params) fun a => h (.byte a)
  have hi := h .index
  have hpc := h .pc
  have hst := h .stack
  have hdi := h .dirty
  have hdt := h .delay
  have hso := h .sound
  have hru := h .run
  have hpa := h .params
  have hdr := h .draws
  cases s
  cases t
  simp_all [Part.same]

/-! ### The display in row-major form (R30) -/

theorem Display.linear_eq_flatten (d : Display) : Display.linear d = d.flatten.toList := by
  simp [Display.linear, Vector.flatten, Vector.toList, Function.comp_def]

theorem Display.getElem?_linear (d : Display) (r : Row) (c : Col) :
    (Display.linear d)[64 * r.val + c.val]? = some (Display.pixel d r c) := by
  have hr : (64 * r.val + c.val) / 64 = r.val := by omega
  have hc : (64 * r.val + c.val) % 64 = c.val := by omega
  have hlt : 64 * r.val + c.val < 32 * 64 := by omega
  rw [Display.linear_eq_flatten, Vector.getElem?_toList, Vector.getElem?_eq_getElem hlt, Vector.getElem_flatten hlt]
  simp only [hr, hc, Display.pixel]

/-! ### The invariant -/

theorem State.Inv.of_mem_stack_pc {s t : State} (hs : s.Inv) (hp : t.params = s.params) (hm : t.mem = s.mem)
    (hst : t.stack = s.stack) (hpc : t.pc.toNat ≤ 0x10FE) : t.Inv := by
  obtain ⟨hwf, hok, -⟩ := hs
  refine ⟨?_, ?_, hpc⟩
  · rwa [hp, hm]
  · rwa [State.stackOk, hp, hst]

theorem State.inv_resetWith (params : Params) (draws : Nat) : (State.resetWith params draws).Inv := by
  refine ⟨Memory.wf_nil _, ⟨Nat.zero_le _, ?_⟩, ?_⟩
  · exact fun a ha => absurd ha List.not_mem_nil
  · change (0x0200#16).toNat ≤ 0x10FE
    decide

end Sys2Proof.Machine

namespace Sys2Proof

open Machine

theorem Instr.not_writes_params (i : Instr) (s : State) : ¬ i.writes s .params := by
  cases i <;> simp [Instr.writes, Instr.writesOther]

theorem Instr.writes_stack {i : Instr} {s : State} (h : i.writes s .stack) : i = .ret ∨ ∃ nnn, i = .call nnn := by
  cases i <;> simp [Instr.writes, Instr.writesOther] at h ⊢

/-- After an instruction that could be fetched `pc` is at most 0xFFF + 0xFF (R24). -/
theorem Instr.pcAfter_toNat_le (i : Instr) (s : State) (hs : s.stackOk) (hf : s.pc.toNat + 1 ≤ 4095) :
    (i.pcAfter s).toNat ≤ 0x10FE := by
  have h0 : s.pc.toNat ≤ 0x10FE := by omega
  have h2 : (s.pc + 2).toNat ≤ 0x10FE := by bv_omega
  have h4 : (s.pc + 4).toNat ≤ 0x10FE := by bv_omega
  have ha (nnn : Addr) : (addrWord nnn).toNat ≤ 0xFFF := by
    rw [addrWord_toNat]
    exact Nat.le_of_lt_succ nnn.isLt
  have hb (nnn : Addr) : (addrWord nnn + byteWord (s.reg 0)).toNat ≤ 0x10FE := by
    have hn := ha nnn
    have hv := (s.reg 0).isLt
    rw [BitVec.toNat_add, byteWord_toNat]
    omega
  cases i
  case jp nnn => exact Nat.le_trans (ha nnn) (by decide)
  case jpV0 nnn => exact hb nnn
  case call nnn =>
    rw [Instr.pcAfter]
    split
    · exact h0
    · exact Nat.le_trans (ha nnn) (by decide)
  case ret =>
    rw [Instr.pcAfter]
    cases hl : s.stack.getLast? with
    | none => exact h0
    | some a => exact Nat.le_trans (hs.2 a (List.mem_of_getLast? hl)).2 (by decide)
  case seImm | sneImm | seReg | sneReg | skp | sknp | ldVxK =>
    rw [Instr.pcAfter]
    split <;> assumption
  case sys => exact h0
  all_goals exact h2

end Sys2Proof

namespace Sys2Proof.Machine

theorem exec_params (i : Instr) (s t : State) (h : exec i s = .next t) : t.params = s.params :=
  exec_sameExcept i s t h .params (i.not_writes_params s)

/-- Everything an instruction can do to memory: nothing, or a run of stores at `I` to bytes that exist. -/
theorem exec_mem_cases (i : Instr) (s t : State) (h : exec i s = .next t) :
    t.mem = s.mem ∨ ∃ bs, s.i.toNat + bs.length ≤ 4096 ∧ t.mem = (s.writeBytes s.i.toNat bs).mem := by
  have hc := exec_next_cases i s t h
  cases i <;> dsimp only at hc
  case ldB x =>
    obtain ⟨hb, rfl⟩ := hc
    exact .inr ⟨decimalDigits (s.reg x), by rw [length_decimalDigits]; omega, rfl⟩
  case dumpRegs x =>
    obtain ⟨hb, rfl⟩ := hc
    exact .inr ⟨s.regsUpTo x, by rw [State.length_regsUpTo]; omega, rfl⟩
  case ret =>
    obtain ⟨-, rfl⟩ | ⟨l, a, -, rfl⟩ := hc <;> exact .inl rfl
  case call =>
    obtain ⟨-, rfl⟩ | ⟨-, rfl⟩ := hc <;> exact .inl rfl
  case ldVxK x =>
    subst hc
    obtain ⟨-, he⟩ | ⟨k, -, -, he⟩ := s.waitKeyWith_cases (Config.keyRank s.keys) x
    · exact .inl (congrArg State.mem he)
    · exact .inl ((congrArg State.mem he).trans (s.putResult_mem _ _))
  case skp | sknp =>
    obtain ⟨k, -, rfl⟩ := hc
    exact .inl rfl
  case drw | ldF | loadRegs =>
    obtain ⟨-, rfl⟩ := hc
    exact .inl rfl
  all_goals
    subst hc
    exact .inl rfl

theorem exec_mem_wf (i : Instr) (s t : State) (hs : Memory.wf s.params.font s.mem) (h : exec i s = .next t) :
    Memory.wf t.params.font t.mem := by
  rw [exec_params i s t h]
  obtain hm | ⟨bs, hb, hm⟩ := exec_mem_cases i s t h
  · rwa [hm]
  · rw [hm]
    exact s.wf_writeBytes _ bs hs (.inr hb)

/-- RET drops an entry, CALL pushes the address after itself where there is room, and nothing else touches the
stack (R28). -/
theorem exec_stackOk (i : Instr) (s t : State) (hs : s.stackOk) (hf : s.pc.toNat + 1 ≤ 4095)
    (h : exec i s = .next t) : t.stackOk := by
  have hp := exec_params i s t h
  obtain ⟨hlen, hent⟩ := hs
  by_cases hw : i.writes s .stack
  · have hc := exec_next_cases i s t h
    obtain rfl | ⟨nnn, rfl⟩ := Instr.writes_stack hw <;> dsimp only at hc
    · obtain ⟨-, rfl⟩ | ⟨l, a, hl, rfl⟩ := hc
      · exact ⟨hlen, hent⟩
      · rw [hl] at hlen hent
        refine ⟨?_, fun b hb => hent b (List.mem_append_left _ hb)⟩
        exact Nat.le_trans (by simp) hlen
    · obtain ⟨-, rfl⟩ | ⟨hne, rfl⟩ := hc
      · exact ⟨hlen, hent⟩
      · refine ⟨?_, fun b hb => ?_⟩
        · simp only [State.push_stack, State.push_params, List.length_append, List.length_singleton]
          omega
        · obtain hb | hb := List.mem_append.mp hb
          · exact hent b hb
          · obtain rfl := List.mem_singleton.mp hb
            bv_omega
  · have hst : t.stack = s.stack := exec_sameExcept i s t h .stack hw
    rw [State.stackOk, hst, hp]
    exact ⟨hlen, hent⟩

theorem exec_inv (i : Instr) (s t : State) (hs : s.Inv) (hf : s.pc.toNat + 1 ≤ 4095) (h : exec i s = .next t) :
    t.Inv := by
  obtain ⟨hm, hst, -⟩ := hs
  refine ⟨exec_mem_wf i s t hm h, exec_stackOk i s t hst hf h, ?_⟩
  rw [exec_pc i s t h]
  exact i.pcAfter_toNat_le s hst hf

theorem step_inv (s t : State) (hs : s.Inv) (h : step s = .next t) : t.Inv := by
  have hcd : s.clearDirty.Inv := hs
  obtain ⟨r, -, rfl⟩ | ⟨-, hf, ⟨i, -, he⟩ | ⟨e, -, rfl⟩⟩ := step_next_cases s t h
  · exact hs
  · exact exec_inv i s.clearDirty t hcd hf he
  · exact hcd

/-! ### The transactions -/

theorem State.load_inv (s : State) (bytes : List Byte) (hs : s.Inv) : (s.load bytes).1.Inv := by
  by_cases hb : bytes.length ≤ 3584
  · rw [s.load_of_le bytes hb]
    obtain ⟨hm, hst, hpc⟩ := hs
    refine ⟨?_, ?_, ?_⟩
    · rw [State.writeBytes_params]
      exact s.wf_writeBytes _ bytes hm (.inr (by omega))
    · rwa [State.stackOk, State.writeBytes_stack, State.writeBytes_params]
    · rwa [State.writeBytes_pc]
  · rw [s.load_of_gt bytes (Nat.lt_of_not_le hb)]
    exact hs

theorem Condition.restart_inv (c : Condition) : c.restart.Inv := by
  cases c <;> exact State.inv_resetWith _ _

/-- A transaction on a machine that has a state. -/
theorem Condition.transact_ready (s : State) (t : Transaction) :
    (Condition.ready s).transact t = s.transact t := by
  cases t <;> rfl

/-- Everything a transaction can do to a machine without a state: RESET restarts it, any other leaves it as it is. -/
theorem Condition.transact_of_not_hasState (c : Condition) (t : Transaction) (hc : c.hasState = false) :
    (c.transact t).1 = if t = .reset then .ready c.restart else c := by
  cases c with
  | ready s => cases hc
  | faulted | refused => cases t <;> rfl

theorem State.stepTransaction_inv (s : State) (hs : s.Inv) : s.stepTransaction.1.Inv := by
  unfold State.stepTransaction
  split
  next t ht => exact step_inv s t hs ht
  all_goals trivial

theorem State.transact_inv (s : State) (t : Transaction) (hs : s.Inv) : (s.transact t).1.Inv := by
  cases t with
  | reset => exact Condition.restart_inv (.ready s)
  | load bytes => exact s.load_inv bytes hs
  | step => exact s.stepTransaction_inv hs
  | tick | setKey | readFrame => exact hs

theorem Condition.transact_inv (c : Condition) (t : Transaction) (hc : c.Inv) : (c.transact t).1.Inv := by
  by_cases hst : c.hasState = false
  · rw [Condition.transact_of_not_hasState c t hst]
    split
    · exact c.restart_inv
    · exact hc
  · cases c with
    | ready s =>
      rw [Condition.transact_ready]
      exact s.transact_inv t hc
    | faulted | refused => exact absurd rfl hst

/-- What every transaction keeps, every sequence of transactions keeps. -/
theorem Condition.after_induction {P : Condition → Prop} (h : ∀ c t, P c → P (c.transact t).1) (c : Condition)
    (ts : List Transaction) (hc : P c) : P (c.after ts) := by
  induction ts generalizing c with
  | nil => exact hc
  | cons t ts ih => exact ih _ (h c t hc)

/-- The model gave every instruction so far a meaning. -/
def Condition.notRefused (c : Condition) : Prop := ∀ r p d, c ≠ .refused r p d

theorem State.stepTransaction_notRefused (s : State) : s.stepTransaction.1.notRefused := by
  unfold State.stepTransaction
  split
  case h_3 r hr => exact absurd hr (step_ne_refused s r)
  all_goals nofun

theorem Condition.transact_notRefused (c : Condition) (t : Transaction) (hc : c.notRefused) :
    (c.transact t).1.notRefused := by
  cases c with
  | ready s =>
    rw [Condition.transact_ready]
    cases t with
    | step => exact s.stepTransaction_notRefused
    | _ => nofun
  | faulted f p d =>
    rw [Condition.transact_of_not_hasState _ t rfl]
    split
    · nofun
    · exact hc
  | refused r p d => exact absurd rfl (hc r p d)

/-! ### Halts -/

theorem State.load_run_of_halted (s : State) (r : HaltReason) (bytes : List Byte) (h : s.run = .halted r) :
    ∃ r', (s.load bytes).1.run = .halted r' := by
  by_cases hb : bytes.length ≤ 3584
  · rw [s.load_of_le bytes hb, State.writeBytes_run]
    exact ⟨r, h⟩
  · rw [s.load_of_gt bytes (Nat.lt_of_not_le hb)]
    exact ⟨.loadError, rfl⟩

theorem State.stepTransaction_of_halted (s : State) (r : HaltReason) (h : s.run = .halted r) :
    s.stepTransaction = (.ready s, .ran (.halted r)) := by
  simp only [State.stepTransaction, step_of_halted s r h, h]

theorem State.transact_of_halted (s : State) (r : HaltReason) (t : Transaction) (h : s.run = .halted r)
    (ht : t ≠ .reset) : ∃ u r', (s.transact t).1 = .ready u ∧ u.run = .halted r' := by
  cases t with
  | reset => exact absurd rfl ht
  | load bytes =>
    obtain ⟨r', hr'⟩ := s.load_run_of_halted r bytes h
    exact ⟨_, r', rfl, hr'⟩
  | step => exact ⟨s, r, by rw [State.transact, s.stepTransaction_of_halted r h], h⟩
  | tick | setKey | readFrame => exact ⟨_, r, rfl, h⟩

/-- The parts of the state the driver writes while a program runs: the timers by TICK, the key latch by SET_KEY. -/
def Part.driverWritten (p : Part) : Prop := p = .delay ∨ p = .sound ∨ ∃ k, p = .key k

theorem State.transact_of_halted_afterBoot (s : State) (r : HaltReason) (t : Transaction) (h : s.run = .halted r)
    (ht : t.afterBoot = true) : ∃ u, (s.transact t).1 = .ready u ∧ SameExcept Part.driverWritten s u := by
  cases t with
  | reset | load => cases ht
  | step => exact ⟨s, by rw [State.transact, s.stepTransaction_of_halted r h], SameExcept.refl _ s⟩
  | tick => exact ⟨_, rfl, s.tick_sameExcept.mono fun _ hp => hp.elim .inl fun hp => .inr (.inl hp)⟩
  | setKey k pressed => exact ⟨_, rfl, (s.setKey_sameExcept k pressed).mono fun _ hp => .inr (.inr ⟨k, hp⟩)⟩
  | readFrame => exact ⟨s, rfl, SameExcept.refl _ s⟩

theorem Condition.after_of_halted (s : State) (r : HaltReason) (ts : List Transaction) (h : s.run = .halted r)
    (hts : .reset ∉ ts) : ∃ t r', (Condition.ready s).after ts = .ready t ∧ t.run = .halted r' := by
  induction ts generalizing s r with
  | nil => exact ⟨s, r, rfl, h⟩
  | cons t ts ih =>
    obtain ⟨ht, hts⟩ := not_or.mp (mt List.mem_cons.mpr hts)
    obtain ⟨u, r', hu, hr'⟩ := s.transact_of_halted r t h (Ne.symm ht)
    rw [Condition.after, Condition.transact_ready, hu]
    exact ih u r' hr' hts

theorem Condition.after_of_halted_afterBoot (s : State) (r : HaltReason) (ts : List Transaction)
    (h : s.run = .halted r) (hts : ts.all Transaction.afterBoot = true) :
    ∃ t, (Condition.ready s).after ts = .ready t ∧ SameExcept Part.driverWritten s t := by
  induction ts generalizing s with
  | nil => exact ⟨s, rfl, SameExcept.refl _ s⟩
  | cons t ts ih =>
    obtain ⟨ht, hts⟩ := Bool.and_eq_true_iff.mp (List.all_cons ▸ hts)
    obtain ⟨u, hu, hsu⟩ := s.transact_of_halted_afterBoot r t h ht
    have hrun : u.run = s.run := hsu .run (by simp [Part.driverWritten])
    obtain ⟨v, hv, huv⟩ := ih u (hrun.trans h) hts
    rw [Condition.after, Condition.transact_ready, hu]
    exact ⟨v, hv, hsu.trans huv⟩

/-! ### What a STEP drew (R35) -/

theorem State.finishBlit_dirty_iff (s : State) (x y : Reg) (n : BitVec 4) (hd : s.dirty = false) :
    (s.finishBlit (blit (s.reg x) (s.reg y) (s.readBytes s.i.toNat n.toNat) s.disp)).dirty = true ↔
      ∃ r c, s.spriteCovers (s.reg x) (s.reg y) n.toNat r c := by
  rw [State.finishBlit_dirty, hd, Bool.false_or, blit_changed]
  simp only [State.spriteOn_readBytes]

theorem State.finishBlit_pixel_ne_iff (s : State) (x y : Reg) (n : BitVec 4) (r : Row) (c : Col) :
    (s.finishBlit (blit (s.reg x) (s.reg y) (s.readBytes s.i.toNat n.toNat) s.disp)).pixel r c ≠ s.pixel r c ↔
      s.spriteCovers (s.reg x) (s.reg y) n.toNat r c := by
  rw [State.finishBlit_pixel]
  constructor
  · intro h
    exact Classical.not_not.mp fun hn => h (s.blit_pixel_outside _ _ n r c hn)
  · intro h
    rw [s.blit_pixel_covered _ _ n r c h]
    exact Bool.not_ne_self _

end Sys2Proof.Machine

namespace Sys2Proof

open Machine

theorem Instr.writes_dirty {i : Instr} {s : State} (h : i.writes s .dirty) :
    i = .cls ∨ ∃ x y n, i = .drw x y n := by
  cases i <;> simp [Instr.writes, Instr.writesOther] at h ⊢

end Sys2Proof

namespace Sys2Proof.Machine

/-- Executed with `dirty` clear, an instruction sets it exactly when it is CLS, or a DRW that changed a pixel. -/
theorem exec_dirty_iff (i : Instr) (s t : State) (hd : s.dirty = false) (h : exec i s = .next t) :
    t.dirty = true ↔ i = .cls ∨ ((∃ x y n, i = .drw x y n) ∧ ∃ r c, t.pixel r c ≠ s.pixel r c) := by
  have hc := exec_next_cases i s t h
  by_cases hw : i.writes s .dirty
  · obtain rfl | ⟨x, y, n, rfl⟩ := Instr.writes_dirty hw <;> dsimp only at hc
    · subst hc
      simp
    · obtain ⟨-, rfl⟩ := hc
      rw [s.finishBlit_dirty_iff x y n hd]
      simp only [s.finishBlit_pixel_ne_iff x y n]
      simp
  · have ht : t.dirty = false := (exec_sameExcept i s t h .dirty hw).trans hd
    refine iff_of_false (by simp [ht]) ?_
    rintro (rfl | ⟨⟨x, y, n, rfl⟩, -⟩)
    · exact hw (Instr.writes_other (.inl rfl))
    · exact hw (Instr.writes_other (.inl rfl))

theorem step_dirty_iff (s t : State) (hr : s.run = .running) (h : step s = .next t) :
    t.dirty = true ↔ decode s.fetchWord = .ok .cls ∨
      ((∃ x y n, decode s.fetchWord = .ok (.drw x y n)) ∧ ∃ r c, t.pixel r c ≠ s.pixel r c) := by
  obtain ⟨r, hh, -⟩ | ⟨-, -, ⟨i, hd, he⟩ | ⟨e, hd, rfl⟩⟩ := step_next_cases s t h
  · rw [hr] at hh
    cases hh
  · simp only [hd, Except.ok.injEq]
    exact exec_dirty_iff i s.clearDirty t rfl he
  · simp [hd]

/-! ### The statements -/

/-- Settles O18: the instruction's `pc` is that of the table, the stack changes by RET and CALL alone, and memory
by runs of stores to bytes that exist; a halted STEP and an Invalid word leave all three. -/
theorem stepKeepsInvariant : Obligations.StepKeepsInvariant := step_inv

/-- Settles O19: each transaction keeps the invariant, and none is refused, so induction over the list gives both. -/
theorem transactionsKeepInvariant : Obligations.TransactionsKeepInvariant :=
  ⟨Condition.after_induction Condition.transact_inv,
    fun _ ts => Condition.after_induction Condition.transact_notRefused _ ts nofun⟩

/-- Settles O11: by the inversion lemma of `exec`, instruction by instruction. -/
theorem pcFollowsTheTable : Obligations.PcFollowsTheTable := by
  refine ⟨exec_pc, fun s t h => ?_⟩
  cases h
  rfl

/-- Settles O13: the frame of each named operation, instruction by instruction; for DRW the blit changes no pixel
outside its sprite. -/
theorem instructionsWriteOnlyTheirState : Obligations.InstructionsWriteOnlyTheirState := exec_sameExcept

/-- Settles O16: only CLS and DRW write `dirty`, and a blit changes exactly the pixels under the sprite. -/
theorem dirtyTellsWhatTheStepDrew : Obligations.DirtyTellsWhatTheStepDrew := step_dirty_iff

/-- Settles O20: a canonical memory lists exactly the bytes that differ from what RESET leaves, in rising order. -/
theorem partsCoverState : Obligations.PartsCoverState := fun _ _ => State.ext_of_parts

/-- Settles O27: the row-major list is the flattened display. -/
theorem frameReadIsPureAndRowMajor : Obligations.FrameReadIsPureAndRowMajor := by
  refine ⟨fun s => rfl, fun s r c => ⟨?_, Display.getElem?_linear s.disp r c⟩⟩
  rw [Display.linear_eq_flatten, Vector.length_toList]

/-- Settles O29: by induction over the transactions, each of which leaves a halted machine halted. -/
theorem haltLastsUntilReset : Obligations.HaltLastsUntilReset :=
  fun s r ts h => ⟨Condition.after_of_halted s r ts h, Condition.after_of_halted_afterBoot s r ts h⟩

/-- Settles O17: memory lists nothing, the stack is empty, and `pc` is 0x200. -/
theorem resetMeetsInvariant : Obligations.ResetMeetsInvariant :=
  ⟨State.inv_resetWith _ _, State.inv_resetWith⟩

/-- Settles O21: the state after RESET is written out, and it is made of the parameters and the draw counter alone. -/
theorem resetGivesTheTabulatedValues : Obligations.ResetGivesTheTabulatedValues := by
  intro s
  refine ⟨s.restart, rfl, fun f => rfl, fun j hj => dif_pos hj, fun a ha _ => dif_neg (Nat.not_lt.mpr ha), ?_, rfl,
    rfl, rfl, ?_, rfl, rfl, rfl, ?_, rfl, fun s' hp hd => ?_⟩
  · exact fun r => Vector.getElem_replicate _
  · intro r c
    simp [State.pixel, Display.pixel, State.restart, State.resetWith]
  · exact fun k => Vector.getElem_replicate _
  · rw [Condition.transact_ready, State.transact, State.restart, hp, hd]
    rfl

end Sys2Proof.Machine

/-! PROOFS (spec/10_state.md R22): which registers each instruction reads and writes. An instruction ignores the
registers it is not listed as reading (O12); for those it is listed with, states that show it (O58). -/

namespace Sys2Proof.Machine

/-! ### A register write before each named operation

A write of register `r` before an operation that does not read it either is overwritten by the operation or comes to the
same as the write after it. -/

@[simp] theorem State.setReg_self (s : State) (r : Reg) : s.setReg r (s.reg r) = s := by
  simp [State.setReg, State.reg]

@[simp] theorem State.setReg_setReg_same (s : State) (r : Reg) (a b : Byte) :
    (s.setReg r a).setReg r b = s.setReg r b := by
  simp [State.setReg]

theorem State.setReg_comm (s : State) {r x : Reg} (a b : Byte) (h : x ≠ r) :
    (s.setReg r a).setReg x b = (s.setReg x b).setReg r a := by
  have hv : r.val ≠ x.val := fun e => h (Fin.ext e.symm)
  simp only [State.setReg, Vector.set_comm a b hv]

@[simp] theorem State.putResult_self (s : State) (r : Reg) : s.putResult r (s.reg r) = s.advance := by
  rw [State.putResult, State.setReg_self]

theorem State.setReg_readBytes (s : State) (r : Reg) (b : Byte) (base len : Nat) :
    (s.setReg r b).readBytes base len = s.readBytes base len :=
  s.readBytes_congr (s.setReg r b) (fun _ => rfl) base len

theorem State.setReg_writeBytes (s : State) (r : Reg) (b : Byte) (base : Nat) (bs : List Byte) :
    (s.setReg r b).writeBytes base bs = (s.writeBytes base bs).setReg r b := by
  induction bs generalizing s base with
  | nil => rfl
  | cons c rest ih => exact ih (s.writeByte base c) (base + 1)

theorem State.setReg_regsUpTo (s : State) {r x : Reg} (b : Byte) (h : ¬ r ≤ x) :
    (s.setReg r b).regsUpTo x = s.regsUpTo x := by
  refine List.ext_getElem (by simp) fun k hk hk' => ?_
  rw [State.getElem_regsUpTo, State.getElem_regsUpTo]
  refine s.setReg_reg_other r _ b fun e => h ?_
  rw [State.length_regsUpTo] at hk
  exact Fin.le_def.mpr (e ▸ Nat.le_of_lt_succ hk)

theorem State.setReg_loadRegsUpTo_of_le (s : State) {r x : Reg} (b : Byte) (h : r ≤ x) :
    (s.setReg r b).loadRegsUpTo x = s.loadRegsUpTo x := by
  have hv : ∀ k, ((s.setReg r b).loadRegsUpTo x).reg k = (s.loadRegsUpTo x).reg k := by
    intro k
    rw [State.loadRegsUpTo_reg, State.loadRegsUpTo_reg]
    split
    · rfl
    next hk => exact s.setReg_reg_other r k b fun e => hk (e ▸ h)
  exact congrArg (fun v => { s with v := v }) (State.v_ext hv)

theorem State.setReg_loadRegsUpTo_of_not_le (s : State) {r x : Reg} (b : Byte) (h : ¬ r ≤ x) :
    (s.setReg r b).loadRegsUpTo x = (s.loadRegsUpTo x).setReg r b := by
  have hv : ∀ k, ((s.setReg r b).loadRegsUpTo x).reg k = ((s.loadRegsUpTo x).setReg r b).reg k := by
    intro k
    by_cases hk : k = r
    · subst hk
      rw [State.loadRegsUpTo_reg, if_neg h, State.setReg_reg_same, State.setReg_reg_same]
    · rw [State.setReg_reg_other _ r k b hk, State.loadRegsUpTo_reg, State.loadRegsUpTo_reg,
        State.setReg_reg_other s r k b hk]
      rfl
  exact congrArg (fun v => { s with v := v }) (State.v_ext hv)

/-! ### Two outcomes that show nothing of what a register held -/

/-- How an execution ends from `s` and from `s` with `b` in register `r`, when what `r` holds does not matter: `r` is
overwritten and the two are the same; or `r` is left alone and the rest is the same; or both end in the same fault. -/
inductive Unseen (r : Reg) (b : Byte) (s : State) :
    Host.Outcome State Fault Refusal → Host.Outcome State Fault Refusal → Prop where
  | overwritten (t : State) : Unseen r b s (.next t) (.next t)
  | kept (t : State) (h : t.reg r = s.reg r) : Unseen r b s (.next t) (.next (t.setReg r b))
  | fault (f : Fault) : Unseen r b s (.fault f) (.fault f)

theorem Unseen.ifAccessible {r : Reg} {b : Byte} {s t u : State} (base len : Nat)
    (h : Unseen r b s (.next t) (.next u)) :
    Unseen r b s (ifAccessible base len t) (Machine.ifAccessible base len u) := by
  unfold Machine.ifAccessible
  split
  · exact h
  · exact .fault _

theorem Unseen.putResult (r : Reg) (b : Byte) (s : State) (x : Reg) (v : Byte) :
    Unseen r b s (.next (s.putResult x v)) (.next ((s.setReg r b).putResult x v)) := by
  by_cases h : r = x
  · subst h
    rw [State.putResult, State.putResult, State.setReg_setReg_same]
    exact .overwritten _
  · have hu : (s.setReg r b).putResult x v = (s.putResult x v).setReg r b :=
      congrArg State.advance (s.setReg_comm b v (Ne.symm h))
    rw [hu]
    exact .kept _ (by rw [State.putResult_reg, if_neg h])

theorem Unseen.rndWith (r : Reg) (b : Byte) (s : State) (draw : Byte) (x : Reg) (nn : Byte) :
    Unseen r b s (.next (s.rndWith draw x nn)) (.next ((s.setReg r b).rndWith draw x nn)) := by
  by_cases h : r = x
  · subst h
    rw [State.rndWith, State.rndWith, State.putResult, State.putResult, State.setReg_setReg_same]
    exact .overwritten _
  · have hu : (s.setReg r b).rndWith draw x nn = (s.rndWith draw x nn).setReg r b :=
      congrArg (fun t : State => { t.advance with draws := s.draws + 1 }) (s.setReg_comm b _ (Ne.symm h))
    rw [hu]
    exact .kept _ (by rw [State.rndWith_reg, if_neg h])

theorem Unseen.putResultAndFlag (r : Reg) (b : Byte) (s : State) (x : Reg) (v : Byte) (f : Bool) :
    Unseen r b s (.next (s.putResultAndFlag x v f)) (.next ((s.setReg r b).putResultAndFlag x v f)) := by
  by_cases hx : r = x
  · subst hx
    rw [State.putResultAndFlag, State.putResultAndFlag, State.setReg_setReg_same]
    exact .overwritten _
  · rw [State.putResultAndFlag, State.putResultAndFlag, s.setReg_comm b v (Ne.symm hx), State.setFlag, State.setFlag]
    by_cases hf : r = vf
    · subst hf
      rw [State.setReg_setReg_same]
      exact .overwritten _
    · rw [State.setReg_comm _ b _ (Ne.symm hf)]
      refine .kept ((s.setReg x v).setReg vf (flagByte f)).advance ?_
      rw [State.advance_reg, State.setReg_reg_other _ _ _ _ hf, State.setReg_reg_other _ _ _ _ hx]

theorem Unseen.finishBlit (r : Reg) (b : Byte) (s : State) (d : Blit) :
    Unseen r b s (.next (s.finishBlit d)) (.next ((s.setReg r b).finishBlit d)) := by
  by_cases h : r = vf
  · subst h
    have hu : (s.setReg vf b).finishBlit d = s.finishBlit d :=
      congrArg (fun t : State => { t with disp := d.disp, dirty := s.dirty || d.changed }.advance)
        (s.setReg_setReg_same vf b (flagByte d.collision))
    rw [hu]
    exact .overwritten _
  · have hu : (s.setReg r b).finishBlit d = (s.finishBlit d).setReg r b :=
      congrArg (fun t : State => { t with disp := d.disp, dirty := s.dirty || d.changed }.advance)
        (s.setReg_comm b (flagByte d.collision) (Ne.symm h))
    rw [hu]
    exact .kept _ (by rw [State.finishBlit_reg, if_neg h])

theorem Unseen.loadRegsUpTo (r : Reg) (b : Byte) (s : State) (x : Reg) :
    Unseen r b s (.next (s.loadRegsUpTo x).advance) (.next ((s.setReg r b).loadRegsUpTo x).advance) := by
  by_cases h : r ≤ x
  · rw [s.setReg_loadRegsUpTo_of_le b h]
    exact .overwritten _
  · rw [s.setReg_loadRegsUpTo_of_not_le b h]
    refine .kept (s.loadRegsUpTo x).advance ?_
    rw [State.advance_reg, State.loadRegsUpTo_reg, if_neg h]

theorem Unseen.writeBytes (r : Reg) (b : Byte) (s : State) (base : Nat) (bs : List Byte) :
    Unseen r b s (.next (s.writeBytes base bs).advance) (.next ((s.setReg r b).writeBytes base bs).advance) := by
  rw [State.setReg_writeBytes]
  exact .kept (s.writeBytes base bs).advance (s.writeBytes_reg base bs r)

theorem Unseen.waitKeyWith (r : Reg) (b : Byte) (s : State) (rank : Nat) (x : Reg) :
    Unseen r b s (.next (s.waitKeyWith rank x)) (.next ((s.setReg r b).waitKeyWith rank x)) := by
  simp only [State.waitKeyWith, State.setReg_keys]
  split
  · exact .kept s rfl
  · exact .putResult r b s x _

end Sys2Proof.Machine

namespace Sys2Proof

open Machine

theorem Instr.ignoresReg_of_unseen {i : Instr} {r : Reg}
    (h : ∀ draw rank s b, Unseen r b s (i.execWith draw rank s) (i.execWith draw rank (s.setReg r b))) :
    i.ignoresReg r := by
  intro draw rank s b
  have hu := h draw rank s b
  generalize i.execWith draw rank s = o at hu ⊢
  generalize i.execWith draw rank (s.setReg r b) = o' at hu ⊢
  cases hu with
  | overwritten t =>
    refine ⟨fun t' ht => ⟨t, rfl, ?_⟩, nofun⟩
    cases ht
    exact ⟨SameExcept.refl _ t, .inl rfl⟩
  | kept t hk =>
    refine ⟨fun t' ht => ⟨t.setReg r b, rfl, ?_⟩, nofun⟩
    cases ht
    exact ⟨t.setReg_sameExcept r b, .inr ⟨hk, t.setReg_reg_same r b⟩⟩
  | fault f => exact ⟨nofun, fun g hg => hg⟩

/-- What a register holds that R22 does not list as read is not seen. -/
theorem Instr.unseen_of_not_readsReg (i : Instr) (r : Reg) (hr : ¬ i.readsReg r) (draw : Byte) (rank : Nat) (s : State)
    (b : Byte) : Unseen r b s (i.execWith draw rank s) (i.execWith draw rank (s.setReg r b)) := by
  have hother {x : Reg} (h : r ≠ x) : (s.setReg r b).reg x = s.reg x := s.setReg_reg_other r x b (Ne.symm h)
  cases i
  case sys | cls | jp | ldI => exact .kept _ rfl
  case ret =>
    simp only [Instr.execWith, exec, execRet, State.setReg_stack]
    split <;> exact .kept _ rfl
  case call =>
    by_cases hd : s.sp = s.params.stackDepth
    · have hd' : (s.setReg r b).sp = (s.setReg r b).params.stackDepth := hd
      simp only [Instr.execWith, exec, execCall, if_pos hd, if_pos hd']
      exact .kept _ rfl
    · have hd' : ¬ (s.setReg r b).sp = (s.setReg r b).params.stackDepth := hd
      simp only [Instr.execWith, exec, execCall, if_neg hd, if_neg hd']
      exact .kept _ rfl
  case jpV0 =>
    simp only [Instr.execWith, exec, execJpV0, hother hr]
    exact .kept _ rfl
  case seImm | sneImm =>
    simp only [Instr.execWith, exec, execSeImm, execSneImm, hother hr]
    exact .kept _ rfl
  case seReg | sneReg =>
    obtain ⟨hx, hy⟩ := not_or.mp hr
    simp only [Instr.execWith, exec, execSeReg, execSneReg, hother hx, hother hy]
    exact .kept _ rfl
  case skp | sknp =>
    simp only [Instr.execWith, exec, execSkp, execSknp, hother hr]
    split
    · exact .kept _ rfl
    · exact .fault _
  case ldImm | ldVxDt => exact .putResult r b s _ _
  case addImm =>
    simp only [Instr.execWith, exec, execAddImm, hother hr]
    exact .putResult r b s _ _
  case ldReg =>
    simp only [Instr.execWith, exec, execLdReg, hother hr]
    exact .putResult r b s _ _
  case orReg | andReg | xorReg =>
    obtain ⟨hx, hy⟩ := not_or.mp hr
    simp only [Instr.execWith, exec, execOrReg, execAndReg, execXorReg, hother hx, hother hy]
    exact .putResult r b s _ _
  case addReg | subReg | subnReg =>
    obtain ⟨hx, hy⟩ := not_or.mp hr
    simp only [Instr.execWith, exec, execAddReg, execSubReg, execSubnReg, hother hx, hother hy]
    exact .putResultAndFlag r b s _ _ _
  case shr | shl =>
    simp only [Instr.execWith, exec, execShr, execShl, hother hr]
    exact .putResultAndFlag r b s _ _ _
  case rnd => exact .rndWith r b s draw _ _
  case ldVxK => exact .waitKeyWith r b s rank _
  case drw =>
    obtain ⟨hx, hy⟩ := not_or.mp hr
    simp only [Instr.execWith, exec, execDrw, hother hx, hother hy, State.setReg_readBytes]
    exact .ifAccessible _ _ (.finishBlit r b s _)
  case ldDtVx | ldStVx =>
    simp only [Instr.execWith, exec, execLdDtVx, execLdStVx, hother hr]
    exact .kept _ rfl
  case addI =>
    simp only [Instr.execWith, exec, execAddI, hother hr]
    exact .kept _ rfl
  case ldF =>
    simp only [Instr.execWith, exec, execLdF, hother hr]
    split
    · exact .fault _
    · exact .kept _ rfl
  case ldB =>
    simp only [Instr.execWith, exec, execLdB, hother hr]
    exact .ifAccessible _ _ (.writeBytes r b s _ _)
  case dumpRegs =>
    simp only [Instr.execWith, exec, execDumpRegs, s.setReg_regsUpTo b hr]
    exact .ifAccessible _ _ (.writeBytes r b s _ _)
  case loadRegs => exact .ifAccessible _ _ (.loadRegsUpTo r b s _)

theorem Instr.ignoresReg_of_not_readsReg (i : Instr) (r : Reg) (hr : ¬ i.readsReg r) : i.ignoresReg r :=
  Instr.ignoresReg_of_unseen (i.unseen_of_not_readsReg r hr)

theorem Instr.writes_reg_iff (i : Instr) (s : State) (r : Reg) : i.writes s (.reg r) ↔ i.writesReg r := by
  have hother : ¬ i.writesOther s (.reg r) := by cases i <;> simp [Instr.writesOther]
  simp [Instr.writes, hother]

/-- `exec` is the execute phase at the model's free values. -/
theorem Instr.exec_eq_execWith (i : Instr) (s : State) :
    exec i s = i.execWith (Config.draw s.draws) (Config.keyRank s.keys) s := by
  cases i <;> rfl

end Sys2Proof

namespace Sys2Proof.Machine

theorem exec_reg_of_not_writesReg (i : Instr) (s t : State) (r : Reg) (h : exec i s = .next t)
    (hw : ¬ i.writesReg r) : t.reg r = s.reg r :=
  exec_sameExcept i s t h (.reg r) (mt (i.writes_reg_iff s r).mp hw)

/-- LD Vx,K with no key pressed changes nothing (R190). -/
theorem exec_ldVxK_of_no_key (x : Reg) (s t : State) (h : exec (.ldVxK x) s = .next t)
    (hk : ∀ k, s.key k = false) : t = s := by
  obtain rfl : t = s.waitKeyWith (Config.keyRank s.keys) x := exec_next_cases (.ldVxK x) s t h
  obtain ⟨-, he⟩ | ⟨k, hp, -⟩ := s.waitKeyWith_cases (Config.keyRank s.keys) x
  · exact he
  · rw [hk k] at hp
    cases hp

/-- Settles O12: a write of a register before an instruction that does not read it is overwritten by the instruction,
or comes to the same as the write after it. -/
theorem registersReadAndWrittenAsListed : Obligations.RegistersReadAndWrittenAsListed :=
  ⟨Instr.exec_eq_execWith, exec_reg_of_not_writesReg,
    fun x r s t h hk => congrArg (State.reg · r) (exec_ldVxK_of_no_key x s t h hk),
    Instr.ignoresReg_of_not_readsReg⟩

end Sys2Proof.Machine

namespace Sys2Proof.Machine

/-! ### Forms that show no effect of a register (R22) -/

/-- The forms that put back what the register holds advance `pc` and do nothing else. -/
theorem exec_restoring (i : Instr) (r : Reg) (s : State)
    (h : i ∈ [Instr.addImm r 0, .ldReg r r, .orReg r r, .andReg r r]) : exec i s = .next s.advance := by
  simp only [List.mem_cons, List.not_mem_nil, or_false] at h
  obtain rfl | rfl | rfl | rfl := h
  · simp [exec, execAddImm]
  · simp [exec, execLdReg]
  · simp [exec, execOrReg]
  · simp [exec, execAndReg]

theorem exec_xorReg_self (r : Reg) (s : State) : exec (.xorReg r r) s = .next (s.putResult r 0) := by
  simp [exec, execXorReg]

theorem exec_subReg_self (r : Reg) (s : State) : exec (.subReg r r) s = .next (s.putResultAndFlag r 0 true) := by
  simp [exec, execSubReg, notBorrowOf]

theorem exec_subnReg_self (r : Reg) (s : State) : exec (.subnReg r r) s = .next (s.putResultAndFlag r 0 true) := by
  simp [exec, execSubnReg, notBorrowOf]

theorem exec_seReg_self (r : Reg) (s : State) : exec (.seReg r r) s = .next (s.skipIf true) := by
  simp [exec, execSeReg]

theorem exec_sneReg_self (r : Reg) (s : State) : exec (.sneReg r r) s = .next (s.skipIf false) := by
  simp [exec, execSneReg]

theorem exec_drw_no_rows (x y : Reg) (s : State) :
    exec (.drw x y 0) s = .next (s.finishBlit { disp := s.disp, collision := false, changed := false }) := rfl

end Sys2Proof.Machine

namespace Sys2Proof

open Machine

/-- An instruction that takes neither open input. -/
theorem Instr.ignoresReg_of_exec_unseen {i : Instr} {r : Reg} (hi : ∀ draw rank s, i.execWith draw rank s = exec i s)
    (h : ∀ s b, Unseen r b s (exec i s) (exec i (s.setReg r b))) : i.ignoresReg r := by
  refine Instr.ignoresReg_of_unseen fun draw rank s b => ?_
  rw [hi, hi]
  exact h s b

theorem Instr.ignoresReg_drw_no_rows (x y r : Reg) : (Instr.drw x y 0).ignoresReg r := by
  refine Instr.ignoresReg_of_exec_unseen (fun _ _ _ => rfl) fun s b => ?_
  rw [exec_drw_no_rows, exec_drw_no_rows]
  exact .finishBlit r b s _

theorem Instr.ignoresReg_restoring {i : Instr} {r : Reg}
    (h : i ∈ [.addImm r 0, .ldReg r r, .orReg r r, .andReg r r]) : i.ignoresReg r := by
  refine Instr.ignoresReg_of_exec_unseen (fun draw rank s => ?_) fun s b => ?_
  · refine Instr.execWith_eq_exec i draw rank s (fun x nn e => ?_) (fun x e => ?_)
    · exact absurd (e ▸ h) (by simp)
    · exact absurd (e ▸ h) (by simp)
  · rw [exec_restoring i r s h, exec_restoring i r _ h]
    exact .kept s.advance rfl

/-- The forms of R22 whose effect is the same for every value of the register. -/
theorem Instr.ignoresReg_same_register {i : Instr} {r : Reg}
    (h : i ∈ [.addImm r 0, .seReg r r, .sneReg r r, .ldReg r r, .orReg r r, .andReg r r, .xorReg r r, .subReg r r,
      .subnReg r r]) : i.ignoresReg r := by
  by_cases hi : i ∈ [.addImm r 0, .ldReg r r, .orReg r r, .andReg r r]
  · exact Instr.ignoresReg_restoring hi
  · have hcases : i = .seReg r r ∨ i = .sneReg r r ∨ i = .xorReg r r ∨ i = .subReg r r ∨ i = .subnReg r r := by
      simp only [List.mem_cons, List.not_mem_nil, or_false] at h hi
      tauto
    obtain rfl | rfl | rfl | rfl | rfl := hcases <;>
      refine Instr.ignoresReg_of_exec_unseen (fun _ _ _ => rfl) fun s b => ?_
    · rw [exec_seReg_self, exec_seReg_self]
      exact .kept (s.skipIf true) rfl
    · rw [exec_sneReg_self, exec_sneReg_self]
      exact .kept (s.skipIf false) rfl
    · rw [exec_xorReg_self, exec_xorReg_self]
      exact .putResult r b s r 0
    · rw [exec_subReg_self, exec_subReg_self]
      exact .putResultAndFlag r b s r 0 true
    · rw [exec_subnReg_self, exec_subnReg_self]
      exact .putResultAndFlag r b s r 0 true

/-! ### Seeing what a register held -/

/-- Two executions that differ in a part of the state other than the register. -/
theorem Instr.not_ignoresReg_of_part {i : Instr} {r : Reg} {s t u : State} {b : Byte} (p : Part)
    (ht : i.execWith 0 0 s = .next t) (hu : i.execWith 0 0 (s.setReg r b) = .next u) (hp : p ≠ .reg r)
    (hne : ¬ p.same t u) : ¬ i.ignoresReg r := by
  intro h
  obtain ⟨u', hu', hsame, -⟩ := (h 0 0 s b).1 t ht
  obtain rfl : u = u' := Host.Outcome.next.inj (hu.symm.trans hu')
  exact hne (hsame p hp)

/-- Two executions that leave different results in `V[x]`, the second other than what `V[x]` held if that is the
register in question. -/
theorem Instr.not_ignoresReg_of_result {i : Instr} {r : Reg} {s t u : State} {b : Byte} (x : Reg)
    (ht : i.execWith 0 0 s = .next t) (hu : i.execWith 0 0 (s.setReg r b) = .next u) (hne : u.reg x ≠ t.reg x)
    (hb : r = x → u.reg x ≠ b) : ¬ i.ignoresReg r := by
  by_cases hr : r = x
  · intro h
    obtain ⟨u', hu', -, hreg⟩ := (h 0 0 s b).1 t ht
    obtain rfl : u = u' := Host.Outcome.next.inj (hu.symm.trans hu')
    rw [hr] at hreg
    obtain hreg | ⟨-, hreg⟩ := hreg
    · exact hne hreg
    · exact hb hr hreg
  · exact Instr.not_ignoresReg_of_part (.reg x) ht hu (fun e => hr (Part.reg.inj e).symm) hne

/-- Two executions of which one faults. -/
theorem Instr.not_ignoresReg_of_fault {i : Instr} {r : Reg} {s t : State} {b : Byte} {f : Fault}
    (ht : i.execWith 0 0 s = .next t) (hu : i.execWith 0 0 (s.setReg r b) = .fault f) : ¬ i.ignoresReg r := by
  intro h
  obtain ⟨u, hu', -⟩ := (h 0 0 s b).1 t ht
  rw [hu] at hu'
  cases hu'

/-- A skip that is taken in one execution and not in the other. -/
theorem Instr.not_ignoresReg_of_skip {i : Instr} {r : Reg} {s : State} {b : Byte} {c c' : Bool}
    (ht : i.execWith 0 0 s = .next (s.skipIf c)) (hu : i.execWith 0 0 (s.setReg r b) = .next ((s.setReg r b).skipIf c'))
    (hne : c ≠ c') : ¬ i.ignoresReg r := by
  refine Instr.not_ignoresReg_of_part .pc ht hu nofun ?_
  have h42 : s.pc + 4 ≠ s.pc + 2 := by simp
  cases c <;> cases c'
  · exact absurd rfl hne
  · exact h42
  · exact h42.symm
  · exact absurd rfl hne

end Sys2Proof

namespace Sys2Proof.Machine

/-! ### The states the two halves of R22 are shown in -/

/-- The state after RESET with the same byte in every register. -/
def uniform (v : Byte) : State := { State.reset with v := Vector.replicate 16 v }

@[simp] theorem uniform_reg (v : Byte) (r : Reg) : (uniform v).reg r = v := Vector.getElem_replicate _

@[simp] theorem uniform_i (v : Byte) : (uniform v).i = 0 := rfl

/-- No byte of the glyphs at addresses 0 to 15 is 1. -/
theorem uniform_readByte_ne_one (v : Byte) (r : Reg) : (uniform v).readByte r.val ≠ 1 := by
  have h : ∀ r : Reg, State.reset.readByte r.val ≠ 1 := by decide
  exact h r

/-- An access that ends below address 4096 does not fault. -/
theorem ifAccessible_of_le (base len : Nat) (effect : State) (h : base + len ≤ 4096) :
    ifAccessible base len effect = .next effect := by
  rw [ifAccessible_eq, if_pos (by omega)]

theorem flagByte_ne_two (f : Bool) : flagByte f ≠ 2 := by cases f <;> decide

end Sys2Proof.Machine

namespace Sys2Proof

open Machine

/-! ### Instructions that leave a function of two registers -/

/-- The instruction leaves in `V[x]` the function `res` of what `V[x]` and `V[y]` held. -/
def Instr.GivesResult (i : Instr) (x y : Reg) (res : Byte → Byte → Byte) : Prop :=
  ∀ draw rank s, ∃ t, i.execWith draw rank s = .next t ∧ t.reg x = res (s.reg x) (s.reg y)

theorem Instr.givesResult_of_putResult {i : Instr} {x y : Reg} {res : Byte → Byte → Byte}
    (h : ∀ draw rank s, i.execWith draw rank s = .next (s.putResult x (res (s.reg x) (s.reg y)))) :
    i.GivesResult x y res :=
  fun draw rank s => ⟨_, h draw rank s, by rw [State.putResult_reg, if_pos rfl]⟩

/-- An instruction that sets the flag leaves the flag if its destination is `VF` (R171). -/
theorem Instr.givesResult_of_putResultAndFlag {i : Instr} {x y : Reg} {res : Byte → Byte → Byte}
    {flag : Byte → Byte → Bool}
    (h : ∀ draw rank s, i.execWith draw rank s =
      .next (s.putResultAndFlag x (res (s.reg x) (s.reg y)) (flag (s.reg x) (s.reg y)))) :
    i.GivesResult x y fun a c => if x = vf then flagByte (flag a c) else res a c :=
  fun draw rank s => ⟨_, h draw rank s, by simp [State.putResultAndFlag_reg]⟩

theorem Instr.givesResult_ldImm (x : Reg) (nn : Byte) : (Instr.ldImm x nn).GivesResult x x fun _ _ => nn :=
  Instr.givesResult_of_putResult fun _ _ _ => rfl

theorem Instr.givesResult_addImm (x : Reg) (nn : Byte) : (Instr.addImm x nn).GivesResult x x fun a _ => a + nn :=
  Instr.givesResult_of_putResult fun _ _ _ => rfl

theorem Instr.givesResult_ldReg (x y : Reg) : (Instr.ldReg x y).GivesResult x y fun _ c => c :=
  Instr.givesResult_of_putResult fun _ _ _ => rfl

theorem Instr.givesResult_orReg (x y : Reg) : (Instr.orReg x y).GivesResult x y fun a c => a ||| c :=
  Instr.givesResult_of_putResult fun _ _ _ => rfl

theorem Instr.givesResult_andReg (x y : Reg) : (Instr.andReg x y).GivesResult x y fun a c => a &&& c :=
  Instr.givesResult_of_putResult fun _ _ _ => rfl

theorem Instr.givesResult_xorReg (x y : Reg) : (Instr.xorReg x y).GivesResult x y fun a c => a ^^^ c :=
  Instr.givesResult_of_putResult fun _ _ _ => rfl

theorem Instr.givesResult_addReg (x y : Reg) :
    (Instr.addReg x y).GivesResult x y fun a c => if x = vf then flagByte (carryOf a c) else a + c :=
  Instr.givesResult_of_putResultAndFlag fun _ _ _ => rfl

theorem Instr.givesResult_subReg (x y : Reg) :
    (Instr.subReg x y).GivesResult x y fun a c => if x = vf then flagByte (notBorrowOf a c) else a - c :=
  Instr.givesResult_of_putResultAndFlag fun _ _ _ => rfl

theorem Instr.givesResult_subnReg (x y : Reg) :
    (Instr.subnReg x y).GivesResult x y fun a c => if x = vf then flagByte (notBorrowOf c a) else c - a :=
  Instr.givesResult_of_putResultAndFlag (res := fun a c => c - a) (flag := fun a c => notBorrowOf c a) fun _ _ _ => rfl

theorem Instr.givesResult_shr (x y : Reg) :
    (Instr.shr x y).GivesResult x x fun a _ => if x = vf then flagByte (lowBitOf a) else a >>> 1 :=
  Instr.givesResult_of_putResultAndFlag (res := fun a _ => a >>> 1) (flag := fun a _ => lowBitOf a) fun _ _ _ => rfl

theorem Instr.givesResult_shl (x y : Reg) :
    (Instr.shl x y).GivesResult x x fun a _ => if x = vf then flagByte (highBitOf a) else a <<< 1 :=
  Instr.givesResult_of_putResultAndFlag (res := fun a _ => a <<< 1) (flag := fun a _ => highBitOf a) fun _ _ _ => rfl

section
variable {i : Instr} {x y : Reg} {res : Byte → Byte → Byte}

theorem Instr.GivesResult.changes (h : i.GivesResult x y res) (s : State) (hne : res (s.reg x) (s.reg y) ≠ s.reg x) :
    ∃ s t, exec i s = .next t ∧ t.reg x ≠ s.reg x := by
  obtain ⟨t, ht, hres⟩ := h (Config.draw s.draws) (Config.keyRank s.keys) s
  exact ⟨s, t, (i.exec_eq_execWith s).trans ht, hres ▸ hne⟩

/-- With `v` in every register, and then with `b` in register `r`. -/
theorem Instr.GivesResult.not_ignoresReg (h : i.GivesResult x y res) (r : Reg) (v b : Byte) {a c : Byte}
    (ha : ((uniform v).setReg r b).reg x = a) (hc : ((uniform v).setReg r b).reg y = c) (hne : res a c ≠ res v v)
    (hb : r = x → res a c ≠ b) : ¬ i.ignoresReg r := by
  obtain ⟨t, ht, htx⟩ := h 0 0 (uniform v)
  obtain ⟨u, hu, hux⟩ := h 0 0 ((uniform v).setReg r b)
  rw [uniform_reg, uniform_reg] at htx
  rw [ha, hc] at hux
  refine Instr.not_ignoresReg_of_result x ht hu ?_ ?_
  · rwa [hux, htx]
  · rwa [hux]

theorem Instr.GivesResult.not_ignoresReg_left (h : i.GivesResult x y res) (hxy : x ≠ y) (v b : Byte)
    (hne : res b v ≠ res v v) (hb : res b v ≠ b) : ¬ i.ignoresReg x :=
  h.not_ignoresReg x v b (State.setReg_reg_same _ _ _)
    ((State.setReg_reg_other _ _ _ _ hxy.symm).trans (uniform_reg v y)) hne fun _ => hb

theorem Instr.GivesResult.not_ignoresReg_right (h : i.GivesResult x y res) (hxy : x ≠ y) (v b : Byte)
    (hne : res v b ≠ res v v) : ¬ i.ignoresReg y :=
  h.not_ignoresReg y v b ((State.setReg_reg_other _ _ _ _ hxy).trans (uniform_reg v x))
    (State.setReg_reg_same _ _ _) hne fun e => absurd e.symm hxy

theorem Instr.GivesResult.not_ignoresReg_same (h : i.GivesResult x x res) (v b : Byte) (hne : res b b ≠ res v v)
    (hb : res b b ≠ b) : ¬ i.ignoresReg x :=
  h.not_ignoresReg x v b (State.setReg_reg_same _ _ _) (State.setReg_reg_same _ _ _) hne fun _ => hb

/-- A bitwise operation that shows each of two different registers. -/
theorem Instr.GivesResult.not_ignoresReg_either (h : i.GivesResult x y res) (hxy : x ≠ y) (v b : Byte)
    (hl : res b v ≠ res v v) (hb : res b v ≠ b) (hr : res v b ≠ res v v) {r : Reg} (hrxy : r = x ∨ r = y) :
    ¬ i.ignoresReg r := by
  obtain rfl | rfl := hrxy
  · exact h.not_ignoresReg_left hxy v b hl hb
  · exact h.not_ignoresReg_right hxy v b hr

end

/-- An instruction that sets the flag, where `VF` held 2. -/
theorem Instr.exists_flag_changes {i : Instr}
    (h : ∀ s : State, ∃ x v f, exec i s = .next (s.putResultAndFlag x v f)) :
    ∃ s t, exec i s = .next t ∧ t.reg vf ≠ s.reg vf := by
  obtain ⟨x, v, f, ht⟩ := h (uniform 2)
  refine ⟨uniform 2, _, ht, ?_⟩
  rw [State.putResultAndFlag_reg, if_pos rfl, uniform_reg]
  exact flagByte_ne_two f

/-- An instruction that sets the flag changes the flag register and, where every register held 1, its destination. -/
theorem Instr.GivesResult.changes_or_flag {i : Instr} {x y r : Reg} {res : Byte → Byte → Byte}
    (h : i.GivesResult x y res) (hf : ∀ s : State, ∃ x v f, exec i s = .next (s.putResultAndFlag x v f))
    (hr : r = x ∨ r = vf) (hne : x ≠ vf → res 1 1 ≠ 1) :
    ∃ s t, exec i s = .next t ∧ t.reg r ≠ s.reg r := by
  by_cases hv : r = vf
  · exact hv ▸ Instr.exists_flag_changes hf
  · obtain rfl : r = x := hr.resolve_right hv
    exact h.changes (uniform 1) (by simpa only [uniform_reg] using hne hv)

end Sys2Proof

namespace Sys2Proof.Machine

/-! ### Each listed register is written -/

theorem exists_rnd_changes (x : Reg) (nn : Byte) : ∃ s t, exec (.rnd x nn) s = .next t ∧ t.reg x ≠ s.reg x := by
  refine ⟨uniform ((Config.draw 0 &&& nn) + 1), _, rfl, ?_⟩
  rw [State.rndWith_reg, if_pos rfl, uniform_reg]
  exact fun e => absurd (BitVec.self_eq_add_right.mp e) (by decide)

/-- With key 0 pressed and 0xFF in the register, which is no key's number. -/
theorem exists_ldVxK_changes (x : Reg) : ∃ s t, exec (.ldVxK x) s = .next t ∧ t.reg x ≠ s.reg x := by
  have hp : ((uniform 0xFF).setKey 0 true).key 0 = true := by rw [State.setKey_key, if_pos rfl]
  refine ⟨(uniform 0xFF).setKey 0 true, _, rfl, ?_⟩
  obtain ⟨hn, -⟩ | ⟨k, -, -, he⟩ := State.waitKeyWith_cases ((uniform 0xFF).setKey 0 true)
    (Config.keyRank ((uniform 0xFF).setKey 0 true).keys) x
  · rw [hn 0] at hp
    cases hp
  · rw [he, State.putResult_reg, if_pos rfl, State.setKey_reg, uniform_reg]
    have hk := k.isLt
    intro e
    have e' := congrArg BitVec.toNat e
    simp at e'
    omega

theorem exists_drw_changes_flag (x y : Reg) (n : BitVec 4) :
    ∃ s t, exec (.drw x y n) s = .next t ∧ t.reg vf ≠ s.reg vf := by
  have hn := n.isLt
  refine ⟨uniform 2, _, ifAccessible_of_le _ _ _ (by simp [State.indexAddr]; omega), ?_⟩
  rw [State.finishBlit_reg, if_pos rfl, uniform_reg]
  exact flagByte_ne_two _

theorem exists_loadRegs_changes (x r : Reg) (h : r ≤ x) :
    ∃ s t, exec (.loadRegs x) s = .next t ∧ t.reg r ≠ s.reg r := by
  have hx := x.isLt
  refine ⟨uniform 1, _, ifAccessible_of_le _ _ _ (by simp [State.indexAddr, regCount]; omega), ?_⟩
  rw [State.advance_reg, State.loadRegsUpTo_reg, if_pos h, uniform_reg, uniform_i]
  simpa using uniform_readByte_ne_one 1 r

/-- A register listed as written is changed from some state, the forms apart that put back what it holds. -/
theorem exists_reg_changes (i : Instr) (r : Reg) (hw : i.writesReg r)
    (hi : i ∉ [Instr.addImm r 0, .ldReg r r, .orReg r r, .andReg r r]) :
    ∃ s t, exec i s = .next t ∧ t.reg r ≠ s.reg r := by
  have htwo {x y : Reg} (hxy : x ≠ y) (a c : Byte) : ((uniform a).setReg y c).reg x = a :=
    (State.setReg_reg_other _ _ _ _ hxy).trans (uniform_reg a x)
  cases i
  case ldImm x nn =>
    obtain rfl : r = x := hw
    refine (Instr.givesResult_ldImm r nn).changes (uniform (nn + 1)) ?_
    simp
  case addImm x nn =>
    obtain rfl : r = x := hw
    refine (Instr.givesResult_addImm r nn).changes (uniform 0) ?_
    simpa using hi
  case ldReg x y =>
    obtain rfl : r = x := hw
    have hxy : r ≠ y := by simpa [eq_comm] using hi
    refine (Instr.givesResult_ldReg r y).changes ((uniform 0).setReg y 1) ?_
    simp [htwo hxy]
  case orReg x y =>
    obtain rfl : r = x := hw
    have hxy : r ≠ y := by simpa [eq_comm] using hi
    refine (Instr.givesResult_orReg r y).changes ((uniform 0).setReg y 1) ?_
    simp [htwo hxy]
  case andReg x y =>
    obtain rfl : r = x := hw
    have hxy : r ≠ y := by simpa [eq_comm] using hi
    refine (Instr.givesResult_andReg r y).changes ((uniform 1).setReg y 0) ?_
    simp [htwo hxy]
  case xorReg x y =>
    obtain rfl : r = x := hw
    refine (Instr.givesResult_xorReg r y).changes (uniform 1) ?_
    simp
  case addReg x y =>
    exact (Instr.givesResult_addReg x y).changes_or_flag (fun _ => ⟨_, _, _, rfl⟩) hw fun hx => by simp [hx]
  case subReg x y =>
    exact (Instr.givesResult_subReg x y).changes_or_flag (fun _ => ⟨_, _, _, rfl⟩) hw fun hx => by simp [hx]
  case subnReg x y =>
    exact (Instr.givesResult_subnReg x y).changes_or_flag (fun _ => ⟨_, _, _, rfl⟩) hw fun hx => by simp [hx]
  case shr x y =>
    exact (Instr.givesResult_shr x y).changes_or_flag (fun _ => ⟨_, _, _, rfl⟩) hw fun hx => by simp [hx]
  case shl x y =>
    exact (Instr.givesResult_shl x y).changes_or_flag (fun _ => ⟨_, _, _, rfl⟩) hw fun hx => by simp [hx]
  case rnd x nn =>
    obtain rfl : r = x := hw
    exact exists_rnd_changes r nn
  case ldVxDt x =>
    obtain rfl : r = x := hw
    refine ⟨uniform 1, _, rfl, ?_⟩
    rw [State.putResult_reg, if_pos rfl, uniform_reg]
    decide
  case ldVxK x =>
    obtain rfl : r = x := hw
    exact exists_ldVxK_changes r
  case drw x y n =>
    obtain rfl : r = vf := hw
    exact exists_drw_changes_flag x y n
  case loadRegs x => exact exists_loadRegs_changes x r hw
  all_goals exact hw.elim

/-! ### Each listed register is read -/

/-- The byte that LD [I],Vx stores for register `r`. -/
theorem State.readByte_writeBytes_regsUpTo (s : State) {r x : Reg} (h : r ≤ x) :
    (s.writeBytes s.i.toNat (s.regsUpTo x)).readByte (s.i.toNat + r.val) = s.reg r := by
  have hr : r.val < (s.regsUpTo x).length := by
    rw [State.length_regsUpTo]
    exact Nat.lt_succ_of_le h
  rw [State.writeBytes_readByte, dif_pos ⟨Nat.le_add_right _ _, by rwa [Nat.add_sub_cancel_left]⟩]
  simp only [Nat.add_sub_cancel_left, State.getElem_regsUpTo]

theorem not_ignoresReg_dumpRegs (x r : Reg) (h : r ≤ x) : ¬ (Instr.dumpRegs x).ignoresReg r := by
  have hx := x.isLt
  have hexec (s : State) (hi : s.i = 0) : (Instr.dumpRegs x).execWith 0 0 s =
      .next (s.writeBytes s.i.toNat (s.regsUpTo x)).advance :=
    ifAccessible_of_le _ _ _ (by simp [State.indexAddr, regCount, hi]; omega)
  refine Instr.not_ignoresReg_of_part (.byte (0 + r.val)) (hexec (uniform 0) rfl)
    (hexec ((uniform 0).setReg r 1) rfl) nofun ?_
  intro e
  have ht := (uniform 0).readByte_writeBytes_regsUpTo h
  have hu := ((uniform 0).setReg r 1).readByte_writeBytes_regsUpTo h
  have hstored := hu.symm.trans (Eq.trans e ht)
  rw [uniform_reg, State.setReg_reg_same] at hstored
  exact absurd hstored (by decide)

/-- The ones digit that LD B,Vx stores. -/
theorem State.readByte_writeBytes_decimalDigits (s : State) (b : Byte) :
    (s.writeBytes s.i.toNat (decimalDigits b)).readByte (s.i.toNat + 2) = BitVec.ofNat 8 (b.toNat % 10) := by
  rw [State.writeBytes_readByte, dif_pos ⟨Nat.le_add_right _ _, by simp⟩]
  simp [decimalDigits]

theorem not_ignoresReg_ldB (x : Reg) : ¬ (Instr.ldB x).ignoresReg x := by
  have hexec (s : State) (hi : s.i = 0) : (Instr.ldB x).execWith 0 0 s =
      .next (s.writeBytes s.i.toNat (decimalDigits (s.reg x))).advance :=
    ifAccessible_of_le _ _ _ (by simp [State.indexAddr, hi])
  refine Instr.not_ignoresReg_of_part (.byte (0 + 2)) (hexec (uniform 0) rfl)
    (hexec ((uniform 0).setReg x 1) rfl) nofun ?_
  intro e
  have ht := (uniform 0).readByte_writeBytes_decimalDigits ((uniform 0).reg x)
  have hu := ((uniform 0).setReg x 1).readByte_writeBytes_decimalDigits (((uniform 0).setReg x 1).reg x)
  have hdigits := hu.symm.trans (Eq.trans e ht)
  rw [uniform_reg, State.setReg_reg_same] at hdigits
  exact absurd hdigits (by decide)

/-- Glyph 0 with its corner at the origin has its first pixel there. -/
theorem uniform_spriteCovers_origin (n : BitVec 4) (hn : n ≠ 0) : (uniform 0).spriteCovers 0 0 n.toNat 0 0 := by
  have hpos : 0 < n.toNat := Nat.pos_of_ne_zero fun h => hn (BitVec.eq_of_toNat_eq h)
  exact ⟨0, hpos, 0, by decide, by decide, rfl, rfl⟩

/-- A sprite one column to the right or one row down does not reach around to the origin. -/
theorem State.not_spriteCovers_origin (s : State) (x0 y0 : Byte) (n : BitVec 4) (h : x0 = 1 ∨ y0 = 1) :
    x0.toNat ≤ 1 → y0.toNat ≤ 1 → ¬ s.spriteCovers x0 y0 n.toNat 0 0 := by
  rintro hx hy ⟨row, hrow, col, hcol, -, hr, hc⟩
  have hn := n.isLt
  have h' : x0.toNat = 1 ∨ y0.toNat = 1 := h.imp (congrArg BitVec.toNat) (congrArg BitVec.toNat)
  simp only [Fin.val_zero] at hr hc
  omega

theorem not_ignoresReg_drw (x y r : Reg) (n : BitVec 4) (hn : n ≠ 0) (hr : r = x ∨ r = y) :
    ¬ (Instr.drw x y n).ignoresReg r := by
  have hlt := n.isLt
  have hexec (s : State) (hi : s.i = 0) : (Instr.drw x y n).execWith 0 0 s =
      .next (s.finishBlit (blit (s.reg x) (s.reg y) (s.readBytes s.i.toNat n.toNat) s.disp)) :=
    ifAccessible_of_le _ _ _ (by simp [State.indexAddr, hi]; omega)
  have hone (k : Reg) : (((uniform 0).setReg r 1).reg k).toNat ≤ 1 := by
    rw [State.setReg_reg, uniform_reg]
    split <;> decide
  have hmoved : ((uniform 0).setReg r 1).reg x = 1 ∨ ((uniform 0).setReg r 1).reg y = 1 := by
    obtain rfl | rfl := hr
    · exact .inl (State.setReg_reg_same _ _ _)
    · exact .inr (State.setReg_reg_same _ _ _)
  refine Instr.not_ignoresReg_of_part (.pixel 0 0) (hexec (uniform 0) rfl)
    (hexec ((uniform 0).setReg r 1) rfl) nofun fun e => ?_
  have ht := ((uniform 0).finishBlit_pixel_ne_iff x y n 0 0).mpr
    (by rw [uniform_reg, uniform_reg]; exact uniform_spriteCovers_origin n hn)
  have hu := mt (((uniform 0).setReg r 1).finishBlit_pixel_ne_iff x y n 0 0).mp
    (State.not_spriteCovers_origin _ _ _ n hmoved (hone x) (hone y))
  exact ht (Eq.trans (Eq.symm e) (Classical.not_not.mp hu))

/-- Of a form with two registers, one of them `r`, that is not the form with `r` twice. -/
theorem ne_of_not_both {x y r : Reg} (hr : r = x ∨ r = y) (h : x = r → ¬ y = r) : x ≠ y := by
  rintro rfl
  exact h (hr.elim Eq.symm Eq.symm) (hr.elim Eq.symm Eq.symm)

theorem not_ignoresReg_seImm (x : Reg) (nn : Byte) : ¬ (Instr.seImm x nn).ignoresReg x := by
  refine Instr.not_ignoresReg_of_skip (s := uniform nn) (b := nn + 1) rfl rfl ?_
  rw [uniform_reg, State.setReg_reg_same]
  simp

theorem not_ignoresReg_sneImm (x : Reg) (nn : Byte) : ¬ (Instr.sneImm x nn).ignoresReg x := by
  refine Instr.not_ignoresReg_of_skip (s := uniform nn) (b := nn + 1) rfl rfl ?_
  rw [uniform_reg, State.setReg_reg_same]
  simp

/-- Of two different registers one is 1, the other 0. -/
theorem uniform_setReg_ne {x y r : Reg} (hxy : x ≠ y) (hr : r = x ∨ r = y) :
    ((uniform 0).setReg r 1).reg x ≠ ((uniform 0).setReg r 1).reg y := by
  obtain rfl | rfl := hr
  · rw [State.setReg_reg_same, State.setReg_reg_other _ _ _ _ hxy.symm, uniform_reg]
    decide
  · rw [State.setReg_reg_same, State.setReg_reg_other _ _ _ _ hxy, uniform_reg]
    decide

theorem not_ignoresReg_seReg {x y r : Reg} (hxy : x ≠ y) (hr : r = x ∨ r = y) :
    ¬ (Instr.seReg x y).ignoresReg r := by
  refine Instr.not_ignoresReg_of_skip (s := uniform 0) (b := 1) rfl rfl ?_
  rw [uniform_reg, uniform_reg, beq_self_eq_true, beq_eq_false_iff_ne.mpr (uniform_setReg_ne hxy hr)]
  decide

theorem not_ignoresReg_sneReg {x y r : Reg} (hxy : x ≠ y) (hr : r = x ∨ r = y) :
    ¬ (Instr.sneReg x y).ignoresReg r := by
  refine Instr.not_ignoresReg_of_skip (s := uniform 0) (b := 1) rfl rfl ?_
  rw [uniform_reg, uniform_reg, bne_self_eq_false, bne_iff_ne.mpr (uniform_setReg_ne hxy hr)]
  decide

theorem keyOf_sixteen : keyOf 16 = none := (keyOf_eq_none 16).mpr (by decide)

theorem keyOf_zero : keyOf 0 = some 0 := (keyOf_eq_some 0 0).mpr rfl

theorem not_ignoresReg_skp (x : Reg) : ¬ (Instr.skp x).ignoresReg x := by
  refine Instr.not_ignoresReg_of_fault (s := uniform 0) (b := 16) (t := (uniform 0).skipIf ((uniform 0).key 0))
    (f := .keyIndex) ?_ ?_
  · simp only [Instr.execWith, exec, execSkp, uniform_reg, keyOf_zero]
  · simp only [Instr.execWith, exec, execSkp, State.setReg_reg_same, keyOf_sixteen]

theorem not_ignoresReg_sknp (x : Reg) : ¬ (Instr.sknp x).ignoresReg x := by
  refine Instr.not_ignoresReg_of_fault (s := uniform 0) (b := 16) (t := (uniform 0).skipIf (!(uniform 0).key 0))
    (f := .keyIndex) ?_ ?_
  · simp only [Instr.execWith, exec, execSknp, uniform_reg, keyOf_zero]
  · simp only [Instr.execWith, exec, execSknp, State.setReg_reg_same, keyOf_sixteen]

theorem not_ignoresReg_ldF (x : Reg) : ¬ (Instr.ldF x).ignoresReg x := by
  refine Instr.not_ignoresReg_of_fault (s := uniform 0) (b := 16) (f := .glyphIndex)
    (t := { uniform 0 with i := glyphAddr ((uniform 0).reg x) }.advance) ?_ ?_
  · exact if_neg (by rw [uniform_reg]; decide)
  · exact if_pos (by rw [State.setReg_reg_same]; decide)

theorem not_ignoresReg_jpV0 (nnn : Addr) : ¬ (Instr.jpV0 nnn).ignoresReg 0 := by
  refine Instr.not_ignoresReg_of_part (s := uniform 0) (b := 1) .pc rfl rfl nofun ?_
  intro e
  have e' : addrWord nnn + byteWord 1 = addrWord nnn + byteWord 0 := e
  exact absurd (BitVec.add_right_inj _ |>.mp e') (by decide)

theorem not_ignoresReg_subReg {x y r : Reg} (hxy : x ≠ y) (hr : r = x ∨ r = y) :
    ¬ (Instr.subReg x y).ignoresReg r := by
  have h := Instr.givesResult_subReg x y
  obtain rfl | rfl := hr
  · exact h.not_ignoresReg_left hxy 0x80 2 (by split <;> decide) (by split <;> decide)
  · exact h.not_ignoresReg_right hxy 0x80 0xFF (by split <;> decide)

theorem not_ignoresReg_subnReg {x y r : Reg} (hxy : x ≠ y) (hr : r = x ∨ r = y) :
    ¬ (Instr.subnReg x y).ignoresReg r := by
  have h := Instr.givesResult_subnReg x y
  obtain rfl | rfl := hr
  · exact h.not_ignoresReg_left hxy 0x80 0xFF (by split <;> decide) (by split <;> decide)
  · exact h.not_ignoresReg_right hxy 0x80 2 (by split <;> decide)

theorem not_ignoresReg_addReg {x y r : Reg} (hr : r = x ∨ r = y) : ¬ (Instr.addReg x y).ignoresReg r := by
  have h := Instr.givesResult_addReg x y
  by_cases hxy : x = y
  · subst hxy
    obtain rfl := hr.elim id id
    exact h.not_ignoresReg_same 0x80 2 (by split <;> decide) (by split <;> decide)
  · exact h.not_ignoresReg_either hxy 0x80 2 (by split <;> decide) (by split <;> decide) (by split <;> decide) hr

/-- What a register listed as read holds is seen, the forms apart whose effect is the same for every value. -/
theorem not_ignoresReg_of_readsReg (i : Instr) (r : Reg) (hr : i.readsReg r) (hd : ∀ x y, i ≠ .drw x y 0)
    (hi : i ∉ [Instr.addImm r 0, .seReg r r, .sneReg r r, .ldReg r r, .orReg r r, .andReg r r, .xorReg r r,
      .subReg r r, .subnReg r r]) : ¬ i.ignoresReg r := by
  cases i
  case addImm x nn =>
    obtain rfl : r = x := hr
    have hnn : nn ≠ 0 := by simpa using hi
    exact (Instr.givesResult_addImm r nn).not_ignoresReg_same 0 1 (by simp) (by simpa using hnn)
  case shr x y =>
    obtain rfl : r = x := hr
    exact (Instr.givesResult_shr r y).not_ignoresReg_same 0 3 (by split <;> decide) (by split <;> decide)
  case shl x y =>
    obtain rfl : r = x := hr
    exact (Instr.givesResult_shl r y).not_ignoresReg_same 0 0xC0 (by split <;> decide) (by split <;> decide)
  case ldReg x y =>
    obtain rfl : r = y := hr
    have hxy : x ≠ r := by simpa using hi
    exact (Instr.givesResult_ldReg x r).not_ignoresReg_right hxy 0 1 (by decide)
  case orReg x y =>
    have hxy := ne_of_not_both hr (by simpa using hi)
    exact (Instr.givesResult_orReg x y).not_ignoresReg_either hxy 0x80 2 (by decide) (by decide) (by decide) hr
  case andReg x y =>
    have hxy := ne_of_not_both hr (by simpa using hi)
    exact (Instr.givesResult_andReg x y).not_ignoresReg_either hxy 0x80 2 (by decide) (by decide) (by decide) hr
  case xorReg x y =>
    have hxy := ne_of_not_both hr (by simpa using hi)
    exact (Instr.givesResult_xorReg x y).not_ignoresReg_either hxy 0x80 2 (by decide) (by decide) (by decide) hr
  case addReg => exact not_ignoresReg_addReg hr
  case subReg => exact not_ignoresReg_subReg (ne_of_not_both hr (by simpa using hi)) hr
  case subnReg => exact not_ignoresReg_subnReg (ne_of_not_both hr (by simpa using hi)) hr
  case seReg => exact not_ignoresReg_seReg (ne_of_not_both hr (by simpa using hi)) hr
  case sneReg => exact not_ignoresReg_sneReg (ne_of_not_both hr (by simpa using hi)) hr
  case drw x y n => exact not_ignoresReg_drw x y r n (fun e => hd x y (e ▸ rfl)) hr
  case jpV0 nnn =>
    obtain rfl : r = 0 := hr
    exact not_ignoresReg_jpV0 nnn
  case dumpRegs x => exact not_ignoresReg_dumpRegs x r hr
  case seImm x nn =>
    obtain rfl : r = x := hr
    exact not_ignoresReg_seImm r nn
  case sneImm x nn =>
    obtain rfl : r = x := hr
    exact not_ignoresReg_sneImm r nn
  case skp x =>
    obtain rfl : r = x := hr
    exact not_ignoresReg_skp r
  case sknp x =>
    obtain rfl : r = x := hr
    exact not_ignoresReg_sknp r
  case ldF x =>
    obtain rfl : r = x := hr
    exact not_ignoresReg_ldF r
  case ldB x =>
    obtain rfl : r = x := hr
    exact not_ignoresReg_ldB r
  case ldDtVx x =>
    obtain rfl : r = x := hr
    refine Instr.not_ignoresReg_of_part (s := uniform 0) (b := 1) .delay rfl rfl nofun ?_
    simp [Part.same]
  case ldStVx x =>
    obtain rfl : r = x := hr
    refine Instr.not_ignoresReg_of_part (s := uniform 0) (b := 1) .sound rfl rfl nofun ?_
    simp [Part.same]
  case addI x =>
    obtain rfl : r = x := hr
    refine Instr.not_ignoresReg_of_part (s := uniform 0) (b := 1) .index rfl rfl nofun ?_
    simp [Part.same, byteWord]
  all_goals exact hr.elim

theorem exists_reg_changes_iff (i : Instr) (r : Reg) : (∃ s t, exec i s = .next t ∧ t.reg r ≠ s.reg r) ↔
    i.writesReg r ∧ i ∉ [Instr.addImm r 0, .ldReg r r, .orReg r r, .andReg r r] := by
  constructor
  · rintro ⟨s, t, h, hne⟩
    refine ⟨Classical.not_not.mp fun hw => hne (exec_reg_of_not_writesReg i s t r h hw), fun hi => hne ?_⟩
    obtain rfl := Host.Outcome.next.inj (h.symm.trans (exec_restoring i r s hi))
    exact s.advance_reg r
  · rintro ⟨hw, hi⟩
    exact exists_reg_changes i r hw hi

/-- Settles O58: for each form a state, and for the reads a second value, in which the register shows; the excepted
forms do the same whatever the register holds. -/
theorem listedRegistersAreReadAndWritten : Obligations.ListedRegistersAreReadAndWritten := by
  refine ⟨exists_reg_changes_iff, fun i r => ⟨fun h => ⟨?_, ?_, ?_⟩, fun ⟨hr, hd, hi⟩ => ?_⟩⟩
  · exact Classical.not_not.mp fun hr => h (i.ignoresReg_of_not_readsReg r hr)
  · rintro x y rfl
    exact h (Instr.ignoresReg_drw_no_rows x y r)
  · exact fun hi => h (Instr.ignoresReg_same_register hi)
  · exact not_ignoresReg_of_readsReg i r hr hd hi

end Sys2Proof.Machine

/-! PROOFS (spec/30_encoding.md): the decoder and the encoder as inverses of each other, the Invalid words and their
number, the opcode table as a second decoder, and the words that halt. -/

namespace Sys2Proof

/-! ### The fields of a word as numbers, and a word from its fields (R10, R91) -/

theorem fieldOp_toNat (w : Word) : (fieldOp w).toNat = w.toNat / 4096 := by
  have hw := w.isLt
  simp only [fieldOp, BitVec.extractLsb'_toNat, Nat.shiftRight_eq_div_pow]
  omega

theorem fieldN_toNat (w : Word) : (fieldN w).toNat = w.toNat % 16 := by
  simp [fieldN]

theorem fieldNN_toNat (w : Word) : (fieldNN w).toNat = w.toNat % 256 := by
  simp [fieldNN]

theorem fieldNNN_eq_setWidth (w : Word) : fieldNNN w = w.setWidth 12 :=
  BitVec.setWidth_eq_extractLsb' (by decide) |>.symm

theorem formatNNN_of_fields {w : Word} {op : BitVec 4} (hop : fieldOp w = op) : formatNNN op (fieldNNN w) = w := by
  rw [← hop, formatNNN_fields]

theorem formatXNN_of_fields {w : Word} {op : BitVec 4} {nn : Byte} (hop : fieldOp w = op) (hnn : fieldNN w = nn) :
    formatXNN op (regX w) nn = w := by
  rw [← hop, ← hnn, formatXNN_fields]

theorem formatXYN_of_fields {w : Word} {op n : BitVec 4} (hop : fieldOp w = op) (hn : fieldN w = n) :
    formatXYN op (regX w) (regY w) n = w := by
  rw [← hop, ← hn, formatXYN_fields]

/-- The families of R17, for a split over the branches of `decode`. -/
theorem fieldOp_cases (w : Word) :
    fieldOp w = 0x0#4 ∨ fieldOp w = 0x1#4 ∨ fieldOp w = 0x2#4 ∨ fieldOp w = 0x3#4 ∨
    fieldOp w = 0x4#4 ∨ fieldOp w = 0x5#4 ∨ fieldOp w = 0x6#4 ∨ fieldOp w = 0x7#4 ∨
    fieldOp w = 0x8#4 ∨ fieldOp w = 0x9#4 ∨ fieldOp w = 0xA#4 ∨ fieldOp w = 0xB#4 ∨
    fieldOp w = 0xC#4 ∨ fieldOp w = 0xD#4 ∨ fieldOp w = 0xE#4 ∨ fieldOp w = 0xF#4 := by
  generalize fieldOp w = op
  revert op
  decide

/-! ### SYS is what family 0 leaves beside CLS and RET (R98) -/

theorem formatNNN_inj {op : BitVec 4} {a b : Addr} : formatNNN op a = formatNNN op b ↔ a = b :=
  ⟨fun h => by simpa using congrArg fieldNNN h, congrArg _⟩

/-- A `SYS` is well-formed exactly when its word is neither that of CLS nor that of RET. -/
theorem wf_sys_iff (nnn : Addr) :
    (Instr.sys nnn).wf = true ↔ formatNNN 0x0#4 nnn ≠ 0x00E0#16 ∧ formatNNN 0x0#4 nnn ≠ 0x00EE#16 := by
  rw [show 0x00E0#16 = formatNNN 0x0#4 0x0E0#12 from rfl, show 0x00EE#16 = formatNNN 0x0#4 0x0EE#12 from rfl]
  simp [Instr.wf, sysAddressOk, formatNNN_inj]

theorem decode_family0 {w : Word} (hop : fieldOp w = 0x0#4) : decode w = .ok (decodeFamily0 w) := by
  simp only [decode, hop]

theorem decodeFamily0_eq_sys {w : Word} (hcls : w ≠ 0x00E0#16) (hret : w ≠ 0x00EE#16) :
    decodeFamily0 w = .sys (fieldNNN w) := by
  rw [decodeFamily0, if_neg hcls, if_neg hret]

/-! ### Decode after encode -/

/-- The fields of the word select the branch of `decode` the instruction came from, and are its operands; for SYS the
branch is the last of family 0 because the instruction is well-formed. -/
theorem decode_encode (i : Instr) (h : i.wf = true) : decode (encode i) = .ok i := by
  cases i
  case sys nnn =>
    obtain ⟨hcls, hret⟩ := (wf_sys_iff nnn).mp h
    rw [encode, decode_family0 (fieldOp_formatNNN _ _), decodeFamily0_eq_sys hcls hret, fieldNNN_formatNNN]
  case cls | ret => rfl
  case seReg => simp [encode, decode, decodeFamily5]
  case ldReg | orReg | andReg | xorReg | addReg | subReg | shr | subnReg | shl =>
    simp [encode, decode, decodeFamily8]
  case sneReg => simp [encode, decode, decodeFamily9]
  case skp | sknp => simp [encode, decode, decodeFamilyE]
  case ldVxDt | ldVxK | ldDtVx | ldStVx | addI | ldF | ldB | dumpRegs | loadRegs =>
    simp [encode, decode, decodeFamilyF]
  case jp | call | ldI | jpV0 | seImm | sneImm | ldImm | addImm | rnd | drw => simp [encode, decode]

/-! ### Encode after decode

Each branch of the decoder fixes the fields that the format of its instruction fixes, and reads the others. -/

/-- The instruction is well-formed and its word is `w`. -/
def Instr.IsReadFrom (i : Instr) (w : Word) : Prop := i.wf = true ∧ encode i = w

theorem decodeFamily0_isReadFrom {w : Word} (hop : fieldOp w = 0x0#4) : (decodeFamily0 w).IsReadFrom w := by
  by_cases hcls : w = 0x00E0#16
  · subst hcls
    exact ⟨rfl, rfl⟩
  by_cases hret : w = 0x00EE#16
  · subst hret
    exact ⟨rfl, rfl⟩
  · rw [decodeFamily0_eq_sys hcls hret]
    have hw := formatNNN_of_fields hop
    exact ⟨(wf_sys_iff _).mpr (by rw [hw]; exact ⟨hcls, hret⟩), hw⟩

theorem decodeFamily5_isReadFrom {w : Word} {i : Instr} (hop : fieldOp w = 0x5#4) (h : decodeFamily5 w = .ok i) :
    i.IsReadFrom w := by
  unfold decodeFamily5 at h
  split at h <;> cases h
  exact ⟨rfl, formatXYN_of_fields hop ‹_›⟩

theorem decodeFamily8_isReadFrom {w : Word} {i : Instr} (hop : fieldOp w = 0x8#4) (h : decodeFamily8 w = .ok i) :
    i.IsReadFrom w := by
  unfold decodeFamily8 at h
  split at h <;> cases h
  all_goals exact ⟨rfl, formatXYN_of_fields hop ‹_›⟩

theorem decodeFamily9_isReadFrom {w : Word} {i : Instr} (hop : fieldOp w = 0x9#4) (h : decodeFamily9 w = .ok i) :
    i.IsReadFrom w := by
  unfold decodeFamily9 at h
  split at h <;> cases h
  exact ⟨rfl, formatXYN_of_fields hop ‹_›⟩

theorem decodeFamilyE_isReadFrom {w : Word} {i : Instr} (hop : fieldOp w = 0xE#4) (h : decodeFamilyE w = .ok i) :
    i.IsReadFrom w := by
  unfold decodeFamilyE at h
  split at h
  · cases h
    exact ⟨rfl, formatXNN_of_fields hop ‹_›⟩
  · split at h <;> cases h
    exact ⟨rfl, formatXNN_of_fields hop ‹_›⟩

theorem decodeFamilyF_isReadFrom {w : Word} {i : Instr} (hop : fieldOp w = 0xF#4) (h : decodeFamilyF w = .ok i) :
    i.IsReadFrom w := by
  unfold decodeFamilyF at h
  split at h <;> cases h
  all_goals exact ⟨rfl, formatXNN_of_fields hop ‹_›⟩

theorem isReadFrom_of_decode {w : Word} {i : Instr} (h : decode w = .ok i) : i.IsReadFrom w := by
  obtain hop | hop | hop | hop | hop | hop | hop | hop | hop | hop | hop | hop | hop | hop | hop | hop :=
    fieldOp_cases w
  all_goals simp only [decode, hop] at h
  · cases h; exact decodeFamily0_isReadFrom hop
  · cases h; exact ⟨rfl, formatNNN_of_fields hop⟩
  · cases h; exact ⟨rfl, formatNNN_of_fields hop⟩
  · cases h; exact ⟨rfl, formatXNN_of_fields hop rfl⟩
  · cases h; exact ⟨rfl, formatXNN_of_fields hop rfl⟩
  · exact decodeFamily5_isReadFrom hop h
  · cases h; exact ⟨rfl, formatXNN_of_fields hop rfl⟩
  · cases h; exact ⟨rfl, formatXNN_of_fields hop rfl⟩
  · exact decodeFamily8_isReadFrom hop h
  · exact decodeFamily9_isReadFrom hop h
  · cases h; exact ⟨rfl, formatNNN_of_fields hop⟩
  · cases h; exact ⟨rfl, formatNNN_of_fields hop⟩
  · cases h; exact ⟨rfl, formatXNN_of_fields hop rfl⟩
  · cases h; exact ⟨rfl, formatXYN_of_fields hop rfl⟩
  · exact decodeFamilyE_isReadFrom hop h
  · exact decodeFamilyF_isReadFrom hop h

/-! ### The Invalid words (R97) -/

theorem decodeFamily5_error_iff (w : Word) : (∃ e, decodeFamily5 w = .error e) ↔ w.toNat % 16 ≠ 0 := by
  rw [decodeFamily5, ← fieldN_toNat]
  split <;> simp_all [← BitVec.toNat_inj]

theorem decodeFamily8_error_iff (w : Word) :
    (∃ e, decodeFamily8 w = .error e) ↔ w.toNat % 16 ∈ [0x8, 0x9, 0xA, 0xB, 0xC, 0xD, 0xF] := by
  rw [decodeFamily8, ← fieldN_toNat]
  have hlt := (fieldN w).isLt
  split
  case h_10 =>
    simp_all [← BitVec.toNat_inj]
    omega
  all_goals simp_all

theorem decodeFamily9_error_iff (w : Word) : (∃ e, decodeFamily9 w = .error e) ↔ w.toNat % 16 ≠ 0 := by
  rw [decodeFamily9, ← fieldN_toNat]
  split <;> simp_all [← BitVec.toNat_inj]

theorem decodeFamilyE_error_iff (w : Word) :
    (∃ e, decodeFamilyE w = .error e) ↔ w.toNat % 256 ∉ [0x9E, 0xA1] := by
  rw [decodeFamilyE, ← fieldNN_toNat]
  split
  · simp_all
  · split <;> simp_all [← BitVec.toNat_inj]

theorem decodeFamilyF_error_iff (w : Word) : (∃ e, decodeFamilyF w = .error e) ↔
    w.toNat % 256 ∉ [0x07, 0x0A, 0x15, 0x18, 0x1E, 0x29, 0x33, 0x55, 0x65] := by
  rw [decodeFamilyF, ← fieldNN_toNat]
  split <;> simp_all [← BitVec.toNat_inj]

/-- A word of family `op` whose low byte is that of `k` is in one of the five sets of R97. -/
abbrev InFiveSets (op k : Nat) : Prop :=
  (op = 0x5 ∧ k % 16 ≠ 0) ∨
  (op = 0x9 ∧ k % 16 ≠ 0) ∨
  (op = 0x8 ∧ k % 16 ∈ [0x8, 0x9, 0xA, 0xB, 0xC, 0xD, 0xF]) ∨
  (op = 0xE ∧ k % 256 ∉ [0x9E, 0xA1]) ∨
  (op = 0xF ∧ k % 256 ∉ [0x07, 0x0A, 0x15, 0x18, 0x1E, 0x29, 0x33, 0x55, 0x65])

theorem inFiveSets_mod (op k : Nat) : InFiveSets op (k % 256) ↔ InFiveSets op k := by
  simp [InFiveSets, Nat.mod_mod_of_dvd]

theorem decode_error_iff (w : Word) : (∃ e, decode w = .error e) ↔ InFiveSets (w.toNat / 4096) w.toNat := by
  rw [← fieldOp_toNat]
  obtain hop | hop | hop | hop | hop | hop | hop | hop | hop | hop | hop | hop | hop | hop | hop | hop :=
    fieldOp_cases w
  all_goals simp [decode, hop, InFiveSets, decodeFamily5_error_iff, decodeFamily8_error_iff, decodeFamily9_error_iff,
    decodeFamilyE_error_iff, decodeFamilyF_error_iff]

theorem toBool_decode (w : Word) :
    ((decode w).toBool == false) = decide (InFiveSets (w.toNat / 4096) (w.toNat % 256)) := by
  rw [Bool.eq_iff_iff, decide_eq_true_iff, inFiveSets_mod, ← decode_error_iff]
  cases decode w <;> simp [Except.toBool]

/-! ### Their number: counting by family, by `x`, and by the two nibbles of the low byte -/

/-- Counting below `a * b` block by block. -/
theorem countP_range_mul (p : Nat → Bool) (a b : Nat) :
    (List.range (a * b)).countP p =
      ((List.range a).map fun j => (List.range b).countP fun k => p (b * j + k)).sum := by
  induction a with
  | zero => simp
  | succ a ih =>
    rw [Nat.succ_mul, List.range_add, List.countP_append, List.countP_map, ih, List.range_succ]
    simp [Function.comp_def, Nat.mul_comm]

/-- What depends on the remainder by `b` alone is counted in one block of `b` numbers. -/
theorem countP_range_mul_mod (p : Nat → Bool) (a b : Nat) :
    (List.range (a * b)).countP (fun k => p (k % b)) = a * (List.range b).countP p := by
  have h (j : Nat) : ((List.range b).countP fun k => p ((b * j + k) % b)) = (List.range b).countP p :=
    List.countP_congr fun k hk => by rw [Nat.mul_add_mod_self_left, Nat.mod_eq_of_lt (List.mem_range.mp hk)]
  simp only [countP_range_mul, h, List.map_const', List.sum_replicate, List.length_range, smul_eq_mul]

/-- The words are counted by family and low byte, each pair of them standing for the 16 words that differ in `x`. -/
theorem countP_words (f : Nat → Nat → Bool) :
    (List.range 65536).countP (fun k => f (k / 4096) (k % 256)) =
      ((List.range 16).map fun op => 16 * (List.range 256).countP (f op)).sum := by
  refine (countP_range_mul _ 16 4096).trans (congrArg List.sum (List.map_congr_left fun op _ => ?_))
  rw [← countP_range_mul_mod]
  refine List.countP_congr fun k hk => ?_
  have hlt : k < 4096 := List.mem_range.mp hk
  rw [show (4096 * op + k) / 4096 = op by omega, show (4096 * op + k) % 256 = k % 256 by omega]

theorem countP_lowBytes (p : Nat → Bool) : (List.range 256).countP p =
    ((List.range 16).map fun y => (List.range 16).countP fun n => p (16 * y + n)).sum :=
  countP_range_mul p 16 16

theorem count_invalid_words :
    ((List.range 65536).countP fun k => (decode (BitVec.ofNat 16 k)).toBool == false) = 17488 := by
  have h (k : Nat) (hk : k ∈ List.range 65536) : ((decode (BitVec.ofNat 16 k)).toBool == false) =
      decide (InFiveSets (k / 4096) (k % 256)) := by
    rw [toBool_decode, BitVec.toNat_ofNat, Nat.mod_eq_of_lt (List.mem_range.mp hk)]
  rw [List.countP_congr fun k hk => by rw [h k hk], countP_words fun op m => decide (InFiveSets op m)]
  simp only [countP_lowBytes]
  decide

/-! ### A word that fits a row of the opcode table (R96) -/

namespace OpcodeRow

theorem fits_iff (r : OpcodeRow) (w : Word) : r.fits w = true ↔ w &&& r.mask = r.value := beq_iff_eq

variable {r : OpcodeRow} {w : Word}

theorem eq_value_of_fits (hf : r.fits w = true) (hm : r.mask = 0xFFFF#16) : w = r.value := by
  have h : w &&& 0xFFFF#16 = w := BitVec.and_allOnes
  rw [← (r.fits_iff w).mp hf, hm, h]

theorem fieldOp_of_fits (hf : r.fits w = true) (hm : fieldOp r.mask = 0xF#4) : fieldOp w = fieldOp r.value := by
  have h : fieldOp w &&& 0xF#4 = fieldOp w := BitVec.and_allOnes
  rw [← (r.fits_iff w).mp hf, ← h, ← hm]
  exact BitVec.extractLsb'_and.symm

theorem fieldN_of_fits (hf : r.fits w = true) (hm : fieldN r.mask = 0xF#4) : fieldN w = fieldN r.value := by
  have h : fieldN w &&& 0xF#4 = fieldN w := BitVec.and_allOnes
  rw [← (r.fits_iff w).mp hf, ← h, ← hm]
  exact BitVec.extractLsb'_and.symm

theorem fieldNN_of_fits (hf : r.fits w = true) (hm : fieldNN r.mask = 0xFF#8) : fieldNN w = fieldNN r.value := by
  have h : fieldNN w &&& 0xFF#8 = fieldNN w := BitVec.and_allOnes
  rw [← (r.fits_iff w).mp hf, ← h, ← hm]
  exact BitVec.extractLsb'_and.symm

/-- The two rows ask for different values of a bit that both look at. -/
def Disjoint (r r' : OpcodeRow) : Prop := r.value &&& r'.mask ≠ r'.value &&& r.mask

theorem Disjoint.not_both_fit {r' : OpcodeRow} (h : r.Disjoint r') (hf : r.fits w = true) : ¬ r'.fits w = true := by
  intro hf'
  apply h
  rw [← (r.fits_iff w).mp hf, ← (r'.fits_iff w).mp hf', BitVec.and_assoc, BitVec.and_assoc, BitVec.and_comm r.mask]

/-- Of rows that are disjoint in pairs a word fits at most one. -/
theorem length_filter_fits_le_one {rows : List OpcodeRow} (h : rows.Pairwise Disjoint) (w : Word) :
    (rows.filter fun r => r.fits w).length ≤ 1 := by
  have hp := h.filter fun r => r.fits w
  have hfits (r : OpcodeRow) (hr : r ∈ rows.filter fun r => r.fits w) : r.fits w = true := (List.mem_filter.mp hr).2
  cases hrows : rows.filter fun r => r.fits w with
  | nil => exact Nat.zero_le 1
  | cons a rest =>
    cases rest with
    | nil => exact Nat.le_refl 1
    | cons b rest =>
      rw [hrows] at hp hfits
      exact absurd (hfits b (by simp)) ((List.rel_of_pairwise_cons hp (by simp)).not_both_fit (hfits a (by simp)))

end OpcodeRow

theorem opcodeTable_disjoint : (opcodeTable.drop 2).Pairwise OpcodeRow.Disjoint := by
  unfold OpcodeRow.Disjoint
  decide

/-! ### The first row that fits is the branch of `decode` (R93, R96) -/

/-- What fits the row, CLS and RET apart, decodes to what the row reads. -/
def OpcodeRow.AgreesWithDecode (r : OpcodeRow) : Prop :=
  ∀ w : Word, w ≠ 0x00E0#16 → w ≠ 0x00EE#16 → r.fits w = true → decode w = .ok (r.build w)

theorem opcodeRowsLow_agree (r : OpcodeRow) (hr : r ∈ opcodeRowsLow) : r.AgreesWithDecode := by
  intro w hcls hret hf
  have hop := OpcodeRow.fieldOp_of_fits hf
  have hn := OpcodeRow.fieldN_of_fits hf
  simp only [opcodeRowsLow, List.mem_cons, List.not_mem_nil, or_false] at hr
  obtain rfl | rfl | rfl | rfl | rfl | rfl | rfl | rfl | rfl | rfl := hr
  · exact absurd (OpcodeRow.eq_value_of_fits hf rfl) hcls
  · exact absurd (OpcodeRow.eq_value_of_fits hf rfl) hret
  · rw [decode_family0 (hop rfl), decodeFamily0_eq_sys hcls hret]
  all_goals simp [fieldOp, fieldN] at hop hn
  all_goals simp [decode, decodeFamily5, fieldOp, fieldN, hop, hn]

theorem opcodeRowsMiddle_agree (r : OpcodeRow) (hr : r ∈ opcodeRowsMiddle) : r.AgreesWithDecode := by
  intro w _ _ hf
  have hop := OpcodeRow.fieldOp_of_fits hf
  have hn := OpcodeRow.fieldN_of_fits hf
  simp only [opcodeRowsMiddle, List.mem_cons, List.not_mem_nil, or_false] at hr
  obtain rfl | rfl | rfl | rfl | rfl | rfl | rfl | rfl | rfl | rfl | rfl | rfl | rfl | rfl := hr
  all_goals simp [fieldOp, fieldN] at hop hn
  all_goals simp [decode, decodeFamily8, decodeFamily9, fieldOp, fieldN, hop, hn]

theorem opcodeRowsHigh_agree (r : OpcodeRow) (hr : r ∈ opcodeRowsHigh) : r.AgreesWithDecode := by
  intro w _ _ hf
  have hop := OpcodeRow.fieldOp_of_fits hf
  have hnn := OpcodeRow.fieldNN_of_fits hf
  simp only [opcodeRowsHigh, List.mem_cons, List.not_mem_nil, or_false] at hr
  obtain rfl | rfl | rfl | rfl | rfl | rfl | rfl | rfl | rfl | rfl | rfl := hr
  all_goals simp [fieldOp, fieldNN] at hop hnn
  all_goals simp [decode, decodeFamilyE, decodeFamilyF, fieldOp, fieldNN, hop, hnn]

theorem opcodeTable_agrees (r : OpcodeRow) (hr : r ∈ opcodeTable) : r.AgreesWithDecode := by
  rw [opcodeTable, List.mem_append, List.mem_append] at hr
  obtain (hr | hr) | hr := hr
  · exact opcodeRowsLow_agree r hr
  · exact opcodeRowsMiddle_agree r hr
  · exact opcodeRowsHigh_agree r hr

end Sys2Proof

namespace Sys2Proof.Laws.EncodingFitsRow

open Sys2Proof

/-- The family of lemmas over the constructors, as one. -/
theorem of_instr : ∀ i : Instr, Statement i
  | .sys nnn => sys nnn
  | .cls => cls
  | .ret => ret
  | .jp nnn => jp nnn
  | .call nnn => call nnn
  | .seImm x nn => seImm x nn
  | .sneImm x nn => sneImm x nn
  | .seReg x y => seReg x y
  | .ldImm x nn => ldImm x nn
  | .addImm x nn => addImm x nn
  | .ldReg x y => ldReg x y
  | .orReg x y => orReg x y
  | .andReg x y => andReg x y
  | .xorReg x y => xorReg x y
  | .addReg x y => addReg x y
  | .subReg x y => subReg x y
  | .shr x y => shr x y
  | .subnReg x y => subnReg x y
  | .shl x y => shl x y
  | .sneReg x y => sneReg x y
  | .ldI nnn => ldI nnn
  | .jpV0 nnn => jpV0 nnn
  | .rnd x nn => rnd x nn
  | .drw x y n => drw x y n
  | .skp x => skp x
  | .sknp x => sknp x
  | .ldVxDt x => ldVxDt x
  | .ldVxK x => ldVxK x
  | .ldDtVx x => ldDtVx x
  | .ldStVx x => ldStVx x
  | .addI x => addI x
  | .ldF x => ldF x
  | .ldB x => ldB x
  | .dumpRegs x => dumpRegs x
  | .loadRegs x => loadRegs x

end Sys2Proof.Laws.EncodingFitsRow

namespace Sys2Proof

open Machine

theorem exists_fits_of_decode {w : Word} {i : Instr} (h : decode w = .ok i) : ∃ r ∈ opcodeTable, r.fits w = true := by
  obtain ⟨-, rfl⟩ := isReadFrom_of_decode h
  obtain ⟨r, hr, hf, -⟩ := Laws.EncodingFitsRow.of_instr i
  exact ⟨r, hr, hf⟩

/-- The row found fits, so `decode` agrees with it; where none is found, nothing decodes. -/
theorem decodeByTable_eq (w : Word) : decodeByTable w = (decode w).toOption := by
  by_cases hcls : w = 0x00E0#16
  · subst hcls
    rfl
  by_cases hret : w = 0x00EE#16
  · subst hret
    rfl
  unfold decodeByTable
  cases hfind : opcodeTable.find? fun r => r.fits w with
  | some r =>
    have hf : r.fits w = true := by simpa using List.find?_some hfind
    rw [opcodeTable_agrees r (List.mem_of_find?_eq_some hfind) w hcls hret hf]
    rfl
  | none =>
    cases hd : decode w with
    | error e => rfl
    | ok i =>
      obtain ⟨r, hr, hf⟩ := exists_fits_of_decode hd
      exact absurd hf (List.find?_eq_none.mp hfind r hr)

/-! ### The statements -/

/-- Settles O1: the fields of the word are the operands, and select the branch of the decoder. -/
theorem decodeInvertsEncode : Obligations.DecodeInvertsEncode := decode_encode

/-- Settles O2: in each branch of the decoder every bit of the word is fixed or read into an operand. -/
theorem encodeInvertsDecode : Obligations.EncodeInvertsDecode := fun _ _ => isReadFrom_of_decode

/-- Settles O3: each family rejects by its low nibble or low byte; the count goes by these fields, 16 words each. -/
theorem invalidWordsAreExactlyTheFiveSets : Obligations.InvalidWordsAreExactlyTheFiveSets :=
  ⟨decode_error_iff, count_invalid_words, fun s => ⟨s.halt .decodeHalt, rfl, rfl⟩⟩

/-- Settles O4: a row that fits is the branch `decode` takes, every instruction has a row, and rows are disjoint in
pairs by the bits both look at. -/
theorem decoderAgreesWithOpcodeTable : Obligations.DecoderAgreesWithOpcodeTable :=
  ⟨decodeByTable_eq, OpcodeRow.length_filter_fits_le_one opcodeTable_disjoint⟩

/-- Settles O5: each word is the word of its instruction (`decode_encode`); 5121 is rejected by its low nibble. -/
theorem sampleWordsDecode : Obligations.SampleWordsDecode :=
  ⟨decode_encode .cls rfl, decode_encode .ret rfl, decode_encode (.sys 0x1E0) rfl, decode_encode (.jp 0xABC) rfl,
    decode_encode (.call 0xDEF) rfl, decode_encode (.seImm 3 0x2A) rfl, decode_encode (.sneImm 12 0x7F) rfl,
    decode_encode (.seReg 1 2) rfl, (decode_error_iff 0x5121#16).mpr (by decide), decode_encode (.ldImm 10 5) rfl,
    decode_encode (.addImm 0 5) rfl, decode_encode (.addReg 0 1) rfl, decode_encode (.sneReg 10 11) rfl,
    decode_encode (.ldI 0x2F0) rfl, decode_encode (.jpV0 0xFFF) rfl, decode_encode (.rnd 15 0xF0) rfl,
    decode_encode (.drw 0 1 4) rfl, decode_encode (.skp 4) rfl, decode_encode (.sknp 4) rfl,
    decode_encode (.loadRegs 15) rfl⟩

/-- Settles O32: what family 0 leaves beside CLS and RET is SYS; SYS and Invalid are the entry into `DecodeHalt`. -/
theorem sysAndInvalidHalt : Obligations.SysAndInvalidHalt := by
  refine ⟨fun w hw hcls hret => ?_, fun _ s => ⟨_, rfl, rfl, s.halt_sameExcept .decodeHalt⟩,
    fun s => ⟨_, rfl, rfl, s.halt_sameExcept .decodeHalt⟩⟩
  have hop : fieldOp w = 0x0#4 := BitVec.eq_of_toNat_eq ((fieldOp_toNat w).trans hw)
  rw [decode_family0 hop, decodeFamily0_eq_sys hcls hret, fieldNNN_eq_setWidth]

end Sys2Proof

/-! PROOFS (spec/40_step_and_control.md): the phases of STEP, the control transfers with their frames, and that every
instruction but RND commutes with a change of the draw counter. -/

namespace Sys2Proof.Machine

/-! ### The control transfers: RET and CALL, one equation for each case; where JP V0,nnn goes (R125 to R128) -/

theorem exec_ret_of_concat (s : State) (older : List Word) (a : Word) (h : s.stack = older ++ [a]) :
    exec .ret s = .next { s with stack := older, pc := a } := by
  simp [exec, execRet, h]

theorem exec_ret_of_nil (s : State) (h : s.stack = []) : exec .ret s = .next (s.halt .stackUnderflow) := by
  simp [exec, execRet, h]

theorem exec_call_of_room (nnn : Addr) (s : State) (h : s.stack.length ≠ s.params.stackDepth) :
    exec (.call nnn) s = .next { s with stack := s.stack ++ [s.pc + 2], pc := addrWord nnn } :=
  if_neg h

theorem exec_call_of_full (nnn : Addr) (s : State) (h : s.stack.length = s.params.stackDepth) :
    exec (.call nnn) s = .next (s.halt .stackOverflow) :=
  if_pos h

theorem State.setStackPc_sameExcept (s : State) (l : List Word) (a : Word) :
    SameExcept (fun p => p = .pc ∨ p = .stack) s { s with stack := l, pc := a } :=
  ((s.setStack_sameExcept l).trans_or (State.setPc_sameExcept _ a)).mono fun _ => Or.symm

/-- The target of JP V0,nnn is the sum itself: at most 0xFFF + 0xFF, it never wraps. -/
theorem addrWord_add_byteWord_toNat (nnn : Addr) (b : Byte) :
    (addrWord nnn + byteWord b).toNat = nnn.toNat + b.toNat := by
  have hn := nnn.isLt
  have hb := b.isLt
  rw [BitVec.toNat_add, addrWord_toNat, byteWord_toNat, Nat.mod_eq_of_lt (by omega)]

/-! ### A change of the draw counter before each operation that is more than a record update -/

theorem State.setDraws_readBytes (s : State) (d base len : Nat) :
    ({ s with draws := d } : State).readBytes base len = s.readBytes base len :=
  s.readBytes_congr { s with draws := d } (fun _ => rfl) base len

theorem State.setDraws_writeBytes (s : State) (d base : Nat) (bs : List Byte) :
    ({ s with draws := d } : State).writeBytes base bs = { s.writeBytes base bs with draws := d } := by
  induction bs generalizing s base with
  | nil => rfl
  | cons b rest ih => exact ih (s.writeByte base b) (base + 1)

theorem State.setDraws_waitKeyWith (s : State) (d rank : Nat) (x : Reg) :
    ({ s with draws := d } : State).waitKeyWith rank x = { s.waitKeyWith rank x with draws := d } := by
  simp only [State.waitKeyWith]
  split <;> rfl

theorem mapNext_ifAccessible (f : State → State) (base len : Nat) (effect : State) :
    mapNext f (ifAccessible base len effect) = ifAccessible base len (f effect) := by
  unfold ifAccessible
  split <;> rfl

/-- An instruction but RND takes no draw: after another number of draws it does the same, and leaves that number. -/
theorem exec_setDraws (i : Instr) (s : State) (d : Nat) (hi : ∀ x nn, i ≠ .rnd x nn) :
    exec i { s with draws := d } = mapNext (fun t => { t with draws := d }) (exec i s) := by
  cases i
  case rnd x nn => exact absurd rfl (hi x nn)
  case ret =>
    obtain h | ⟨older, a, h⟩ := s.stack.eq_nil_or_concat'
    · rw [exec_ret_of_nil s h]
      exact exec_ret_of_nil { s with draws := d } h
    · rw [exec_ret_of_concat s older a h]
      exact exec_ret_of_concat { s with draws := d } older a h
  case call nnn =>
    by_cases h : s.stack.length = s.params.stackDepth
    · rw [exec_call_of_full nnn s h]
      exact exec_call_of_full nnn { s with draws := d } h
    · rw [exec_call_of_room nnn s h]
      exact exec_call_of_room nnn { s with draws := d } h
  case skp | sknp =>
    simp only [exec, execSkp, execSknp, State.reg]
    split <;> rfl
  case ldF x =>
    simp only [exec, execLdF, apply_ite (mapNext _)]
    rfl
  case ldVxK x => exact congrArg _ (s.setDraws_waitKeyWith d (Config.keyRank s.keys) x)
  case drw | ldB | dumpRegs | loadRegs =>
    simp only [exec, execDrw, execLdB, execDumpRegs, execLoadRegs, State.setDraws_readBytes,
      State.setDraws_writeBytes, mapNext_ifAccessible]
    rfl
  -- every other meaning is a chain of record updates, whatever the counter is
  all_goals rfl

/-! ### What STEP returns (R50, R120 phase 5) -/

theorem State.stepTransaction_of_next (s t : State) (h : step s = .next t) :
    s.stepTransaction = (.ready t, .ran t.run) := by
  simp only [State.stepTransaction, h]

/-! ### The statements -/

/-- Settles O14: each meaning commutes with a change of the draw counter; only RND looks at it. -/
theorem onlyRndTakesADraw : Obligations.OnlyRndTakesADraw := exec_setDraws

/-- Settles O6: the equations of STEP, one for each way through its phases. -/
theorem stepFetchesDecodesExecutes : Obligations.StepFetchesDecodesExecutes := by
  refine fun s => ⟨step_of_halted s, fun hr hf => ?_, fun i hr hf hd => ?_, fun e hr hf hd => ?_,
    s.stepTransaction_of_next⟩
  · exact step_of_not_canFetch s hr (mt s.canFetch_iff.mp (Nat.not_le.mpr hf))
  · exact step_of_decode_ok s i hr (s.canFetch_iff.mpr hf) hd
  · exact step_of_decode_error s e hr (s.canFetch_iff.mpr hf) hd

/-- Settles O33: the newest entry is the last of the list; an empty stack enters the halt. -/
theorem retPopsOrUnderflows : Obligations.RetPopsOrUnderflows := by
  refine ⟨decode_encode .ret rfl, fun s older a h => ?_, fun s h => ?_⟩
  · exact ⟨_, exec_ret_of_concat s older a h, rfl, rfl, s.setStackPc_sameExcept older a⟩
  · exact ⟨_, exec_ret_of_nil s h, rfl, s.halt_sameExcept .stackUnderflow⟩

/-- Settles O34: the address widens to 16 bits without change. -/
theorem jumpSetsPc : Obligations.JumpSetsPc := fun nnn s =>
  ⟨decode_encode (.jp nnn) rfl, _, rfl, addrWord_toNat nnn, s.setPc_sameExcept (addrWord nnn)⟩

/-- Settles O35: the sum of a 12-bit address and a byte does not wrap in 16 bits. -/
theorem jumpOffsetAddsV0 : Obligations.JumpOffsetAddsV0 := fun nnn s =>
  ⟨decode_encode (.jpV0 nnn) rfl, _, rfl, addrWord_add_byteWord_toNat nnn (s.reg 0), s.setPc_sameExcept _⟩

/-- Settles O36: a stack with room takes the return address; a full one enters the halt. -/
theorem callPushesOrOverflows : Obligations.CallPushesOrOverflows := by
  refine ⟨fun nnn => decode_encode (.call nnn) rfl, fun nnn s h => ?_, fun nnn s h => ?_⟩
  · exact ⟨_, exec_call_of_room nnn s h, addrWord_toNat nnn, rfl, List.length_append, s.setStackPc_sameExcept _ _⟩
  · exact ⟨_, exec_call_of_full nnn s h, rfl, s.halt_sameExcept .stackOverflow⟩

/-- Settles O37: what CALL pushes is the newest entry, which RET pops. -/
theorem retReturnsAfterCall : Obligations.RetReturnsAfterCall := fun nnn s h =>
  ⟨_, exec_call_of_room nnn s h, fun u hu => ⟨_, exec_ret_of_concat u s.stack (s.pc + 2) hu, rfl, rfl⟩⟩

end Sys2Proof.Machine

/-! PROOFS (spec/41_skips.md): what a skip does to `pc`, the meanings of SKP and SKNP by the register's value; from
these the statements O38, O39 and O40. -/

namespace Sys2Proof.Machine

/-! ### The skip, once for the six instructions (R156) -/

/-- A meaning that is a skip on `taken` passes one more instruction where `taken` is true, none where it is false,
and changes `pc` alone. -/
theorem exec_skipIf {i : Instr} {s : State} {taken : Bool} {skips stays : Prop} (hi : exec i s = .next (s.skipIf taken))
    (hskips : skips → taken = true) (hstays : stays → taken = false) :
    ∃ t, exec i s = .next t ∧ (skips → t.pc = s.pc + 4) ∧ (stays → t.pc = s.pc + 2) ∧
      SameExcept (fun p => p = .pc) s t := by
  refine ⟨_, hi, fun h => ?_, fun h => ?_, s.skipIf_sameExcept taken⟩
  · simp [hskips h]
  · simp [hstays h]

/-! ### SKP and SKNP, by the key the register numbers (R154, R155) -/

theorem exec_skp_of_key (x : Reg) (s : State) (k : Key) (hk : keyOf (s.reg x) = some k) :
    exec (.skp x) s = .next (s.skipIf (s.key k)) := by
  simp only [exec, execSkp, hk]

theorem exec_sknp_of_key (x : Reg) (s : State) (k : Key) (hk : keyOf (s.reg x) = some k) :
    exec (.sknp x) s = .next (s.skipIf (!s.key k)) := by
  simp only [exec, execSknp, hk]

theorem exec_skp_of_no_key (x : Reg) (s : State) (hk : keyOf (s.reg x) = none) :
    exec (.skp x) s = .fault .keyIndex := by
  simp only [exec, execSkp, hk]

theorem exec_sknp_of_no_key (x : Reg) (s : State) (hk : keyOf (s.reg x) = none) :
    exec (.sknp x) s = .fault .keyIndex := by
  simp only [exec, execSknp, hk]

/-! ### The statements -/

/-- Settles O38: both are skips, on the equality with the immediate and on its negation. -/
theorem skipsOnImmediate : Obligations.SkipsOnImmediate := fun x nn _ =>
  ⟨decode_encode (.seImm x nn) rfl, decode_encode (.sneImm x nn) rfl,
    exec_skipIf rfl beq_iff_eq.mpr beq_eq_false_iff_ne.mpr, exec_skipIf rfl bne_iff_ne.mpr bne_eq_false_iff_eq.mpr⟩

/-- Settles O39: both are skips, on the equality of the two registers and on its negation. -/
theorem skipsOnRegisters : Obligations.SkipsOnRegisters := fun x y _ =>
  ⟨decode_encode (.seReg x y) rfl, decode_encode (.sneReg x y) rfl,
    exec_skipIf rfl beq_iff_eq.mpr beq_eq_false_iff_ne.mpr, exec_skipIf rfl bne_iff_ne.mpr bne_eq_false_iff_eq.mpr⟩

/-- Settles O40: a register up to 15 numbers a key, and both are skips on that key; above 15 it numbers none. -/
theorem skipsOnKeys : Obligations.SkipsOnKeys := by
  refine ⟨fun x => ⟨decode_encode (.skp x) rfl, decode_encode (.sknp x) rfl⟩, fun x s k h => ?_, fun x s h => ?_⟩
  · have hk : keyOf (s.reg x) = some k := (keyOf_eq_some _ k).mpr h.symm
    exact ⟨exec_skipIf (exec_skp_of_key x s k hk) id id,
      exec_skipIf (exec_sknp_of_key x s k hk) (congrArg not) (congrArg not)⟩
  · have hk : keyOf (s.reg x) = none := (keyOf_eq_none _).mpr h
    exact ⟨exec_skp_of_no_key x s hk, exec_sknp_of_no_key x s hk⟩

end Sys2Proof.Machine

/-! PROOFS (spec/42_load_alu.md): what the two ways of ending an arithmetic instruction write, with or without the
flag, and the results and flags as numbers; from these the statements O41 to O46. -/

namespace Sys2Proof.Machine

/-! ### The two endings of these instructions, once for all of them (R171) -/

/-- A meaning that puts a result without a flag writes `V[x]` and advances, and no more. -/
theorem exec_putResult {i : Instr} {s : State} {x : Reg} {b : Byte} (hi : exec i s = .next (s.putResult x b)) :
    ∃ t, exec i s = .next t ∧ t.reg x = b ∧ t.pc = s.pc + 2 ∧ SameExcept (fun p => p = .reg x ∨ p = .pc) s t :=
  ⟨_, hi, by rw [State.putResult_reg, if_pos rfl], s.putResult_pc x b, s.putResult_sameExcept x b⟩

/-- A meaning that puts a result and then the flag: `VF` is the flag in every case, and the result stands in `V[x]`
unless that is `VF`. -/
theorem exec_putResultAndFlag {i : Instr} {s : State} {x : Reg} {b flag : Byte} {f : Bool} {result : Nat}
    (hi : exec i s = .next (s.putResultAndFlag x b f)) (hresult : b.toNat = result) (hflag : flagByte f = flag) :
    ∃ t, exec i s = .next t ∧ (x ≠ vf → (t.reg x).toNat = result) ∧ t.reg vf = flag ∧ t.pc = s.pc + 2 ∧
      SameExcept (fun p => p = .reg x ∨ p = .reg vf ∨ p = .pc) s t := by
  refine ⟨_, hi, fun hx => ?_, ?_, s.putResultAndFlag_pc x b f, ?_⟩
  · rw [State.putResultAndFlag_reg, if_neg hx, if_pos rfl, hresult]
  · rw [State.putResultAndFlag_reg, if_pos rfl, hflag]
  · exact (s.putResultAndFlag_sameExcept x b f).mono fun _ => or_assoc.mp

/-! ### The flags (R166 to R170) -/

theorem flagByte_decide (p : Prop) [Decidable p] : flagByte (decide p) = if p then 0x01 else 0x00 := by
  simp only [flagByte, decide_eq_true_eq]

theorem flagByte_toNat (f : Bool) : (flagByte f).toNat = f.toNat := by cases f <;> rfl

theorem lowBitOf_toNat (a : Byte) : (lowBitOf a).toNat = a.toNat % 2 := by
  rw [lowBitOf, BitVec.getLsbD, Nat.toNat_testBit, Nat.pow_zero, Nat.div_one]

theorem highBitOf_toNat (a : Byte) : (highBitOf a).toNat = a.toNat / 128 := by
  have ha := a.isLt
  rw [highBitOf, BitVec.getLsbD, Nat.toNat_testBit]
  omega

/-! ### The results as numbers (R167 to R170) -/

theorem byte_sub_toNat (a b : Byte) : (a - b).toNat = (256 + a.toNat - b.toNat) % 256 := by
  have hb := b.isLt
  rw [BitVec.toNat_sub]
  omega

theorem byte_shiftRight_one_toNat (a : Byte) : (a >>> 1).toNat = a.toNat / 2 := by
  rw [BitVec.toNat_ushiftRight, Nat.shiftRight_one]

theorem byte_shiftLeft_one_toNat (a : Byte) : (a <<< 1).toNat = 2 * a.toNat % 256 := by
  rw [BitVec.toNat_shiftLeft, Nat.shiftLeft_eq, Nat.mul_comm]

/-! ### The two differences and the two shifts, each pair once -/

/-- SUB and SUBN are one meaning with the operands exchanged: a difference and its not-borrow flag. -/
theorem exec_putDifference {i : Instr} {s : State} {x : Reg} {a b : Byte}
    (hi : exec i s = .next (s.putResultAndFlag x (a - b) (notBorrowOf a b))) :
    ∃ t, exec i s = .next t ∧ (x ≠ vf → (t.reg x).toNat = (256 + a.toNat - b.toNat) % 256) ∧
      t.reg vf = (if a.toNat ≥ b.toNat then 0x01 else 0x00) ∧ t.pc = s.pc + 2 ∧
      SameExcept (fun p => p = .reg x ∨ p = .reg vf ∨ p = .pc) s t :=
  exec_putResultAndFlag hi (byte_sub_toNat a b) (flagByte_decide _)

/-- SHR and SHL: a meaning that is the same for every `y`, and puts a shifted value and the bit shifted out. -/
theorem exec_putShift {shift : Reg → Instr} {s : State} {x : Reg} {b : Byte} {f : Bool} {result bit : Nat}
    (hi : ∀ y, exec (shift y) s = .next (s.putResultAndFlag x b f)) (hresult : b.toNat = result)
    (hbit : f.toNat = bit) (y : Reg) :
    ∃ t, exec (shift y) s = .next t ∧ (x ≠ vf → (t.reg x).toNat = result) ∧ (t.reg vf).toNat = bit ∧
      t.pc = s.pc + 2 ∧ SameExcept (fun p => p = .reg x ∨ p = .reg vf ∨ p = .pc) s t ∧
      ∀ y', exec (shift y') s = .next t := by
  obtain ⟨t, ht, hx, hvf, hpc, hframe⟩ := exec_putResultAndFlag (hi y) hresult rfl
  refine ⟨t, ht, hx, ?_, hpc, hframe, fun y' => ?_⟩
  · rw [hvf, flagByte_toNat, hbit]
  · rw [hi y', ← hi y, ht]

/-! ### The statements -/

/-- Settles O44: the flag is computed from the exact sum and written last. -/
theorem addSetsCarry : Obligations.AddSetsCarry := fun x y _ =>
  ⟨decode_encode (.addReg x y) rfl, exec_putResultAndFlag rfl (BitVec.toNat_add _ _) (flagByte_decide _)⟩

/-- Settles O45: both put a difference, SUBN with the operands exchanged. -/
theorem subtractSetsNotBorrow : Obligations.SubtractSetsNotBorrow := fun x y _ =>
  ⟨decode_encode (.subReg x y) rfl, decode_encode (.subnReg x y) rfl, exec_putDifference rfl, exec_putDifference rfl⟩

/-- Settles O46: halving and doubling modulo 256, the bits shifted out being bit 0 and bit 7. -/
theorem shiftsSetBitShiftedOut : Obligations.ShiftsSetBitShiftedOut := fun x y s =>
  ⟨decode_encode (.shr x y) rfl, decode_encode (.shl x y) rfl,
    exec_putShift (fun _ => rfl) (byte_shiftRight_one_toNat (s.reg x)) (lowBitOf_toNat (s.reg x)) y,
    exec_putShift (fun _ => rfl) (byte_shiftLeft_one_toNat (s.reg x)) (highBitOf_toNat (s.reg x)) y⟩

/-- Settles O41: the result put is the immediate. -/
theorem loadImmediate : Obligations.LoadImmediate := fun x nn _ =>
  ⟨decode_encode (.ldImm x nn) rfl, exec_putResult rfl⟩

/-- Settles O42: the result put is the sum of bytes, and no flag is. -/
theorem addImmediateSetsNoFlag : Obligations.AddImmediateSetsNoFlag := by
  refine fun x nn s => ⟨decode_encode (.addImm x nn) rfl, ?_⟩
  obtain ⟨t, ht, hx, hpc, hframe⟩ := exec_putResult (i := .addImm x nn) (s := s) rfl
  exact ⟨t, ht, hx ▸ BitVec.toNat_add _ _, hpc, hframe⟩

/-- Settles O43: each of the four puts its result without a flag. -/
theorem copyAndBitwise : Obligations.CopyAndBitwise := fun x y _ =>
  ⟨decode_encode (.ldReg x y) rfl, decode_encode (.orReg x y) rfl, decode_encode (.andReg x y) rfl,
    decode_encode (.xorReg x y) rfl, exec_putResult rfl, exec_putResult rfl, exec_putResult rfl, exec_putResult rfl⟩

end Sys2Proof.Machine

/-! PROOFS (spec/43_display.md): what CLS and DRW leave, pixel by pixel against the sprite of R182, and when a sprite
has a 1 bit at all; from these the statements O48, O49 and O50. -/

namespace Sys2Proof.Machine

/-! ### CLS (R180) -/

@[simp] theorem Display.pixel_blank (r : Row) (c : Col) : Display.pixel Display.blank r c = false := by
  simp [Display.pixel, Display.blank]

theorem State.redrawn_sameExcept (s : State) (d : Display) (dirty : Bool) :
    SameExcept (fun p => p = .pc ∨ p = .dirty ∨ ∃ r c, p = .pixel r c) s
      { s with disp := d, dirty := dirty }.advance := by
  refine ((s.setDisplay_sameExcept d dirty).trans_or (State.advance_sameExcept _)).mono ?_
  rintro p ((hp | ⟨r, c, -, hp⟩) | hp)
  · exact .inr (.inl hp)
  · exact .inr (.inr ⟨r, c, hp⟩)
  · exact .inl hp

/-! ### The state DRW leaves, and when it leaves one (R181) -/

/-- The state `DRW Vx,Vy,n` leaves when the sprite bytes exist. -/
def State.drawn (s : State) (x y : Reg) (n : BitVec 4) : State :=
  s.finishBlit (blit (s.reg x) (s.reg y) (s.readBytes s.i.toNat n.toNat) s.disp)

theorem exec_drw (x y : Reg) (n : BitVec 4) (s : State) :
    exec (.drw x y n) s = ifAccessible s.i.toNat n.toNat (s.drawn x y n) := rfl

theorem exec_drw_of_fits {x y : Reg} {n : BitVec 4} {s : State} (h : n = 0 ∨ s.i.toNat + n.toNat - 1 ≤ 4095) :
    exec (.drw x y n) s = .next (s.drawn x y n) := by
  have hlen : n.toNat = 0 ∨ s.i.toNat + n.toNat - 1 ≤ 4095 := h.imp_left (congrArg BitVec.toNat)
  rw [exec_drw, ifAccessible_eq, if_pos hlen]

theorem exec_drw_of_beyond {x y : Reg} {n : BitVec 4} {s : State} (hn : n ≠ 0)
    (h : s.i.toNat + n.toNat - 1 > 4095) : exec (.drw x y n) s = .fault .memoryBounds := by
  rw [exec_drw, ifAccessible_eq, if_neg]
  rintro (h0 | hle)
  · exact hn (BitVec.eq_of_toNat_eq h0)
  · omega

/-! ### What DRW leaves, against the pixels its sprite covers (R181, R182) -/

theorem State.drawn_pixel_ne_iff (s : State) (x y : Reg) (n : BitVec 4) (r : Row) (c : Col) :
    (s.drawn x y n).pixel r c ≠ s.pixel r c ↔ s.spriteCovers (s.reg x) (s.reg y) n.toNat r c :=
  s.finishBlit_pixel_ne_iff x y n r c

theorem State.drawn_pixel_covered {s : State} {x y : Reg} {n : BitVec 4} {r : Row} {c : Col}
    (h : s.spriteCovers (s.reg x) (s.reg y) n.toNat r c) : (s.drawn x y n).pixel r c = !s.pixel r c :=
  Bool.eq_not.mpr ((s.drawn_pixel_ne_iff x y n r c).mpr h)

theorem State.drawn_pixel_outside {s : State} {x y : Reg} {n : BitVec 4} {r : Row} {c : Col}
    (h : ¬ s.spriteCovers (s.reg x) (s.reg y) n.toNat r c) : (s.drawn x y n).pixel r c = s.pixel r c :=
  Classical.not_not.mp (mt (s.drawn_pixel_ne_iff x y n r c).mp h)

theorem flagByte_eq_one_iff (f : Bool) : flagByte f = 1 ↔ f = true := by cases f <;> decide

theorem flagByte_eq_zero_iff (f : Bool) : flagByte f = 0 ↔ ¬ f = true := by cases f <;> decide

theorem State.drawn_reg (s : State) (x y : Reg) (n : BitVec 4) (r : Reg) (h : r ≠ vf) :
    (s.drawn x y n).reg r = s.reg r := by
  rw [State.drawn, State.finishBlit_reg, if_neg h]

theorem State.drawn_flag (s : State) (x y : Reg) (n : BitVec 4) : (s.drawn x y n).reg vf =
    flagByte (blit (s.reg x) (s.reg y) (s.readBytes s.i.toNat n.toNat) s.disp).collision := by
  rw [State.drawn, State.finishBlit_reg, if_pos rfl]

/-- A blit of the sprite bytes at `I` collides where the sprite covers a pixel that is set. -/
theorem State.blit_collision_iff (s : State) (x0 y0 : Byte) (n : BitVec 4) :
    (blit x0 y0 (s.readBytes s.i.toNat n.toNat) s.disp).collision = true ↔
      ∃ r c, s.spriteCovers x0 y0 n.toNat r c ∧ s.pixel r c = true := by
  have hlen : (s.readBytes s.i.toNat n.toNat).length ≤ 32 := by
    have hn := n.isLt
    rw [State.length_readBytes]
    omega
  simp only [blit_collision x0 y0 _ s.disp hlen, State.spriteOn_readBytes, State.pixel]

theorem State.drawn_flag_eq_one_iff (s : State) (x y : Reg) (n : BitVec 4) : (s.drawn x y n).reg vf = 1 ↔
    ∃ r c, s.spriteCovers (s.reg x) (s.reg y) n.toNat r c ∧ s.pixel r c = true := by
  rw [s.drawn_flag, flagByte_eq_one_iff, s.blit_collision_iff]

theorem State.drawn_flag_eq_zero_iff (s : State) (x y : Reg) (n : BitVec 4) : (s.drawn x y n).reg vf = 0 ↔
    ¬ ∃ r c, s.spriteCovers (s.reg x) (s.reg y) n.toNat r c ∧ s.pixel r c = true := by
  rw [s.drawn_flag, flagByte_eq_zero_iff, s.blit_collision_iff]

theorem State.drawn_dirty_iff (s : State) (x y : Reg) (n : BitVec 4) : (s.drawn x y n).dirty = true ↔
    s.dirty = true ∨ ∃ r c, s.spriteCovers (s.reg x) (s.reg y) n.toNat r c := by
  rw [State.drawn, State.finishBlit_dirty, Bool.or_eq_true, blit_changed]
  simp only [State.spriteOn_readBytes]

theorem State.drawn_sameExcept (s : State) (x y : Reg) (n : BitVec 4) :
    SameExcept (fun p => p = .reg vf ∨ p = .pc ∨ p = .dirty ∨ ∃ r c, p = .pixel r c) s (s.drawn x y n) :=
  (s.setReg_sameExcept vf _).trans_or (State.redrawn_sameExcept _ _ _)

/-! ### Drawing the same sprite again (R183) -/

/-- DRW writes neither `I` nor memory, nor a coordinate that is not `VF`: the same sprite covers the same pixels
after it. -/
theorem State.drawn_spriteCovers (s : State) {x y : Reg} (n : BitVec 4) (hx : x ≠ vf) (hy : y ≠ vf) :
    (s.drawn x y n).spriteCovers ((s.drawn x y n).reg x) ((s.drawn x y n).reg y) =
      s.spriteCovers (s.reg x) (s.reg y) := by
  rw [s.drawn_reg x y n x hx, s.drawn_reg x y n y hy]
  rfl

/-- A pixel the sprite covers is flipped by both draws, any other by neither. -/
theorem State.drawn_drawn_pixel (s : State) {x y : Reg} (n : BitVec 4) (hx : x ≠ vf) (hy : y ≠ vf) (r : Row)
    (c : Col) : ((s.drawn x y n).drawn x y n).pixel r c = s.pixel r c := by
  have hagain := congrArg (· n.toNat r c) (s.drawn_spriteCovers n hx hy)
  by_cases h : s.spriteCovers (s.reg x) (s.reg y) n.toNat r c
  · rw [State.drawn_pixel_covered (hagain.mpr h), State.drawn_pixel_covered h, Bool.not_not]
  · rw [State.drawn_pixel_outside (mt hagain.mp h), State.drawn_pixel_outside h]

/-- The second draw collides on what the first one set: the covered pixels that were off before both. -/
theorem State.drawn_drawn_flag_eq_one_iff (s : State) {x y : Reg} (n : BitVec 4) (hx : x ≠ vf) (hy : y ≠ vf) :
    ((s.drawn x y n).drawn x y n).reg vf = 1 ↔
      ∃ r c, s.spriteCovers (s.reg x) (s.reg y) n.toNat r c ∧ s.pixel r c = false := by
  rw [State.drawn_flag_eq_one_iff, s.drawn_spriteCovers n hx hy]
  refine exists_congr fun r => exists_congr fun c => and_congr_right fun h => ?_
  rw [State.drawn_pixel_covered h, Bool.not_eq_true']

/-! ### A sprite covers a pixel when one of its bytes is not 0 (R182) -/

theorem byte_ne_zero_iff (b : Byte) : b ≠ 0 ↔ ∃ col < 8, b.getLsbD (7 - col) = true := by
  constructor
  · intro hb
    by_contra hnone
    refine hb (BitVec.eq_of_getLsbD_eq fun k hk => ?_)
    have hbit : ¬ b.getLsbD (7 - (7 - k)) = true := fun h => hnone ⟨7 - k, by omega, h⟩
    rw [show 7 - (7 - k) = k by omega] at hbit
    simpa using hbit
  · rintro ⟨col, -, hbit⟩ rfl
    simp at hbit

theorem State.exists_spriteCovers_iff (s : State) (x0 y0 : Byte) (n : Nat) :
    (∃ r c, s.spriteCovers x0 y0 n r c) ↔ ∃ row < n, s.readByte (s.i.toNat + row) ≠ 0 := by
  simp only [byte_ne_zero_iff]
  constructor
  · rintro ⟨-, -, row, hrow, col, hcol, hbit, -, -⟩
    exact ⟨row, hrow, col, hcol, hbit⟩
  · rintro ⟨row, hrow, col, hcol, hbit⟩
    exact ⟨wrapRow y0 row, wrapCol x0 col, row, hrow, col, hcol, hbit, rfl, rfl⟩

/-! ### The statements -/

/-- Settles O49: both loops flip each covered pixel once, which gives the pixels, the flag and `dirty`; the guard is
that of the access. -/
theorem drwFlipsExactlyTheSpritePixels : Obligations.DrwFlipsExactlyTheSpritePixels := fun x y n s =>
  ⟨decode_encode (.drw x y n) rfl,
    fun h => ⟨s.drawn x y n, exec_drw_of_fits h, fun _ _ => State.drawn_pixel_covered,
      fun _ _ => State.drawn_pixel_outside, s.drawn_flag_eq_one_iff x y n, s.drawn_flag_eq_zero_iff x y n,
      s.drawn_dirty_iff x y n, rfl, s.drawn_sameExcept x y n⟩,
    exec_drw_of_beyond⟩

/-- Settles O50: the second draw covers the same pixels, since the coordinates, `I` and memory are as they were. -/
theorem drwTwiceRestoresDisplay : Obligations.DrwTwiceRestoresDisplay := by
  intro x y n s hx hy hfits
  refine ⟨s.drawn x y n, (s.drawn x y n).drawn x y n, exec_drw_of_fits hfits, exec_drw_of_fits hfits,
    s.drawn_drawn_pixel n hx hy, s.drawn_drawn_flag_eq_one_iff n hx hy, fun hclear => ?_⟩
  rw [s.drawn_drawn_flag_eq_one_iff n hx hy, ← s.exists_spriteCovers_iff (s.reg x) (s.reg y)]
  simp only [hclear, and_true]

/-- Settles O48: the display left is blank, and the two updates and the advance are the frame. -/
theorem clsClearsDisplay : Obligations.ClsClearsDisplay :=
  ⟨decode_encode .cls rfl,
    fun s => ⟨_, rfl, Display.pixel_blank, rfl, rfl, s.redrawn_sameExcept Display.blank true⟩⟩

end Sys2Proof.Machine

/-! PROOFS (spec/44_keys_timers.md): LD Vx,K once a key is pressed, and which key rank 0 picks; from these the
statements O51 and O52. -/

namespace Sys2Proof.Machine

/-! ### The key taken (R190) -/

theorem keyByte_toNat (k : Key) : (BitVec.ofNat 8 k.val).toNat = k.val := by
  have hk := k.isLt
  rw [BitVec.toNat_ofNat, Nat.mod_eq_of_lt (by omega)]

/-- With a key pressed, the wait ends: it puts the number of the key picked, which is a pressed one. -/
theorem State.waitKeyWith_of_pressed {s : State} (h : ∃ k, s.key k = true) (rank : Nat) (x : Reg) :
    ∃ k, s.key k = true ∧ pickKey rank (pressedKeys s.keys) = some k ∧
      s.waitKeyWith rank x = s.putResult x (BitVec.ofNat 8 k.val) := by
  obtain ⟨hnone, -⟩ | hpicked := s.waitKeyWith_cases rank x
  · obtain ⟨k, hk⟩ := h
    exact absurd (hnone k) (by simp [hk])
  · exact hpicked

theorem pressedKeys_ascending (keys : Vector Bool 16) : (pressedKeys keys).Pairwise (· < ·) :=
  (List.pairwise_lt_finRange 16).filter _

/-- Rank 0 picks the first of an ascending list, so no pressed key has a smaller number. -/
theorem State.pickKey_zero_le {s : State} {k j : Key} (hk : pickKey 0 (pressedKeys s.keys) = some k)
    (hj : s.key j = true) : k ≤ j := by
  rw [pickKey_zero, List.head?_eq_some_iff] at hk
  obtain ⟨rest, hkeys⟩ := hk
  have hmem : j ∈ k :: rest := hkeys ▸ (mem_pressedKeys s j).mpr hj
  have hasc : (k :: rest).Pairwise (· < ·) := hkeys ▸ pressedKeys_ascending s.keys
  obtain rfl | hj' := List.mem_cons.mp hmem
  · exact le_refl j
  · exact (List.rel_of_pairwise_cons hasc hj').le

/-! ### The statements -/

/-- Settles O51: the wait has two outcomes, and the key rank 0 picks is both pressed and at most every pressed key. -/
theorem waitKeyTakesAPressedKey : Obligations.WaitKeyTakesAPressedKey := by
  refine fun x s => ⟨decode_encode (.ldVxK x) rfl, fun hnone => ?_, fun hsome => ?_, fun k hk hleast => ?_⟩
  · obtain ⟨-, hwait⟩ | ⟨k, hk, -, -⟩ := s.waitKeyWith_cases (Config.keyRank s.keys) x
    · exact congrArg Host.Outcome.next hwait
    · exact absurd (hnone k) (by simp [hk])
  · obtain ⟨k, hk, -, hwait⟩ := State.waitKeyWith_of_pressed hsome (Config.keyRank s.keys) x
    obtain ⟨t, ht, hx, hpc, hframe⟩ := exec_putResult (i := .ldVxK x) (s := s) (congrArg Host.Outcome.next hwait)
    exact ⟨t, k, ht, hk, hx ▸ keyByte_toNat k, hpc, hframe⟩
  · obtain ⟨j, hj, hpick, hwait⟩ := State.waitKeyWith_of_pressed ⟨k, hk⟩ 0 x
    obtain rfl : j = k := le_antisymm (State.pickKey_zero_le hpick hk) (hleast j hj)
    rw [hwait, State.putResult_reg, if_pos rfl, keyByte_toNat]

/-- Settles O52: the first puts a result, the other two update one timer and advance. -/
theorem timersReadAndSet : Obligations.TimersReadAndSet := fun x s =>
  ⟨decode_encode (.ldVxDt x) rfl, decode_encode (.ldDtVx x) rfl, decode_encode (.ldStVx x) rfl, exec_putResult rfl,
    ⟨_, rfl, rfl, rfl, (s.setDelay_sameExcept _).trans_or (State.advance_sameExcept _)⟩,
    ⟨_, rfl, rfl, rfl, (s.setSound_sameExcept _).trans_or (State.advance_sameExcept _)⟩⟩

end Sys2Proof.Machine

/-! PROOFS (spec/45_index_memory.md): the instructions that set `I`, and the three with a memory access, each as an
equation and by the bytes it stores or loads; from these the statements O53 to O57. -/

namespace Sys2Proof.Machine

/-- The default advance after an operation adds `pc` to its frame. -/
theorem SameExcept.advance {w : Part → Prop} {s t : State} (h : SameExcept w s t) :
    SameExcept (fun p => p = .pc ∨ w p) s t.advance :=
  (h.trans_or t.advance_sameExcept).mono fun _ => Or.symm

/-! ### The instructions that set `I` (R200 to R202) -/

/-- A meaning that sets `I` and advances writes `I` and `pc`, and no more. -/
theorem exec_setIndex {i : Instr} {s : State} {a : Word} {n : Nat} (hi : exec i s = .next { s with i := a }.advance)
    (ha : a.toNat = n) :
    ∃ t, exec i s = .next t ∧ t.i.toNat = n ∧ t.pc = s.pc + 2 ∧ SameExcept (fun p => p = .index ∨ p = .pc) s t :=
  ⟨_, hi, ha, rfl, (s.setIndex_sameExcept a).trans_or (State.advance_sameExcept _)⟩

theorem word_add_byteWord_toNat (a : Word) (b : Byte) : (a + byteWord b).toNat = (a.toNat + b.toNat) % 65536 := by
  rw [BitVec.toNat_add, byteWord_toNat]

theorem exec_ldF_of_digit {x : Reg} {s : State} (h : (s.reg x).toNat ≤ 15) :
    exec (.ldF x) s = .next { s with i := glyphAddr (s.reg x) }.advance :=
  if_neg (Nat.not_lt.mpr h)

theorem exec_ldF_of_no_digit {x : Reg} {s : State} (h : (s.reg x).toNat > 15) :
    exec (.ldF x) s = .fault .glyphIndex :=
  if_pos h

/-! ### The instructions with a memory access, by the last address they touch (R203 to R206) -/

/-- An access of at least one byte faults exactly when its last address does not exist. -/
theorem ifAccessible_succ (base last : Nat) (effect : State) : ifAccessible base (last + 1) effect =
    if base + last ≤ 4095 then .next effect else .fault .memoryBounds := by
  have hbound : last + 1 = 0 ∨ base + (last + 1) - 1 ≤ 4095 ↔ base + last ≤ 4095 := by omega
  simp only [ifAccessible_eq, hbound]

theorem exec_ldB (x : Reg) (s : State) : exec (.ldB x) s = if s.i.toNat + 2 ≤ 4095 then
    .next (s.writeBytes s.i.toNat (decimalDigits (s.reg x))).advance else .fault .memoryBounds :=
  ifAccessible_succ s.i.toNat 2 _

theorem exec_dumpRegs (x : Reg) (s : State) : exec (.dumpRegs x) s = if s.i.toNat + x.val ≤ 4095 then
    .next (s.writeBytes s.i.toNat (s.regsUpTo x)).advance else .fault .memoryBounds :=
  ifAccessible_succ s.i.toNat x.val _

theorem exec_loadRegs (x : Reg) (s : State) : exec (.loadRegs x) s = if s.i.toNat + x.val ≤ 4095 then
    .next (s.loadRegsUpTo x).advance else .fault .memoryBounds :=
  ifAccessible_succ s.i.toNat x.val _

/-! ### What the two stores leave (R203, R204) -/

theorem State.dump_sameExcept (s : State) (x : Reg) :
    SameExcept (fun p => p = .pc ∨ ∃ r ≤ x, p = .byte (s.indexAddr r.val)) s
      (s.writeBytes s.i.toNat (s.regsUpTo x)).advance := by
  refine (s.writeBytes_sameExcept s.i.toNat (s.regsUpTo x)).advance.mono fun p hp => hp.imp_right ?_
  rintro ⟨k, hk, hp⟩
  rw [State.length_regsUpTo] at hk
  exact ⟨⟨k, by omega⟩, Nat.le_of_lt_succ hk, hp⟩

/-- Byte `k` of a run of stores stands at `base + k`. -/
theorem State.readByte_writeBytes_add (s : State) (base : Nat) {bs : List Byte} {k : Nat} (hk : k < bs.length) :
    (s.writeBytes base bs).readByte (base + k) = bs[k] := by
  rw [State.writeBytes_readByte, dif_pos ⟨Nat.le_add_right _ _, by rwa [Nat.add_sub_cancel_left]⟩]
  simp only [Nat.add_sub_cancel_left]

theorem getElem_decimalDigits_toNat (b : Byte) {k : Nat} (hk : k < 3) :
    ((decimalDigits b)[k]).toNat = [b.toNat / 100, b.toNat / 10 % 10, b.toNat % 10][k] :=
  (List.getElem_map BitVec.toNat).symm.trans (List.getElem_of_eq (decimalDigits_toNat b) hk)

/-- The digit LD B,Vx stores at `I + k`: hundreds, tens, ones. -/
theorem State.readByte_ldB_toNat (s : State) (b : Byte) {k : Nat} (hk : k < 3) :
    ((s.writeBytes s.i.toNat (decimalDigits b)).readByte (s.indexAddr k)).toNat =
      [b.toNat / 100, b.toNat / 10 % 10, b.toNat % 10][k] := by
  rw [State.indexAddr, s.readByte_writeBytes_add s.i.toNat hk, getElem_decimalDigits_toNat b hk]

/-! ### The load after the dump (R205) -/

/-- Any state with the memory and the `I` a dump left loads back what the dump stored. -/
theorem State.loadRegsUpTo_reg_of_dump {s u : State} {r x : Reg} (hr : r ≤ x) (hi : u.i = s.i)
    (hmem : ∀ a, u.readByte a = (s.writeBytes s.i.toNat (s.regsUpTo x)).readByte a) :
    (u.loadRegsUpTo x).reg r = s.reg r := by
  rw [State.loadRegsUpTo_reg, if_pos hr, hi, hmem, s.readByte_writeBytes_regsUpTo hr]

/-! ### The statements -/

/-- Settles O55: the three digits, at the three addresses from `I` on, determine the register, and the frame is that
of a run of three stores. -/
theorem bcdStoresThreeDigits : Obligations.BcdStoresThreeDigits := by
  refine fun x s => ⟨decode_encode (.ldB x) rfl, fun hfits => ?_,
    fun hbeyond => (exec_ldB x s).trans (if_neg (Nat.not_le.mpr hbeyond))⟩
  have hhundreds := s.readByte_ldB_toNat (s.reg x) (k := 0) (by decide)
  have htens := s.readByte_ldB_toNat (s.reg x) (k := 1) (by decide)
  have hones := s.readByte_ldB_toNat (s.reg x) (k := 2) (by decide)
  simp only [List.getElem_cons_zero, List.getElem_cons_succ] at hhundreds htens hones
  refine ⟨_, (exec_ldB x s).trans (if_pos hfits), ?_⟩
  rw [State.advance_readByte, State.advance_readByte, State.advance_readByte, State.advance_pc, State.writeBytes_pc,
    hhundreds, htens, hones]
  exact ⟨rfl, rfl, rfl, by omega, rfl, (s.writeBytes_sameExcept s.i.toNat (decimalDigits (s.reg x))).advance⟩

/-- Settles O56: byte `r` of the run of stores is register `r`. -/
theorem dumpStoresRegisterRange : Obligations.DumpStoresRegisterRange := fun x s =>
  ⟨decode_encode (.dumpRegs x) rfl,
    fun hfits => ⟨_, (exec_dumpRegs x s).trans (if_pos hfits),
      fun r hr => by rw [State.advance_readByte, State.indexAddr, s.readByte_writeBytes_regsUpTo hr],
      by rw [State.advance_pc, State.writeBytes_pc], s.dump_sameExcept x⟩,
    fun hbeyond => (exec_dumpRegs x s).trans (if_neg (Nat.not_le.mpr hbeyond))⟩

/-- Settles O57: the registers up to `x` come from memory, and a memory that a dump left holds what they were. -/
theorem loadRestoresRegisterRange : Obligations.LoadRestoresRegisterRange := by
  refine fun x s => ⟨decode_encode (.loadRegs x) rfl, fun hfits => ?_,
    fun hbeyond => (exec_loadRegs x s).trans (if_neg (Nat.not_le.mpr hbeyond)),
    fun hfits => ⟨_, (exec_dumpRegs x s).trans (if_pos hfits), fun u hi hmem => ?_⟩⟩
  · refine ⟨_, (exec_loadRegs x s).trans (if_pos hfits), fun r hr => ?_, ?_, (s.loadRegsUpTo_sameExcept x).advance⟩
    · rw [State.advance_reg, State.loadRegsUpTo_reg, if_pos hr, State.indexAddr]
    · rw [State.advance_pc, State.loadRegsUpTo_pc]
  · have hindex : u.i = s.i := by rw [hi, State.advance_i, State.writeBytes_i]
    exact ⟨_, (exec_loadRegs x u).trans (if_pos (by rwa [hindex])),
      fun r hr => by rw [State.advance_reg, State.loadRegsUpTo_reg_of_dump hr hindex hmem]⟩

/-- Settles O53: both set `I`, the first to the address itself, the second to a sum that wraps. -/
theorem indexLoadAndAdd : Obligations.IndexLoadAndAdd :=
  ⟨fun nnn _ => ⟨decode_encode (.ldI nnn) rfl, exec_setIndex rfl (addrWord_toNat nnn)⟩,
    fun x s => ⟨decode_encode (.addI x) rfl, exec_setIndex rfl (word_add_byteWord_toNat s.i (s.reg x))⟩⟩

/-- Settles O54: a digit's glyph address is five times the digit, and what is no digit faults. -/
theorem glyphAddressIsFiveTimesDigit : Obligations.GlyphAddressIsFiveTimesDigit := fun x s =>
  ⟨decode_encode (.ldF x) rfl, fun h => exec_setIndex (exec_ldF_of_digit h) (glyphAddr_toNat (s.reg x)),
    exec_ldF_of_no_digit⟩

end Sys2Proof.Machine

/-! PROOFS (spec/60_exceptions.md): which instruction faults and which halts, what a halt leaves, the transactions on
running, halted and faulted machines, ticks counted and beeps, and what an instruction sees of the driver's inputs. -/

namespace Sys2Proof

open Machine

theorem Instr.faultsWith_clearDirty (i : Instr) (s : State) (f : Fault) :
    i.faultsWith s.clearDirty f ↔ i.faultsWith s f := by
  cases i <;> rfl

theorem Instr.writes_run {i : Instr} {s : State} (h : i.writes s .run) :
    (∃ nnn, i = .sys nnn) ∨ i = .ret ∨ ∃ nnn, i = .call nnn := by
  cases i <;> simp [Instr.writes, Instr.writesOther] at h ⊢

end Sys2Proof

namespace Sys2Proof.Machine

/-! ### Faults (R226) -/

theorem ite_next_eq_fault_iff (p : Prop) [Decidable p] (t : State) (e f : Fault) :
    (if p then .next t else .fault e : Host.Outcome State Fault Refusal) = .fault f ↔ f = e ∧ ¬ p := by
  split <;> simp_all [eq_comm]

/-- A meaning that faults when its register numbers no key faults exactly when the register is above 15. -/
theorem exec_eq_keyIndex_iff {i : Instr} {s : State} {b : Byte} {f : Fault}
    (hkey : ∀ k, keyOf b = some k → ∃ t, exec i s = .next t)
    (hnone : keyOf b = none → exec i s = .fault .keyIndex) :
    exec i s = .fault f ↔ f = .keyIndex ∧ b.toNat > 15 := by
  rw [← keyOf_eq_none]
  cases hk : keyOf b with
  | none => simp [hnone hk, eq_comm]
  | some k =>
    obtain ⟨t, ht⟩ := hkey k hk
    simp [ht]

theorem exec_ldF_eq_fault_iff (x : Reg) (s : State) (f : Fault) :
    exec (.ldF x) s = .fault f ↔ f = .glyphIndex ∧ (s.reg x).toNat > 15 := by
  by_cases h : (s.reg x).toNat > 15
  · simp [exec_ldF_of_no_digit h, h, eq_comm]
  · simp [exec_ldF_of_digit (Nat.le_of_not_gt h), h]

/-- The execute phase faults exactly as the table of R226 has it. -/
theorem exec_eq_fault_iff (i : Instr) (s : State) (f : Fault) : exec i s = .fault f ↔ i.faultsWith s f := by
  cases i
  case drw x y n =>
    rw [exec_drw, ifAccessible_eq, ite_next_eq_fault_iff]
    exact and_congr_right fun _ => by omega
  case ldB | dumpRegs | loadRegs =>
    simp only [exec_ldB, exec_dumpRegs, exec_loadRegs, ite_next_eq_fault_iff, Nat.not_le]
    rfl
  case skp x => exact exec_eq_keyIndex_iff (fun k hk => ⟨_, exec_skp_of_key x s k hk⟩) (exec_skp_of_no_key x s)
  case sknp x => exact exec_eq_keyIndex_iff (fun k hk => ⟨_, exec_sknp_of_key x s k hk⟩) (exec_sknp_of_no_key x s)
  case ldF x => exact exec_ldF_eq_fault_iff x s f
  case ret | call =>
    refine iff_of_false ?_ id
    simp only [exec, execRet, execCall]
    split <;> nofun
  -- every other meaning is a next state outright
  all_goals exact iff_of_false nofun id

/-- STEP faults at the fetch, or as the execute phase of the instruction fetched does. -/
theorem step_eq_fault_iff (s : State) (f : Fault) : step s = .fault f ↔
    s.run = .running ∧
      ((s.pc.toNat + 1 > 4095 ∧ f = .memoryBounds) ∨
       (s.pc.toNat + 1 ≤ 4095 ∧ ∃ i, decode s.fetchWord = .ok i ∧ i.faultsWith s f)) := by
  cases hr : s.run with
  | halted e => simp [step_of_halted s e hr]
  | running =>
    by_cases hf : s.pc.toNat + 1 ≤ 4095
    · have hc := s.canFetch_iff.mpr hf
      have hnot : ¬ s.pc.toNat + 1 > 4095 := Nat.not_lt.mpr hf
      cases hd : decode s.fetchWord with
      | error e =>
        simp only [step_of_decode_error s e hr hc hd, hnot, reduceCtorEq, false_and, exists_false, and_false, or_false]
      | ok i =>
        rw [step_of_decode_ok s i hr hc hd, exec_eq_fault_iff, Instr.faultsWith_clearDirty]
        simp only [hf, hnot, Except.ok.injEq, exists_eq_left', false_and, false_or, true_and]
    · rw [step_of_not_canFetch s hr (mt s.canFetch_iff.mp hf)]
      simp only [hf, Nat.lt_of_not_le hf, Host.Outcome.fault.injEq, eq_comm, false_and, or_false, true_and]

/-! ### Halts (R220, R221) -/

/-- An instruction that halts by the table of R220 is the entry into that halt. -/
theorem exec_of_haltsWith {i : Instr} {s : State} {r : HaltReason} (h : i.haltsWith s r) :
    exec i s = .next (s.halt r) := by
  cases i
  case sys nnn =>
    obtain rfl : r = .decodeHalt := h
    rfl
  case ret =>
    obtain ⟨rfl, hs⟩ := h
    exact exec_ret_of_nil s (List.length_eq_zero_iff.mp hs)
  case call nnn =>
    obtain ⟨rfl, hs⟩ := h
    exact exec_call_of_full nnn s hs
  all_goals exact h.elim

/-- Everything an instruction can do to `run`: leave it, or enter a halt of the table and do nothing else. -/
theorem exec_run_cases (i : Instr) (s t : State) (h : exec i s = .next t) :
    t.run = s.run ∨ ∃ r, i.haltsWith s r ∧ t = s.halt r := by
  by_cases hw : i.writes s .run
  · have hc := exec_next_cases i s t h
    obtain ⟨nnn, rfl⟩ | rfl | ⟨nnn, rfl⟩ := Instr.writes_run hw <;> dsimp only at hc
    · exact .inr ⟨_, rfl, hc⟩
    · obtain ⟨hs, ht⟩ | ⟨l, a, -, rfl⟩ := hc
      · exact .inr ⟨_, ⟨rfl, List.length_eq_zero_iff.mpr hs⟩, ht⟩
      · exact .inl rfl
    · obtain ⟨hs, ht⟩ | ⟨-, rfl⟩ := hc
      · exact .inr ⟨_, ⟨rfl, hs⟩, ht⟩
      · exact .inl rfl
  · exact .inl (exec_sameExcept i s t h .run hw)

/-- An instruction that halts a running machine enters a halt of the table and does nothing else. -/
theorem exec_halted {i : Instr} {s t : State} {r : HaltReason} (hr : s.run = .running) (h : exec i s = .next t)
    (ht : t.run = .halted r) : i.haltsWith s r ∧ t = s.halt r := by
  obtain hrun | ⟨r', hh, rfl⟩ := exec_run_cases i s t h
  · rw [hrun, hr] at ht
    cases ht
  · cases ht
    exact ⟨hh, rfl⟩

/-- A STEP that halts a running machine clears `dirty` and enters the halt. -/
theorem step_halted {s t : State} {r : HaltReason} (hr : s.run = .running) (h : step s = .next t)
    (ht : t.run = .halted r) : t = s.clearDirty.halt r := by
  obtain ⟨e, he, -⟩ | ⟨-, -, ⟨i, -, hi⟩ | ⟨e, -, rfl⟩⟩ := step_next_cases s t h
  · rw [hr] at he
    cases he
  · exact (exec_halted (s := s.clearDirty) hr hi ht).2
  · cases ht
    rfl

theorem State.clearDirty_sameExcept (s : State) : SameExcept (fun p => p = .dirty) s s.clearDirty := by
  intro p hp
  cases p with
  | dirty => exact absurd rfl hp
  | _ => rfl

theorem State.load_run_of_running {s : State} (bytes : List Byte) (hr : s.run = .running) (r : HaltReason) :
    (s.load bytes).1.run = .halted r ↔ r = .loadError ∧ bytes.length > 3584 := by
  by_cases hb : bytes.length ≤ 3584
  · rw [s.load_of_le bytes hb, State.writeBytes_run, hr]
    exact iff_of_false nofun fun h => absurd h.2 (Nat.not_lt.mpr hb)
  · rw [s.load_of_gt bytes (Nat.lt_of_not_le hb)]
    simp [Nat.lt_of_not_le hb, eq_comm]

/-! ### How runs end (R270) -/

/-- What each transaction of a kind keeps, a sequence of such transactions keeps. -/
theorem Condition.after_induction_of_forall {P : Condition → Prop} {Q : Transaction → Prop}
    (h : ∀ c t, Q t → P c → P (c.transact t).1) (c : Condition) (ts : List Transaction) (hts : ∀ t ∈ ts, Q t)
    (hc : P c) : P (c.after ts) := by
  induction ts generalizing c with
  | nil => exact hc
  | cons t ts ih =>
    obtain ⟨ht, hts⟩ := List.forall_mem_cons.mp hts
    exact ih _ hts (h c t ht hc)

/-- No transaction but STEP takes a machine's state away. -/
theorem Condition.transact_hasState (c : Condition) (t : Transaction) (ht : t ≠ .step) (hc : c.hasState = true) :
    (c.transact t).1.hasState = true := by
  cases c with
  | ready s =>
    cases t with
    | step => exact absurd rfl ht
    | _ => rfl
  | faulted | refused => cases hc

/-- No transaction but RESET starts an ended run again. -/
theorem Condition.transact_ended (c : Condition) (t : Transaction) (ht : t ≠ .reset) (hc : c.ended = true) :
    (c.transact t).1.ended = true := by
  cases c with
  | ready s =>
    cases hr : s.run with
    | running => simp [Condition.ended, hr] at hc
    | halted r =>
      obtain ⟨u, r', hu, hur⟩ := s.transact_of_halted r t hr ht
      simp [Condition.transact_ready, hu, Condition.ended, hur]
  | faulted | refused => rwa [Condition.transact_of_not_hasState _ t rfl, if_neg ht]

/-- Of the transactions that follow the boot, only STEP ends a run that goes on. -/
theorem Condition.eq_step_of_ended {s : State} {t : Transaction} (hr : s.run = .running) (ht : t.afterBoot = true)
    (he : ((Condition.ready s).transact t).1.ended = true) : t = .step := by
  have hrunning : ¬ (Condition.ready s).ended = true := by simp [Condition.ended, hr]
  cases t with
  | reset | load => cases ht
  | step => rfl
  | tick | setKey | readFrame => exact absurd he hrunning

/-! ### LOAD as a transaction (R265, R266) -/

theorem State.transact_load_of_le (s : State) {bytes : List Byte} (h : bytes.length ≤ 3584) :
    (Condition.ready s).transact (.load bytes) = (.ready (s.writeBytes 0x200 bytes), .loaded) := by
  rw [Condition.transact_ready, State.transact, s.load_of_le bytes h]
  rfl

theorem State.transact_load_of_gt (s : State) {bytes : List Byte} (h : bytes.length > 3584) :
    (Condition.ready s).transact (.load bytes) = (.ready (s.halt .loadError), .loadError) := by
  rw [Condition.transact_ready, State.transact, s.load_of_gt bytes h]
  rfl

/-! ### A sequence of TICKs (R240 to R242) -/

theorem State.exists_after_ticks (s : State) (k : Nat) : ∃ t,
    (Condition.ready s).after (List.replicate k .tick) = .ready t ∧ t.dt.toNat = s.dt.toNat - k ∧
      t.st.toNat = s.st.toNat - k ∧ SameExcept (fun p => p = .delay ∨ p = .sound) s t := by
  induction k generalizing s with
  | zero => exact ⟨s, rfl, rfl, rfl, SameExcept.refl _ s⟩
  | succ k ih =>
    obtain ⟨t, ht, hdt, hst, hframe⟩ := ih s.tick.1
    have htick : s.tick.1.dt.toNat = s.dt.toNat - 1 ∧ s.tick.1.st.toNat = s.st.toNat - 1 :=
      ⟨tickTimer_toNat s.dt, tickTimer_toNat s.st⟩
    exact ⟨t, ht, by omega, by omega, s.tick_sameExcept.trans hframe⟩

/-- The first of `k + 1` TICKs beeps when `ST` is 1, and then none of the rest does, `ST` being 0. -/
theorem State.count_beeps (s : State) (k : Nat) :
    ((Condition.ready s).replies (List.replicate k .tick)).count (.beep true) =
      if 1 ≤ s.st.toNat ∧ s.st.toNat ≤ k then 1 else 0 := by
  induction k generalizing s with
  | zero => exact (if_neg (by omega)).symm
  | succ k ih =>
    have hreplies : (Condition.ready s).replies (List.replicate (k + 1) .tick) =
        .beep s.tick.2 :: (Condition.ready s.tick.1).replies (List.replicate k .tick) := rfl
    have hst : s.tick.1.st.toNat = s.st.toNat - 1 := tickTimer_toNat s.st
    have hbeep : (Reply.beep s.tick.2 == .beep true) = true ↔ s.st.toNat = 1 := by
      rw [beq_iff_eq, Reply.beep.injEq, s.tick_beep, ← BitVec.toNat_inj]
      rfl
    rw [hreplies, List.count_cons, ih, hst]
    simp only [hbeep]
    split_ifs <;> omega

/-! ### The driver's inputs: the two timers and the key latch (R228) -/

/-- The state with its timers and its key latch changed. TICK and SET_KEY are such changes. -/
def State.mapInputs (delay sound : Byte → Byte) (latch : Vector Bool 16 → Vector Bool 16) (s : State) : State :=
  { s with dt := delay s.dt, st := sound s.st, keys := latch s.keys }

theorem State.tick_eq_mapInputs (s : State) : s.tick.1 = s.mapInputs tickTimer tickTimer id := rfl

theorem State.setKey_eq_mapInputs (s : State) (k : Key) (pressed : Bool) :
    s.setKey k pressed = s.mapInputs id id (·.set k.val pressed) := rfl

theorem State.setTimers_sameExcept (s : State) (a b : Byte) :
    SameExcept (fun p => p = .delay ∨ p = .sound) s { s with dt := a, st := b } :=
  (s.setDelay_sameExcept a).trans_or (State.setSound_sameExcept _ b)

section

variable (delay sound : Byte → Byte) (latch : Vector Bool 16 → Vector Bool 16)

@[simp] theorem State.mapInputs_keys (s : State) :
    (s.mapInputs delay sound latch).keys = latch s.keys := rfl

@[simp] theorem State.mapInputs_reg (s : State) (r : Reg) :
    (s.mapInputs delay sound latch).reg r = s.reg r := rfl

theorem State.mapInputs_readBytes (s : State) (base len : Nat) :
    (s.mapInputs delay sound latch).readBytes base len = s.readBytes base len :=
  s.readBytes_congr (s.mapInputs delay sound latch) (fun _ => rfl) base len

theorem State.mapInputs_writeBytes (s : State) (base : Nat) (bs : List Byte) :
    (s.mapInputs delay sound latch).writeBytes base bs = (s.writeBytes base bs).mapInputs delay sound latch := by
  induction bs generalizing s base with
  | nil => rfl
  | cons b rest ih => exact ih (s.writeByte base b) (base + 1)

end

end Sys2Proof.Machine

namespace Sys2Proof

open Machine

/-- The instruction reads or writes a timer (R191 to R193). -/
def Instr.usesTimer (i : Instr) : Prop := ∃ x, i = .ldVxDt x ∨ i = .ldDtVx x ∨ i = .ldStVx x

/-- The instruction reads the key latch (R154, R155, R190). -/
def Instr.readsKeys (i : Instr) : Prop := ∃ x, i = .skp x ∨ i = .sknp x ∨ i = .ldVxK x

/-- A change of the timers commutes with an instruction that uses none, and a change of the key latch with one that
does not read it. -/
theorem Instr.execWith_mapInputs {i : Instr} {delay sound : Byte → Byte} {latch : Vector Bool 16 → Vector Bool 16}
    (ht : i.usesTimer → delay = id ∧ sound = id) (hk : i.readsKeys → latch = id) (draw : Byte) (rank : Nat) (s : State) :
    i.execWith draw rank (s.mapInputs delay sound latch) =
      mapNext (State.mapInputs delay sound latch) (i.execWith draw rank s) := by
  cases i
  case ldVxDt x | ldDtVx x | ldStVx x =>
    obtain ⟨rfl, rfl⟩ := ht ⟨x, by simp⟩
    rfl
  case skp x | sknp x =>
    obtain rfl := hk ⟨x, by simp⟩
    simp only [Instr.execWith, exec, execSkp, execSknp, State.mapInputs_reg]
    split <;> rfl
  case ldVxK x =>
    obtain rfl := hk ⟨x, by simp⟩
    simp only [Instr.execWith, State.waitKeyWith, State.mapInputs_keys, id_eq]
    split <;> rfl
  case ret =>
    obtain h | ⟨older, a, h⟩ := s.stack.eq_nil_or_concat'
    · simp only [Instr.execWith, exec_ret_of_nil s h]
      exact exec_ret_of_nil (s.mapInputs delay sound latch) h
    · simp only [Instr.execWith, exec_ret_of_concat s older a h]
      exact exec_ret_of_concat (s.mapInputs delay sound latch) older a h
  case call nnn =>
    by_cases h : s.stack.length = s.params.stackDepth
    · simp only [Instr.execWith, exec_call_of_full nnn s h]
      exact exec_call_of_full nnn (s.mapInputs delay sound latch) h
    · simp only [Instr.execWith, exec_call_of_room nnn s h]
      exact exec_call_of_room nnn (s.mapInputs delay sound latch) h
  case ldF x =>
    simp only [Instr.execWith, exec, execLdF, apply_ite (mapNext _)]
    rfl
  case drw | ldB | dumpRegs | loadRegs =>
    simp only [Instr.execWith, exec, execDrw, execLdB, execDumpRegs, execLoadRegs,
      State.mapInputs_readBytes, State.mapInputs_writeBytes, mapNext_ifAccessible]
    rfl
  -- every other meaning is a chain of record updates, whatever the inputs are
  all_goals rfl

theorem Instr.execWith_tick {i : Instr} (hi : ¬ i.usesTimer) (draw : Byte) (rank : Nat) (s : State) :
    i.execWith draw rank s.tick.1 = mapNext (fun t => t.tick.1) (i.execWith draw rank s) := by
  rw [State.tick_eq_mapInputs]
  exact Instr.execWith_mapInputs (fun h => absurd h hi) (fun _ => rfl) draw rank s

theorem Instr.execWith_setKey {i : Instr} (hi : ¬ i.readsKeys) (draw : Byte) (rank : Nat) (s : State) (k : Key)
    (pressed : Bool) : i.execWith draw rank (s.setKey k pressed) =
      mapNext (fun t => t.setKey k pressed) (i.execWith draw rank s) := by
  rw [State.setKey_eq_mapInputs]
  exact Instr.execWith_mapInputs (fun _ => ⟨rfl, rfl⟩) (fun h => absurd h hi) draw rank s

/-- A TICK before an instruction that does not read `DT` shows in the timers alone. -/
theorem Instr.execWith_tick_next {i : Instr} (hi : ∀ x, i ≠ .ldVxDt x) {draw : Byte} {rank : Nat} {s t : State}
    (h : i.execWith draw rank s = .next t) : ∃ u, i.execWith draw rank s.tick.1 = .next u ∧
      SameExcept (fun p => p = .delay ∨ p = .sound) t u := by
  by_cases hu : i.usesTimer
  · obtain ⟨x, rfl | rfl | rfl⟩ := hu
    · exact absurd rfl (hi x)
    all_goals
      cases h
      exact ⟨_, rfl, State.setTimers_sameExcept _ _ _⟩
  · exact ⟨t.tick.1, by rw [Instr.execWith_tick hu, h, mapNext], t.tick_sameExcept⟩

theorem Instr.execWith_tick_fault {i : Instr} {draw : Byte} {rank : Nat} {s : State} {f : Fault}
    (h : i.execWith draw rank s = .fault f) : i.execWith draw rank s.tick.1 = .fault f := by
  by_cases hu : i.usesTimer
  · obtain ⟨x, rfl | rfl | rfl⟩ := hu <;> cases h
  · rw [Instr.execWith_tick hu, h, mapNext]

end Sys2Proof

namespace Sys2Proof.Machine

/-! ### The statements -/

/-- Settles O7: each meaning by its guard, STEP by its phases, and a faulted machine transaction by transaction. -/
theorem faultsAreExactlyTheTabulated : Obligations.FaultsAreExactlyTheTabulated := by
  refine ⟨exec_eq_fault_iff, step_eq_fault_iff, fun f p d t ht => ?_⟩
  cases t with
  | reset => exact absurd rfl ht
  | _ => rfl

/-- Settles O9: an instruction that halts is the entry into the halt the table gives it, and no other changes `run`. -/
theorem haltsAreExactlyTheTabulated : Obligations.HaltsAreExactlyTheTabulated := by
  refine ⟨fun i s t r hr h => ⟨fun ht => (exec_halted hr h ht).1, fun hh => ?_⟩, fun s => ⟨_, rfl, rfl⟩,
    fun s bytes hr => State.load_run_of_running bytes hr, rfl, rfl, rfl, rfl, rfl⟩
  obtain rfl : s.halt r = t := Host.Outcome.next.inj ((exec_of_haltsWith hh).symm.trans h)
  rfl

/-- Settles O10: the state after a halt is the state before it, in a STEP with `dirty` cleared, in the halt. -/
theorem haltChangesOnlyRun : Obligations.HaltChangesOnlyRun := by
  refine ⟨fun i s t r hr h ht => ?_, fun s t r hr h ht => ?_⟩
  · obtain ⟨-, rfl⟩ := exec_halted hr h ht
    exact s.halt_sameExcept r
  · obtain rfl := step_halted hr h ht
    exact ⟨rfl, (s.clearDirty_sameExcept.trans_or (State.halt_sameExcept _ r)).mono fun _ => Or.symm,
      s.stepTransaction_of_next _ h⟩

/-- Settles O15: TICK and SET_KEY change the timers and the latch, and only the instructions that use these see it. -/
theorem driverInputsAreSeenOnlyByPolling : Obligations.DriverInputsAreSeenOnlyByPolling := by
  refine fun draw rank i s => ⟨fun hread hdelay hsound => Instr.execWith_tick ?_ draw rank s,
    fun hread => ⟨fun t => Instr.execWith_tick_next hread, fun f => Instr.execWith_tick_fault⟩,
    fun k pressed hskp hsknp hwait => Instr.execWith_setKey ?_ draw rank s k pressed⟩
  · rintro ⟨x, h | h | h⟩
    exacts [hread x h, hdelay x h, hsound x h]
  · rintro ⟨x, h | h | h⟩
    exacts [hskp x h, hsknp x h, hwait x h]

/-- Settles O25: by induction over the TICKs, the state they leave and the beeps each on its own. -/
theorem ticksFloorTimersAndBeepOnce : Obligations.TicksFloorTimersAndBeepOnce := by
  intro s k
  obtain ⟨t, ht, hdt, hst, hframe⟩ := s.exists_after_ticks k
  exact ⟨t, ht, hdt, hst, hframe, s.count_beeps k⟩

/-- Settles O31: each transaction but STEP keeps a state, each but RESET keeps a run ended, and so do sequences. -/
theorem onlyStepEndsARun : Obligations.OnlyStepEndsARun := by
  refine ⟨fun s ts hts k => ?_, fun s t => Condition.eq_step_of_ended, fun c ts hc hts => ?_⟩
  · refine Condition.after_induction_of_forall (P := fun c => c.hasState = true) Condition.transact_hasState _ _ ?_ rfl
    exact fun t ht e => hts (e ▸ List.mem_of_mem_take ht)
  · refine Condition.after_induction_of_forall (P := fun c => c.ended = true) Condition.transact_ended c ts ?_ hc
    exact fun t ht e => hts (e ▸ ht)

/-- Settles O23: a program that does not fit is the entry into `LoadError`, and a halted machine stands still. -/
theorem loadTooLongLatchesLoadError : Obligations.LoadTooLongLatchesLoadError := fun s _ h =>
  ⟨_, s.transact_load_of_gt h, rfl, s.halt_sameExcept .loadError,
    (s.halt .loadError).stepTransaction_of_halted .loadError rfl⟩

/-- Settles O24: each timer by `tickTimer`; a beep means that `ST` was 1. -/
theorem tickCountsDownAndBeepsAtOne : Obligations.TickCountsDownAndBeepsAtOne := fun s =>
  ⟨_, _, rfl, tickTimer_toNat s.dt, tickTimer_toNat s.st, s.tick_beep,
    fun hb => congrArg tickTimer (s.tick_beep.mp hb), s.tick_sameExcept⟩

/-- Settles O26: the latch is written at one key. -/
theorem setKeyWritesOneKey : Obligations.SetKeyWritesOneKey := fun s k pressed =>
  ⟨_, rfl, by rw [State.setKey_key, if_pos rfl], s.setKey_sameExcept k pressed⟩

/-- Settles O28: STEP and LOAD by what they do to a halted machine; the other transactions do not look at `run`. -/
theorem haltedMachineStillServesTheDriver : Obligations.HaltedMachineStillServesTheDriver := by
  refine fun s r h => ⟨s.stepTransaction_of_halted r h, ?_, setKeyWritesOneKey s, rfl, fun bytes hb => ?_,
    s.restart, rfl, rfl⟩
  · obtain ⟨t, beep, ht, hdt, hst, hbeep, -, hframe⟩ := tickCountsDownAndBeepsAtOne s
    exact ⟨t, beep, ht, hdt, hst, hbeep, hframe⟩
  · exact ⟨_, s.transact_load_of_le hb, by rw [State.writeBytes_run, h],
      fun _ hj => s.readByte_writeBytes_add 0x200 hj⟩

end Sys2Proof.Machine

/-! PROOFS (spec/70_reset_and_hazards.md): what LOAD leaves, and that no transaction after the boot enters `LoadError`;
from these the statements O22 and O30. -/

namespace Sys2Proof

open Machine

/-! ### `LoadError` comes from LOAD alone (R220, R266) -/

theorem Instr.not_haltsWith_loadError (i : Instr) (s : State) : ¬ i.haltsWith s .loadError := by
  cases i with
  | sys => exact fun h : HaltReason.loadError = .decodeHalt => nomatch h
  | ret | call => exact fun h => nomatch h.1
  | _ => exact id

end Sys2Proof

namespace Sys2Proof.Machine

/-- A STEP enters the halt an instruction has in the table of R220, or that of an Invalid word: neither is
`LoadError`. -/
theorem step_run_ne_loadError {s t : State} (hs : s.run ≠ .halted .loadError) (h : step s = .next t) :
    t.run ≠ .halted .loadError := by
  obtain ⟨-, -, rfl⟩ | ⟨hr, -, ⟨i, -, hi⟩ | ⟨e, -, rfl⟩⟩ := step_next_cases s t h
  · exact hs
  · exact fun ht => i.not_haltsWith_loadError _ (exec_halted (s := s.clearDirty) hr hi ht).1
  · exact nofun

/-- The machine, if it has a state, is not halted with `LoadError`. -/
def Condition.notLoadError (c : Condition) : Prop := ∀ s, c = .ready s → s.run ≠ .halted .loadError

theorem Condition.notLoadError_ready {s : State} :
    (Condition.ready s).notLoadError ↔ s.run ≠ .halted .loadError :=
  ⟨fun h => h s rfl, fun h _ e => Condition.ready.inj e ▸ h⟩

theorem State.stepTransaction_notLoadError {s : State} (hs : s.run ≠ .halted .loadError) :
    s.stepTransaction.1.notLoadError := by
  unfold State.stepTransaction
  split
  next t ht => exact Condition.notLoadError_ready.mpr (step_run_ne_loadError hs ht)
  all_goals nofun

/-- No transaction a driver may issue after the boot enters `LoadError`: only a STEP can halt, and not with it. -/
theorem Condition.transact_notLoadError (c : Condition) (t : Transaction) (ht : t.afterBoot = true)
    (hc : c.notLoadError) : (c.transact t).1.notLoadError := by
  cases c with
  | ready s =>
    have hs := Condition.notLoadError_ready.mp hc
    cases t with
    | reset | load => cases ht
    | step => exact State.stepTransaction_notLoadError hs
    | tick | setKey | readFrame => exact Condition.notLoadError_ready.mpr hs
  | faulted | refused =>
    rw [Condition.transact_of_not_hasState _ t rfl, if_neg fun e => by cases e; cases ht]
    exact hc

/-! ### The boot (R261, R268) -/

theorem bootOrder_iff (ts : List Transaction) : bootOrder ts = true ↔
    ∃ bytes rest, ts = .reset :: .load bytes :: rest ∧ bytes.length ≤ 3584 ∧ ∀ t ∈ rest, t.afterBoot = true := by
  constructor
  · intro h
    unfold bootOrder at h
    split at h
    next bytes rest =>
      obtain ⟨hb, hrest⟩ := Bool.and_eq_true_iff.mp h
      exact ⟨bytes, rest, rfl, of_decide_eq_true hb, List.all_eq_true.mp hrest⟩
    next => cases h
  · rintro ⟨bytes, rest, rfl, hb, hrest⟩
    exact Bool.and_eq_true_iff.mpr ⟨decide_eq_true hb, List.all_eq_true.mpr hrest⟩

theorem Condition.restart_run (c : Condition) : c.restart.run = .running := by cases c <;> rfl

/-- RESET, a LOAD that fits and then any transactions: the machine they start from holds the program. -/
theorem Condition.after_boot (c : Condition) {bytes : List Byte} (hb : bytes.length ≤ 3584)
    (rest : List Transaction) : c.after (.reset :: .load bytes :: rest) =
      (Condition.ready (c.restart.writeBytes 0x200 bytes)).after rest := by
  have hreset : (c.transact .reset).1 = .ready c.restart := by cases c <;> rfl
  rw [Condition.after, Condition.after, hreset, State.transact_load_of_le _ hb]

/-! ### The statements -/

/-- Settles O22: the bytes and the frame of the run of stores LOAD is. -/
theorem loadCopiesVerbatim : Obligations.LoadCopiesVerbatim := fun s bytes hb =>
  ⟨_, s.transact_load_of_le hb, fun _ hj => s.readByte_writeBytes_add 0x200 hj, s.writeBytes_sameExcept 0x200 bytes⟩

/-- Settles O30: after the boot the machine runs, and no transaction that may follow enters `LoadError`. -/
theorem bootOrderNeverMeetsLoadError : Obligations.BootOrderNeverMeetsLoadError := by
  intro c ts t hts hafter
  obtain ⟨bytes, rest, rfl, hb, hrest⟩ := (bootOrder_iff ts).mp hts
  rw [c.after_boot hb rest] at hafter
  refine Condition.after_induction_of_forall (P := Condition.notLoadError) Condition.transact_notLoadError _ rest hrest
    (Condition.notLoadError_ready.mpr ?_) t hafter
  rw [State.writeBytes_run, c.restart_run]
  exact nofun

end Sys2Proof.Machine
